-- ==== Sys2Proof/Word.lean ====
section
/-! DEFINITION. The machine's fixed-width words. Element-width values (W = 64·N bits, N a parameter) are not
here: the spec treats them as unsigned integers in [0, 2^W) (00_scope.md R10, R17) and so does the model. -/

namespace Sys2Proof

/-- A 64-bit word: one HOST access, one RNG answer, one word of an element (00_scope.md R16). -/
abbrev Word := BitVec 64

/-- A command word (30_encoding.md R100). -/
abbrev CmdWord := BitVec 32

/-- A byte offset of the register map, a space of 2^16 bytes (20_memory.md R70). -/
abbrev Offset := BitVec 16

end Sys2Proof
end

