-- ==== Sys2Proof/Syntax.lean ====
section
/-! DEFINITION. The commands of the MFE: one constructor per row of the opcode map (30_encoding.md R106),
with the operands its format gives it (R102). -/

namespace Sys2Proof

/-- The index of an element register, E0 to E15 (30_encoding.md R103). -/
abbrev Reg := Fin 16

/-- The K field of LDC: four bits, of which 0 to 13 are legal (30_encoding.md R104). -/
abbrev ConstIndex := Fin 16

/-- The twenty-four commands, in the order of 30_encoding.md R106. -/
inductive Instr where
  | nop
  | derive
  | genchk (rs1 : Reg)
  | ldc (rd : Reg) (k : ConstIndex)
  | mov (rd rs1 : Reg)
  | wcmp (rs1 rs2 : Reg)
  | wadd (rd rs1 rs2 : Reg)
  | wsub (rd rs1 rs2 : Reg)
  | wshr1 (rd rs1 : Reg)
  | wbitlen (rd rs1 : Reg)
  | wisz (rs1 : Reg)
  | fadd (rd rs1 rs2 : Reg)
  | fsub (rd rs1 rs2 : Reg)
  | fneg (rd rs1 : Reg)
  | fdbl (rd rs1 : Reg)
  | fmul (rd rs1 rs2 : Reg)
  | fsqr (rd rs1 : Reg)
  | tomont (rd rs1 : Reg)
  | frommont (rd rs1 : Reg)
  | fpow (rd rs1 rs2 : Reg)
  | finv (rd rs1 : Reg)
  | fleg (rd rs1 : Reg)
  | fsqrt (rd rs1 : Reg)
  | frand (rd : Reg)
  deriving DecidableEq, Repr

/-- The element register a command may write, for the formats that have an RD operand
(30_encoding.md R102). -/
def Instr.dest : Instr → Option Reg
  | .nop => none
  | .derive => none
  | .genchk _ => none
  | .ldc rd _ => some rd
  | .mov rd _ => some rd
  | .wcmp _ _ => none
  | .wadd rd _ _ => some rd
  | .wsub rd _ _ => some rd
  | .wshr1 rd _ => some rd
  | .wbitlen rd _ => some rd
  | .wisz _ => none
  | .fadd rd _ _ => some rd
  | .fsub rd _ _ => some rd
  | .fneg rd _ => some rd
  | .fdbl rd _ => some rd
  | .fmul rd _ _ => some rd
  | .fsqr rd _ => some rd
  | .tomont rd _ => some rd
  | .frommont rd _ => some rd
  | .fpow rd _ _ => some rd
  | .finv rd _ => some rd
  | .fleg rd _ => some rd
  | .fsqrt rd _ => some rd
  | .frand rd => some rd

/-- Whether a command needs the parameter file (60_exceptions.md R309): every one but NOP, DERIVE, MOV and
the six WordVector commands. -/
def Instr.needsParams : Instr → Bool
  | .nop => false
  | .derive => false
  | .genchk _ => true
  | .ldc _ _ => true
  | .mov _ _ => false
  | .wcmp _ _ => false
  | .wadd _ _ _ => false
  | .wsub _ _ _ => false
  | .wshr1 _ _ => false
  | .wbitlen _ _ => false
  | .wisz _ => false
  | .fadd _ _ _ => true
  | .fsub _ _ _ => true
  | .fneg _ _ => true
  | .fdbl _ _ => true
  | .fmul _ _ _ => true
  | .fsqr _ _ => true
  | .tomont _ _ => true
  | .frommont _ _ => true
  | .fpow _ _ _ => true
  | .finv _ _ => true
  | .fleg _ _ => true
  | .fsqrt _ _ => true
  | .frand _ => true

/-- The field operands of a command, in the order they are checked (60_exceptions.md R310): the registers
that must hold a reduced value. Every other source register is a raw integer. -/
def Instr.fieldOperands : Instr → List Reg
  | .nop => []
  | .derive => []
  | .genchk _ => []
  | .ldc _ _ => []
  | .mov _ _ => []
  | .wcmp _ _ => []
  | .wadd _ _ _ => []
  | .wsub _ _ _ => []
  | .wshr1 _ _ => []
  | .wbitlen _ _ => []
  | .wisz _ => []
  | .fadd _ rs1 rs2 => [rs1, rs2]
  | .fsub _ rs1 rs2 => [rs1, rs2]
  | .fneg _ rs1 => [rs1]
  | .fdbl _ rs1 => [rs1]
  | .fmul _ rs1 rs2 => [rs1, rs2]
  | .fsqr _ rs1 => [rs1]
  | .tomont _ rs1 => [rs1]
  | .frommont _ rs1 => [rs1]
  | .fpow _ rs1 _ => [rs1]
  | .finv _ rs1 => [rs1]
  | .fleg _ rs1 => [rs1]
  | .fsqrt _ rs1 => [rs1]
  | .frand _ => []

/-! The pseudo-instructions of 30_encoding.md R114: each is another spelling of one command. -/

/-- `FEQ rs1, rs2`: field equality, read from FLAGS.Z. -/
def Instr.feq (rs1 rs2 : Reg) : Instr := .wcmp rs1 rs2
/-- `FISZ rs1`: field is-zero, read from FLAGS.Z. -/
def Instr.fisz (rs1 : Reg) : Instr := .wisz rs1
/-- `FONE rd`: load `one`. -/
def Instr.fone (rd : Reg) : Instr := .ldc rd 1
/-- `FZERO rd`: load `zero`. -/
def Instr.fzero (rd : Reg) : Instr := .ldc rd 13
/-- `FGEN rd`: load the generator. -/
def Instr.fgen (rd : Reg) : Instr := .ldc rd 3
/-- `FROOT rd`: load the two-adic root of unity. -/
def Instr.froot (rd : Reg) : Instr := .ldc rd 7

end Sys2Proof
end

