-- ==== Sys2Proof/WellFormed.lean ====
section
/-! DEFINITION. Which terms of Instr are commands of the MFE. A register field may hold any of its 16 values
(30_encoding.md R103), so the one check is LDC's parameter index: "Legal values are 0 to 13; 14 and 15 are
illegal" (R104). -/

namespace Sys2Proof

/-- The command has an encoding that decodes to it (30_encoding.md R104, R107). -/
def Instr.wellFormed : Instr → Bool
  | .nop => true
  | .derive => true
  | .genchk _ => true
  | .ldc _ k => decide (k.val < 14)
  | .mov _ _ => true
  | .wcmp _ _ => true
  | .wadd _ _ _ => true
  | .wsub _ _ _ => true
  | .wshr1 _ _ => true
  | .wbitlen _ _ => true
  | .wisz _ => true
  | .fadd _ _ _ => true
  | .fsub _ _ _ => true
  | .fneg _ _ => true
  | .fdbl _ _ => true
  | .fmul _ _ _ => true
  | .fsqr _ _ => true
  | .tomont _ _ => true
  | .frommont _ _ => true
  | .fpow _ _ _ => true
  | .finv _ _ => true
  | .fleg _ _ => true
  | .fsqrt _ _ => true
  | .frand _ => true

end Sys2Proof
end

