-- ==== Sys2Proof/Decode.lean ====
section
/-! DEFINITION. Decoding and encoding of command words (30_encoding.md R100 to R112). -/

namespace Sys2Proof

/-- Why a word is illegal (30_encoding.md R107). All of them complete with the same code, ILLEGAL_COMMAND. -/
inductive DecodeError where
  /-- c[31:20] is not zero. -/
  | reservedBits
  /-- c[7:0] is no OP of the opcode map. -/
  | unassignedOpcode
  /-- RD is not zero in a format without a destination. -/
  | nonzeroRd
  /-- RS1 is not zero in a format without a first source. -/
  | nonzeroRs1
  /-- RS2/K is not zero in a format without a second source or index. -/
  | nonzeroRs2
  /-- LDC with K = 14 or 15. -/
  | illegalConstIndex
  deriving DecidableEq, Repr

/-- The formats of 30_encoding.md R102. -/
inductive Format where
  | Z | D | S | SS | DS | DSS | DK
  deriving DecidableEq, Repr

/-- The format has an RD operand. -/
def Format.hasRd : Format → Bool
  | .Z => false | .D => true | .S => false | .SS => false | .DS => true | .DSS => true | .DK => true

/-- The format has an RS1 operand. -/
def Format.hasRs1 : Format → Bool
  | .Z => false | .D => false | .S => true | .SS => true | .DS => true | .DSS => true | .DK => false

/-- The format uses the RS2/K field. -/
def Format.hasRs2 : Format → Bool
  | .Z => false | .D => false | .S => false | .SS => true | .DS => false | .DSS => true | .DK => true

/-- A row of the opcode map: its OP value, its format, and the command its operand fields make. -/
structure OpRow where
  op     : Nat
  format : Format
  make   : Reg → Reg → Reg → Instr

/-- The complete opcode map (30_encoding.md R106). -/
def opMap : List OpRow :=
  [ ⟨0x00, .Z,   fun _ _ _ => .nop⟩,
    ⟨0x01, .Z,   fun _ _ _ => .derive⟩,
    ⟨0x02, .S,   fun _ rs1 _ => .genchk rs1⟩,
    ⟨0x03, .DK,  fun rd _ k => .ldc rd k⟩,
    ⟨0x04, .DS,  fun rd rs1 _ => .mov rd rs1⟩ ] ++
  [ ⟨0x10, .SS,  fun _ rs1 rs2 => .wcmp rs1 rs2⟩,
    ⟨0x11, .DSS, fun rd rs1 rs2 => .wadd rd rs1 rs2⟩,
    ⟨0x12, .DSS, fun rd rs1 rs2 => .wsub rd rs1 rs2⟩,
    ⟨0x13, .DS,  fun rd rs1 _ => .wshr1 rd rs1⟩,
    ⟨0x14, .DS,  fun rd rs1 _ => .wbitlen rd rs1⟩,
    ⟨0x15, .S,   fun _ rs1 _ => .wisz rs1⟩ ] ++
  [ ⟨0x20, .DSS, fun rd rs1 rs2 => .fadd rd rs1 rs2⟩,
    ⟨0x21, .DSS, fun rd rs1 rs2 => .fsub rd rs1 rs2⟩,
    ⟨0x22, .DS,  fun rd rs1 _ => .fneg rd rs1⟩,
    ⟨0x23, .DS,  fun rd rs1 _ => .fdbl rd rs1⟩,
    ⟨0x24, .DSS, fun rd rs1 rs2 => .fmul rd rs1 rs2⟩,
    ⟨0x25, .DS,  fun rd rs1 _ => .fsqr rd rs1⟩,
    ⟨0x26, .DS,  fun rd rs1 _ => .tomont rd rs1⟩,
    ⟨0x27, .DS,  fun rd rs1 _ => .frommont rd rs1⟩ ] ++
  [ ⟨0x30, .DSS, fun rd rs1 rs2 => .fpow rd rs1 rs2⟩,
    ⟨0x31, .DS,  fun rd rs1 _ => .finv rd rs1⟩,
    ⟨0x32, .DS,  fun rd rs1 _ => .fleg rd rs1⟩,
    ⟨0x33, .DS,  fun rd rs1 _ => .fsqrt rd rs1⟩,
    ⟨0x38, .D,   fun rd _ _ => .frand rd⟩ ]

/-- The row of an OP value, if it has one. -/
def findOp (op : Nat) : Option OpRow := opMap.find? (fun row => row.op == op)

/-! The fields of a command word c (30_encoding.md R101). -/

/-- OP = c[7:0]. -/
def opField (c : CmdWord) : Nat := c.toNat % 2 ^ 8
/-- RD = c[11:8]. -/
def rdField (c : CmdWord) : Reg := ⟨c.toNat / 2 ^ 8 % 16, Nat.mod_lt _ (by decide)⟩
/-- RS1 = c[15:12]. -/
def rs1Field (c : CmdWord) : Reg := ⟨c.toNat / 2 ^ 12 % 16, Nat.mod_lt _ (by decide)⟩
/-- RS2/K = c[19:16]. -/
def rs2Field (c : CmdWord) : Reg := ⟨c.toNat / 2 ^ 16 % 16, Nat.mod_lt _ (by decide)⟩
/-- RES = c[31:20]. -/
def resField (c : CmdWord) : Nat := c.toNat / 2 ^ 20

/-- Decoding (30_encoding.md R109), total on every word (R110). -/
def decode (c : CmdWord) : Except DecodeError Instr :=
  if resField c ≠ 0 then .error .reservedBits else
  match findOp (opField c) with
  | none => .error .unassignedOpcode
  | some row =>
    if !row.format.hasRd && rdField c ≠ 0 then .error .nonzeroRd
    else if !row.format.hasRs1 && rs1Field c ≠ 0 then .error .nonzeroRs1
    else if !row.format.hasRs2 && rs2Field c ≠ 0 then .error .nonzeroRs2
    else if row.format = .DK && 14 ≤ (rs2Field c).val then .error .illegalConstIndex
    else .ok (row.make (rdField c) (rs1Field c) (rs2Field c))

/-- The word with the given fields (30_encoding.md R111); the fields do not overlap, so or is a sum. -/
def assemble (op : Nat) (rd rs1 rs2 : Reg) : CmdWord :=
  BitVec.ofNat 32 (op + rd.val * 2 ^ 8 + rs1.val * 2 ^ 12 + rs2.val * 2 ^ 16)

/-- The command word of a command: its OP value and fields, unused fields zero (30_encoding.md R102, R106,
R111). -/
def encode : Instr → CmdWord
  | .nop => assemble 0x00 0 0 0
  | .derive => assemble 0x01 0 0 0
  | .genchk rs1 => assemble 0x02 0 rs1 0
  | .ldc rd k => assemble 0x03 rd 0 k
  | .mov rd rs1 => assemble 0x04 rd rs1 0
  | .wcmp rs1 rs2 => assemble 0x10 0 rs1 rs2
  | .wadd rd rs1 rs2 => assemble 0x11 rd rs1 rs2
  | .wsub rd rs1 rs2 => assemble 0x12 rd rs1 rs2
  | .wshr1 rd rs1 => assemble 0x13 rd rs1 0
  | .wbitlen rd rs1 => assemble 0x14 rd rs1 0
  | .wisz rs1 => assemble 0x15 0 rs1 0
  | .fadd rd rs1 rs2 => assemble 0x20 rd rs1 rs2
  | .fsub rd rs1 rs2 => assemble 0x21 rd rs1 rs2
  | .fneg rd rs1 => assemble 0x22 rd rs1 0
  | .fdbl rd rs1 => assemble 0x23 rd rs1 0
  | .fmul rd rs1 rs2 => assemble 0x24 rd rs1 rs2
  | .fsqr rd rs1 => assemble 0x25 rd rs1 0
  | .tomont rd rs1 => assemble 0x26 rd rs1 0
  | .frommont rd rs1 => assemble 0x27 rd rs1 0
  | .fpow rd rs1 rs2 => assemble 0x30 rd rs1 rs2
  | .finv rd rs1 => assemble 0x31 rd rs1 0
  | .fleg rd rs1 => assemble 0x32 rd rs1 0
  | .fsqrt rd rs1 => assemble 0x33 rd rs1 0
  | .frand rd => assemble 0x38 rd 0 0

/-- What the decoder reads from an opcode-table word of `nbits` bits: a command is one 32-bit word
(30_encoding.md R100), so the bits above `nbits` are 0 and a longer word is none of this machine's. -/
def decodeTableWord (nbits w : Nat) : Option Instr :=
  if 32 < nbits then none
  else
    match decode (BitVec.ofNat 32 (w % 2 ^ nbits)) with
    | .ok i => some i
    | .error _ => none

end Sys2Proof
end

