-- ==== Sys2Proof/Config.lean ====
section
/-! DEFINITION. What is fixed for one block (the word count N) and the values the spec leaves open. -/

namespace Sys2Proof

/-- The build-time parameter of a block: N − 1, so that N runs over its legal values 1 to 16
(00_scope.md R9). No step writes it. -/
structure Config where
  extraWords : Fin 16
  deriving DecidableEq, Repr

/-- N, the number of 64-bit words in an element-width register (00_scope.md R9). -/
def Config.n (c : Config) : Nat := c.extraWords.val + 1

/-- W = 64·N, the element width in bits (00_scope.md R10). -/
def Config.w (c : Config) : Nat := 64 * c.n

/-- FREE VALUE: RNG's answer to its request number `i`, where State has not settled it. "A model takes each
answer as a free draw under no law" (45_sampling_and_moves.md R271). Log entry 4. -/
opaque Config.rngAnswer : Nat → Word

/-- FREE VALUE: what the `i`-th data read in the busy window returns, "an unspecified 64-bit value"
(20_memory.md R84). Log entry 5. -/
opaque Config.busyRead : Nat → Word

end Sys2Proof
end

