-- ==== Sys2Proof/Machine/State.lean ====
section
/-! DEFINITION. The state of one MFE (10_state.md R30) and of the outside world that drives it, as plain
data; the reasons a step can stop; the state after reset (70_reset_and_hazards.md R340). -/

namespace Sys2Proof.Machine

/-- Why the machine stops. There is no such reason: every error is a code in STATUS and the machine goes on
(60_exceptions.md R303, R317), so nobody raises a fault and the type is empty. -/
inductive Fault where
  deriving DecidableEq, Repr

/-- Why a command has no meaning in the model. -/
inductive Refusal where
  /-- Raised by an arm of `exec` whose command is not modelled yet; no arm of this model raises it. Safe: a
  run that stops proves nothing about the machine. -/
  | notModelled (mnemonic : String)
  deriving DecidableEq, Repr

/-- The error codes of STATUS.ECODE (60_exceptions.md R305); codes 7 to 15 are never produced. -/
inductive ErrorCode where
  | none
  | invalidModulus
  | undefinedInverse
  | noSquareRoot
  | illegalCommand
  | paramsNotValid
  | unreducedOperand
  deriving DecidableEq, Repr

/-- The parameter file, ModulusParameters (10_state.md R38): eight W-bit registers, k = 0 to 7, and five
64-bit ones, k = 8 to 12. W-bit values are integers in [0, 2^W) (00_scope.md R10; log entry 2). -/
structure Params where
  modulus              : Nat
  r                    : Nat
  r2                   : Nat
  generator            : Nat
  oddFactor            : Nat
  oddFactorMinusOneHalf : Nat
  modulusMinusOneHalf  : Nat
  twoAdicRoot          : Nat
  inv                  : Word
  modulusBits          : Word
  capacity             : Word
  shaveBits            : Word
  twoAdicity           : Word
  deriving DecidableEq, Repr

/-- The parameter file when PV = 0 (10_state.md R37): every register zero. -/
def Params.zero : Params :=
  { modulus := 0, r := 0, r2 := 0, generator := 0, oddFactor := 0, oddFactorMinusOneHalf := 0,
    modulusMinusOneHalf := 0, twoAdicRoot := 0, inv := 0, modulusBits := 0, capacity := 0,
    shaveBits := 0, twoAdicity := 0 }

/-- FLAGS (10_state.md R42). Its reserved bits read as zero and cannot be written, so they are no data. -/
structure Flags where
  c  : Bool
  z  : Bool
  lt : Bool
  gt : Bool
  deriving DecidableEq, Repr

/-- STATUS (10_state.md R45). Its reserved bits read as zero and ignore writes, so they are no data. -/
structure Status where
  busy   : Bool
  pv     : Bool
  err    : Bool
  ovr    : Bool
  badacc : Bool
  ecode  : ErrorCode
  deriving DecidableEq, Repr

/-- What the outside world does next, and when the ENGINE moves between (20_memory.md R85): a HOST read or
write of `width` bytes at a byte offset, a step of the ENGINE, the reset input. Log entry 3. -/
inductive Event where
  | engine
  | read (width : Nat) (offset : Offset)
  | write (width : Nat) (offset : Offset) (value : Word)
  | reset
  deriving DecidableEq, Repr

/-- RNG as FRAND sees it (45_sampling_and_moves.md R271): the answers that are settled, oldest request first,
and the number of requests answered so far, which numbers the free values given past them. Log entry 4. -/
structure Rng where
  answers : List Word
  drawn   : Nat
  deriving DecidableEq, Repr

/-- One MFE and the world around it. `cfg` is the block's build-time N; `e` to `pending` are the
architectural state of 10_state.md R30 (ID is a constant and CMD holds nothing); `agenda`, `rng`, `busyReads`
and `readData` are the MODEL's own fields for the outside world (log entries 3 to 6). -/
structure State where
  cfg       : Config
  e         : Vector Nat 16
  modIn     : Nat
  genIn     : Nat
  params    : Params
  flags     : Flags
  status    : Status
  cmdCount  : Word
  pending   : CmdWord
  agenda    : List Event
  rng       : Rng
  busyReads : Nat
  readData  : Word
  deriving DecidableEq, Repr

/-- The reset values of 70_reset_and_hazards.md R340 in a block of configuration `c`, with the outside world
as `agenda`, `rng`, `busyReads` and `readData` say (reset does not reach it, R343; log entry 8). -/
def State.afterReset (c : Config) (agenda : List Event) (rng : Rng) (busyReads : Nat)
    (readData : Word) : State :=
  { cfg := c
    e := Vector.replicate 16 0
    modIn := 0
    genIn := 0
    params := Params.zero
    flags := { c := false, z := false, lt := false, gt := false }
    status := { busy := false, pv := false, err := false, ovr := false, badacc := false, ecode := .none }
    cmdCount := 0
    pending := 0
    agenda := agenda
    rng := rng
    busyReads := busyReads
    readData := readData }

/-- A block of configuration `c` right after reset, with nothing going on around it. -/
def State.resetOf (c : Config) : State := State.afterReset c [] { answers := [], drawn := 0 } 0 0

/-- The machine right after reset. DESIGN CHOICE: N = 1 (log entry 1); `State.resetOf` is the same for every
legal N. -/
def State.reset : State := State.resetOf { extraWords := 0 }

end Sys2Proof.Machine
end

