-- ==== Sys2Proof/Machine/Ops.lean ====
section
/-! DEFINITION. The named operations over the state: one setter per field (the only record updates of the
model), reading and writing a register or one word of it, the completion of a command with and without an
error, RNG's answers, and the integer helpers of 00_scope.md R16 and R18. -/

namespace Sys2Proof.Machine

/-! ## Integers (00_scope.md R16, R18) -/

/-- `word_j(x) = x[64j+63 : 64j]` (00_scope.md R16). -/
def wordOf (x j : Nat) : Nat := x / 2 ^ (64 * j) % 2 ^ 64

/-- `x` with its word `j` replaced by `v` (20_memory.md R75). -/
def withWord (x j : Nat) (v : Word) : Nat :=
  x % 2 ^ (64 * j) + v.toNat * 2 ^ (64 * j) + x / 2 ^ (64 * (j + 1)) * 2 ^ (64 * (j + 1))

/-- The integer of a list of words, least significant first: `sum word[j]·2^(64j)` (00_scope.md R16). -/
def valOfWords : List Word → Nat
  | [] => 0
  | v :: rest => v.toNat + 2 ^ 64 * valOfWords rest

/-- `bitlen(a)`: the least k with a < 2^k (00_scope.md R18). -/
def bitlen (a : Nat) : Nat := if a = 0 then 0 else Nat.log2 a + 1

/-- `v2` with a bound on the number of halvings. -/
def v2Upto : Nat → Nat → Nat
  | 0, _ => 0
  | fuel + 1, a => if a % 2 = 0 then v2Upto fuel (a / 2) + 1 else 0

/-- `v2(a)` for a > 0: the largest k with 2^k dividing a (00_scope.md R18). -/
def v2 (a : Nat) : Nat := v2Upto (bitlen a) a

/-- `b^(e >> k)`, to `b^(e mod ...)`: the `k` low bits of `e`, most significant first, appended to `acc` by
square and multiply modulo `m`. -/
def powModBits (m b e : Nat) : Nat → Nat → Nat
  | 0, acc => acc
  | k + 1, acc =>
    powModBits m b e k (if e.testBit k then acc * acc % m * b % m else acc * acc % m)

/-- `b^e mod m` (00_scope.md R18), computed so that it can be evaluated (log entry 14). -/
def powMod (m b e : Nat) : Nat := powModBits m b e (bitlen e) (1 % m)

/-! ## One setter per field -/

namespace State

def setE (s : State) (r : Reg) (v : Nat) : State := { s with e := s.e.set r.val v r.isLt }
def setModIn (s : State) (v : Nat) : State := { s with modIn := v }
def setGenIn (s : State) (v : Nat) : State := { s with genIn := v }
def setParams (s : State) (p : Params) : State := { s with params := p }
def setFlags (s : State) (f : Flags) : State := { s with flags := f }
def setStatus (s : State) (st : Status) : State := { s with status := st }
def setCmdCount (s : State) (v : Word) : State := { s with cmdCount := v }
def setPending (s : State) (c : CmdWord) : State := { s with pending := c }
def setAgenda (s : State) (l : List Event) : State := { s with agenda := l }
def setRng (s : State) (r : Rng) : State := { s with rng := r }
def setBusyReads (s : State) (n : Nat) : State := { s with busyReads := n }
def setReadData (s : State) (v : Word) : State := { s with readData := v }

/-! ## Registers -/

/-- `val(E[r])` (10_state.md R31). No register is hardwired or aliased. -/
def reg (s : State) (r : Reg) : Nat := s.e[r.val]

/-- The parameter file written whole together with PV (41_parameters.md R166). -/
def loadParams (s : State) (p : Params) : State :=
  (s.setParams p).setStatus { s.status with pv := true }

/-- Every parameter register zero and PV = 0 (41_parameters.md R167). -/
def clearParams (s : State) : State :=
  (s.setParams Params.zero).setStatus { s.status with pv := false }

/-! ## Completion of a command (60_exceptions.md R302) -/

/-- A command that succeeded, its own writes already in `s`: ECODE <- 0, CMDCOUNT + 1, BUSY <- 0. ERR stays
as it was (60_exceptions.md R302). -/
def succeed (s : State) : State :=
  (s.setStatus { s.status with busy := false, ecode := .none }).setCmdCount (s.cmdCount + 1)

/-- TAKING AN ERROR: a command that ended with code `c` wrote nothing of its own. INVALID_MODULUS clears the
parameter file (60_exceptions.md R307); then ECODE <- c, ERR <- 1, CMDCOUNT + 1, BUSY <- 0 (R302). There is no
trap entry: nothing else is saved or changed (R306, R317). -/
def fail (s : State) (c : ErrorCode) : State :=
  let t := if c = .invalidModulus then s.clearParams else s
  (t.setStatus { t.status with busy := false, err := true, ecode := c }).setCmdCount (t.cmdCount + 1)

/-- Completion with the result of a command's body: the state with the command's own writes, or the code of
its first `raise` (00_scope.md R19). -/
def finish (s : State) (result : Except ErrorCode State) : State :=
  match result with
  | .ok t => t.succeed
  | .error c => s.fail c

/-- The HOST's acknowledge of an error, the nearest thing to a trap return (60_exceptions.md R318): a write of
`v` to STATUS clears ERR, OVR and BADACC where v has a 1 in bits 2, 3 and 4, and changes nothing else
(10_state.md R45). -/
def ackStatus (s : State) (v : Word) : State :=
  s.setStatus { s.status with
    err := s.status.err && !v.getLsbD 2
    ovr := s.status.ovr && !v.getLsbD 3
    badacc := s.status.badacc && !v.getLsbD 4 }

/-- `STATUS.BADACC <- 1` (20_memory.md R80). -/
def noteBadAccess (s : State) : State := s.setStatus { s.status with badacc := true }

/-- `STATUS.OVR <- 1` (20_memory.md R84). -/
def noteOverrun (s : State) : State := s.setStatus { s.status with ovr := true }

/-- An accepted write of `v` to CMD: PENDING <- v[31:0], BUSY <- 1 (10_state.md R49). -/
def acceptCommand (s : State) (v : Word) : State :=
  (s.setPending (v.setWidth 32)).setStatus { s.status with busy := true }

/-- The reset input (70_reset_and_hazards.md R341): every item of R340 gets its reset value in one step; a
command in flight is abandoned; the configuration and the outside world are not reset (R343, log entry 8). -/
def takeReset (s : State) : State :=
  State.afterReset s.cfg s.agenda s.rng s.busyReads s.readData

end State

/-! ## RNG (45_sampling_and_moves.md R271) -/

/-- `draw64()`: the answer to the next request. -/
def Rng.draw (r : Rng) : Word × Rng :=
  match r.answers with
  | a :: rest => (a, { answers := rest, drawn := r.drawn + 1 })
  | [] => (Config.rngAnswer r.drawn, { answers := [], drawn := r.drawn + 1 })

/-- `k` requests one after the other, the first answer first. -/
def Rng.drawMany : Nat → Rng → List Word × Rng
  | 0, r => ([], r)
  | k + 1, r => ((r.draw).1 :: ((r.draw).2.drawMany k).1, ((r.draw).2.drawMany k).2)

end Sys2Proof.Machine
end

