-- ==== Sys2Proof/Machine/Operands.lean ====
section
/-! DEFINITION. Where a command's operands come from: the field prologue (60_exceptions.md R309, R310) and
LDC's constants (45_sampling_and_moves.md R278). Register operands are read by `State.reg`. -/

namespace Sys2Proof.Machine

/-- The second step of the field prologue: the field operands, in order, against the modulus
(60_exceptions.md R310). -/
def State.checkReduced (s : State) : List Reg → Option ErrorCode
  | [] => none
  | r :: rest => if s.params.modulus ≤ s.reg r then some .unreducedOperand else s.checkReduced rest

/-- The body of a command that needs the parameter file: PARAMS_NOT_VALID where PV = 0 (60_exceptions.md
R309). -/
def State.withParams (s : State) (body : Except ErrorCode State) : Except ErrorCode State :=
  if s.status.pv then body else .error .paramsNotValid

/-- The body of a field command behind its prologue: PV, then the field operands (60_exceptions.md R309,
R310, R314). -/
def State.withField (s : State) (operands : List Reg) (body : Except ErrorCode State) :
    Except ErrorCode State :=
  s.withParams
    (match s.checkReduced operands with
     | some c => .error c
     | none => body)

/-- The wide parameter with index k = 0 to 7 (10_state.md R38). -/
def Params.wide (p : Params) : Fin 8 → Nat
  | 0 => p.modulus
  | 1 => p.r
  | 2 => p.r2
  | 3 => p.generator
  | 4 => p.oddFactor
  | 5 => p.oddFactorMinusOneHalf
  | 6 => p.modulusMinusOneHalf
  | 7 => p.twoAdicRoot

/-- The 64-bit parameter with index k = 8 + i (10_state.md R38). -/
def Params.scalar (p : Params) : Fin 5 → Word
  | 0 => p.inv
  | 1 => p.modulusBits
  | 2 => p.capacity
  | 3 => p.shaveBits
  | 4 => p.twoAdicity

/-- CONST(k) for LDC, k = 0 to 13 (45_sampling_and_moves.md R278). 14 and 15 are no operands of LDC: a word
with them is illegal (30_encoding.md R107). -/
def Params.const (p : Params) (k : ConstIndex) : Option Nat :=
  if h : k.val < 8 then some (p.wide ⟨k.val, h⟩)
  else if h : k.val < 13 then some (p.scalar ⟨k.val - 8, by omega⟩).toNat
  else if k.val = 13 then some 0
  else none

end Sys2Proof.Machine
end

