-- ==== Sys2Proof/Machine/Control.lean ====
section
/-! DEFINITION. The control family: NOP. -/

namespace Sys2Proof.Machine

/-- NOP (45_sampling_and_moves.md R280): no register, flag or parameter changes; it completes like every
command. -/
def execNop (s : State) : Host.Outcome State Fault Refusal := .next (s.finish (.ok s))

end Sys2Proof.Machine
end

