-- ==== Sys2Proof/Machine/ModularAdd.lean ====
section
/-! DEFINITION. The modular adder and subtractor (42_modular_add.md): one conditional subtraction or addition
of the modulus, on reduced operands. The internal carry and borrow are no flags (R190). -/

namespace Sys2Proof.Machine

/-- The adder of 42_modular_add.md R191: `s = a + b`, and `s - m` where that is not negative. -/
def addMod (m a b : Nat) : Nat := if m ≤ a + b then a + b - m else a + b

/-- The subtractor of 42_modular_add.md R192: `d = a - b`, and `d + m` where that is negative. -/
def subMod (m a b : Nat) : Nat := if a < b then a + m - b else a - b

/-- Negation (42_modular_add.md R193): 0 for 0, not m. -/
def negMod (m x : Nat) : Nat := if x = 0 then 0 else m - x

/-- Doubling (42_modular_add.md R194). -/
def dblMod (m x : Nat) : Nat := if m ≤ 2 * x then 2 * x - m else 2 * x

/-- FADD (42_modular_add.md R191). -/
def execFadd (rd rs1 rs2 : Reg) (s : State) : Host.Outcome State Fault Refusal :=
  .next (s.finish (s.withField [rs1, rs2]
    (.ok (s.setE rd (addMod s.params.modulus (s.reg rs1) (s.reg rs2))))))

/-- FSUB (42_modular_add.md R192). -/
def execFsub (rd rs1 rs2 : Reg) (s : State) : Host.Outcome State Fault Refusal :=
  .next (s.finish (s.withField [rs1, rs2]
    (.ok (s.setE rd (subMod s.params.modulus (s.reg rs1) (s.reg rs2))))))

/-- FNEG (42_modular_add.md R193). -/
def execFneg (rd rs1 : Reg) (s : State) : Host.Outcome State Fault Refusal :=
  .next (s.finish (s.withField [rs1] (.ok (s.setE rd (negMod s.params.modulus (s.reg rs1))))))

/-- FDBL (42_modular_add.md R194). -/
def execFdbl (rd rs1 : Reg) (s : State) : Host.Outcome State Fault Refusal :=
  .next (s.finish (s.withField [rs1] (.ok (s.setE rd (dblMod s.params.modulus (s.reg rs1))))))

end Sys2Proof.Machine
end

