-- ==== Sys2Proof/Machine/Moves.lean ====
section
/-! DEFINITION. The moves family: MOV and LDC. -/

namespace Sys2Proof.Machine

/-- MOV (45_sampling_and_moves.md R276): a raw copy; PV and reducedness do not matter. -/
def execMov (rd rs1 : Reg) (s : State) : Host.Outcome State Fault Refusal :=
  .next (s.finish (.ok (s.setE rd (s.reg rs1))))

/-- LDC (45_sampling_and_moves.md R277): `E[rd] <- CONST(k)`, with PV = 1. An index without a constant makes
the word illegal (30_encoding.md R107), which comes before the check of PV (60_exceptions.md R314); decoding
never yields one (log entry 11). -/
def execLdc (rd : Reg) (k : ConstIndex) (s : State) : Host.Outcome State Fault Refusal :=
  .next (s.finish
    (match s.params.const k with
     | none => .error .illegalCommand
     | some v => s.withParams (.ok (s.setE rd v))))

end Sys2Proof.Machine
end

