-- ==== Sys2Proof/Machine/Montgomery.lean ====
section
/-! DEFINITION. The Montgomery multiplier (43_montgomery.md) and the commands that are one product of it. -/

namespace Sys2Proof.Machine

/-- Round `i` of the reduction (43_montgomery.md R210): a multiple of m that cancels word i of t. -/
def montRound (m inv t i : Nat) : Nat :=
  t + (wordOf t i * inv % 2 ^ 64) * m * 2 ^ (64 * i)

/-- Rounds 0 to k − 1, in that order (43_montgomery.md R210). -/
def montRounds (m inv t : Nat) : Nat → Nat
  | 0 => t
  | k + 1 => montRound m inv (montRounds m inv t k) k

/-- `MontMul(a, b)` for N words, modulus m and its word inverse (43_montgomery.md R210): the product, N rounds,
the shift of N words, the conditional subtraction. Numbers are exact, so the accumulator has its carry word. -/
def montMul (n m inv a b : Nat) : Nat :=
  let t := montRounds m inv (a * b) n / 2 ^ (64 * n)
  if m ≤ t then t - m else t

/-- `MontMul` with the block's N and parameter file. -/
def State.mont (s : State) (a b : Nat) : Nat :=
  montMul s.cfg.n s.params.modulus s.params.inv.toNat a b

/-- FMUL (43_montgomery.md R213). -/
def execFmul (rd rs1 rs2 : Reg) (s : State) : Host.Outcome State Fault Refusal :=
  .next (s.finish (s.withField [rs1, rs2] (.ok (s.setE rd (s.mont (s.reg rs1) (s.reg rs2))))))

/-- FSQR (43_montgomery.md R214): the same product with the operand twice. -/
def execFsqr (rd rs1 : Reg) (s : State) : Host.Outcome State Fault Refusal :=
  .next (s.finish (s.withField [rs1] (.ok (s.setE rd (s.mont (s.reg rs1) (s.reg rs1))))))

/-- TOMONT (43_montgomery.md R215): the product with R2; a canonical value of m or more is unreduced. -/
def execTomont (rd rs1 : Reg) (s : State) : Host.Outcome State Fault Refusal :=
  .next (s.finish (s.withField [rs1] (.ok (s.setE rd (s.mont (s.reg rs1) s.params.r2)))))

/-- FROMMONT (43_montgomery.md R216): the product with the integer 1. -/
def execFrommont (rd rs1 : Reg) (s : State) : Host.Outcome State Fault Refusal :=
  .next (s.finish (s.withField [rs1] (.ok (s.setE rd (s.mont (s.reg rs1) 1)))))

end Sys2Proof.Machine
end

