-- ==== Sys2Proof/Machine/Exponentiation.lean ====
section
/-! DEFINITION. Exponentiation, inversion, the Legendre test and the square root (44_exp_inv_sqrt.md). The
loops are written over a product `mul`, which the commands instantiate with MontMul. -/

namespace Sys2Proof.Machine

/-- The scan of the `k` low bits of `e`, most significant first (44_exp_inv_sqrt.md R240). -/
def powBits (mul : Nat → Nat → Nat) (x e : Nat) : Nat → Nat → Nat
  | 0, acc => acc
  | k + 1, acc =>
    powBits mul x e k (if e.testBit k then mul (mul acc acc) x else mul acc acc)

/-- `MontPow(x, e)` with the block's N and parameter file (44_exp_inv_sqrt.md R240): from `one` = P.R, all W
bits of e. -/
def State.montPow (s : State) (x e : Nat) : Nat := powBits s.mont x e s.cfg.w s.params.r

/-- `w` squared `k` times. -/
def squareTimes (mul : Nat → Nat → Nat) : Nat → Nat → Nat
  | 0, w => w
  | k + 1, w => squareTimes mul k (mul w w)

/-- The order search of FSQRT (44_exp_inv_sqrt.md R252): with `left` squarings allowed, `k` done and
c = b^(2^k), the least k' > k with b^(2^k') = one. -/
def findOrder (mul : Nat → Nat → Nat) (one : Nat) : Nat → Nat → Nat → Option Nat
  | 0, _, _ => none
  | left + 1, k, c => if mul c c = one then some (k + 1) else findOrder mul one left (k + 1) (mul c c)

/-- The outer loop of FSQRT (44_exp_inv_sqrt.md R252): none where the order search reaches its bound. `fuel`
bounds v, which every pass makes smaller (R253), so it does not cut a run short (log entry 12). -/
def sqrtLoop (mul : Nat → Nat → Nat) (one : Nat) : Nat → Nat → Nat → Nat → Nat → Option Nat
  | 0, _, _, y, b => if b = one then some y else none
  | fuel + 1, v, z, y, b =>
    if b = one then some y
    else
      match findOrder mul one (v - 1) 0 b with
      | none => none
      | some k =>
        let w := squareTimes mul (v - k - 1) z
        sqrtLoop mul one fuel k (mul w w) (mul y w) (mul b (mul w w))

/-- The root of a nonzero x that passed the Legendre test (44_exp_inv_sqrt.md R252). -/
def State.tonelli (s : State) (x : Nat) : Option Nat :=
  let w := s.montPow x s.params.oddFactorMinusOneHalf
  let y := s.mont x w
  let v := s.params.twoAdicity.toNat
  sqrtLoop s.mont s.params.r v v s.params.twoAdicRoot y (s.mont y w)

/-- FPOW (44_exp_inv_sqrt.md R243): only the base is checked; the exponent is a raw integer. -/
def execFpow (rd rs1 rs2 : Reg) (s : State) : Host.Outcome State Fault Refusal :=
  .next (s.finish (s.withField [rs1] (.ok (s.setE rd (s.montPow (s.reg rs1) (s.reg rs2))))))

/-- FINV (44_exp_inv_sqrt.md R246). -/
def execFinv (rd rs1 : Reg) (s : State) : Host.Outcome State Fault Refusal :=
  .next (s.finish (s.withField [rs1]
    (if s.reg rs1 = 0 then .error .undefinedInverse
     else .ok (s.setE rd (s.montPow (s.reg rs1) (s.params.modulus - 2))))))

/-- FLEG (44_exp_inv_sqrt.md R248). -/
def execFleg (rd rs1 : Reg) (s : State) : Host.Outcome State Fault Refusal :=
  .next (s.finish (s.withField [rs1]
    (.ok (s.setE rd (s.montPow (s.reg rs1) s.params.modulusMinusOneHalf)))))

/-- FSQRT (44_exp_inv_sqrt.md R252): zero for zero, the Legendre test, then Tonelli-Shanks. -/
def execFsqrt (rd rs1 : Reg) (s : State) : Host.Outcome State Fault Refusal :=
  .next (s.finish (s.withField [rs1]
    (if s.reg rs1 = 0 then .ok (s.setE rd 0)
     else if s.montPow (s.reg rs1) s.params.modulusMinusOneHalf ≠ s.params.r then
       .error .noSquareRoot
     else
       match s.tonelli (s.reg rs1) with
       | none => .error .noSquareRoot
       | some y => .ok (s.setE rd y))))

end Sys2Proof.Machine
end

