-- ==== Sys2Proof/Machine/Parameters.lean ====
section
/-! DEFINITION. The parameters family (41_parameters.md): DERIVE and GENCHK. -/

namespace Sys2Proof.Machine

/-- One step of the 2-adic Newton iteration `y <- y·(2 − m0·y) mod 2^64` (41_parameters.md R161). -/
def newtonStep (m0 y : Word) : Word := y * (2 - m0 * y)

/-- INV from word 0 of the modulus (41_parameters.md R161): for odd m0 the unique w with m0·w ≡ −1 mod 2^64,
six iterations from y = 1 and a negation. -/
def invWord (m0 : Word) : Word :=
  0 - newtonStep m0 (newtonStep m0 (newtonStep m0 (newtonStep m0 (newtonStep m0 (newtonStep m0 1)))))

/-- DERIVE's checks of the candidate modulus and generator, in the order of 41_parameters.md R162; all give
the same code. -/
def deriveAccepts (m g : Nat) : Bool :=
  if m % 2 = 0 || m < 3 then false
  else if m ≤ g then false
  else if powMod m g (m - 1) ≠ 1 then false
  else if powMod m g ((m - 1) / 2) = 1 then false
  else true

/-- The parameter set of modulus m and generator g for width W (41_parameters.md R162, 10_state.md R38). -/
def deriveParams (w m g : Nat) : Params :=
  let s := v2 (m - 1)
  let t := (m - 1) >>> s
  { modulus := m
    r := 2 ^ w % m
    r2 := (2 ^ w % m) ^ 2 % m
    generator := g * 2 ^ w % m
    oddFactor := t
    oddFactorMinusOneHalf := (t - 1) / 2
    modulusMinusOneHalf := (m - 1) / 2
    twoAdicRoot := powMod m g t * 2 ^ w % m
    inv := invWord (BitVec.ofNat 64 m)
    modulusBits := BitVec.ofNat 64 (bitlen m)
    capacity := BitVec.ofNat 64 (bitlen m - 1)
    shaveBits := BitVec.ofNat 64 (w - bitlen m)
    twoAdicity := BitVec.ofNat 64 s }

/-- DERIVE (41_parameters.md R162, R166, R167): reads MOD_IN and GEN_IN; needs no parameters. -/
def execDerive (s : State) : Host.Outcome State Fault Refusal :=
  .next (s.finish
    (if deriveAccepts s.modIn s.genIn then .ok (s.loadParams (deriveParams s.cfg.w s.modIn s.genIn))
     else .error .invalidModulus))

/-- GENCHK (41_parameters.md R170, R171): g^e against `one`, e a raw integer; success changes nothing. -/
def execGenchk (rs1 : Reg) (s : State) : Host.Outcome State Fault Refusal :=
  .next (s.finish (s.withParams
    (if s.montPow s.params.generator (s.reg rs1) = s.params.r then .error .invalidModulus else .ok s)))

end Sys2Proof.Machine
end

