-- ==== Sys2Proof/Machine/Sampling.lean ====
section
/-! DEFINITION. The sampling family (45_sampling_and_moves.md): FRAND. -/

namespace Sys2Proof.Machine

/-- The candidate of one attempt (45_sampling_and_moves.md R272, R273): N answers, word 0 first, cut to
MODULUS_BITS bits. -/
def State.candidate (s : State) : Nat :=
  valOfWords (s.rng.drawMany s.cfg.n).1 % 2 ^ s.params.modulusBits.toNat

/-- The state with the N answers of one attempt consumed. -/
def State.afterDraws (s : State) : State := s.setRng (s.rng.drawMany s.cfg.n).2

/-- FRAND (45_sampling_and_moves.md R272): ONE attempt, which is one ENGINE step (60_exceptions.md R300). An
accepted candidate completes the command; a rejected one consumes its answers and leaves the command in
flight, so that the next ENGINE step is another attempt. -/
def execFrand (rd : Reg) (s : State) : Host.Outcome State Fault Refusal :=
  if s.status.pv then
    if s.candidate < s.params.modulus then
      .next (s.afterDraws.finish (.ok (s.afterDraws.setE rd (s.mont s.candidate s.params.r2))))
    else .next s.afterDraws
  else .next (s.finish (.error .paramsNotValid))

end Sys2Proof.Machine
end

