-- ==== Sys2Proof/Machine/Flags.lean ====
section
/-! DEFINITION. FLAGS and STATUS as the words the HOST reads, and every flag computation of the WordVector
commands (10_state.md R42, R43, R45). -/

namespace Sys2Proof.Machine

/-- One bit as an integer. -/
def bit (b : Bool) : Nat := if b then 1 else 0

/-- FLAGS as a 64-bit word: C, Z, LT, GT in bits 0 to 3, the rest zero (10_state.md R42). -/
def Flags.word (f : Flags) : Word :=
  BitVec.ofNat 64 (bit f.c + 2 * bit f.z + 4 * bit f.lt + 8 * bit f.gt)

/-- The number of an error code (60_exceptions.md R305). -/
def ErrorCode.num : ErrorCode → Nat
  | .none => 0
  | .invalidModulus => 1
  | .undefinedInverse => 2
  | .noSquareRoot => 3
  | .illegalCommand => 4
  | .paramsNotValid => 5
  | .unreducedOperand => 6

/-- STATUS as a 64-bit word: BUSY, PV, ERR, OVR, BADACC in bits 0 to 4, ECODE in bits 11:8, the rest zero
(10_state.md R45). -/
def Status.word (st : Status) : Word :=
  BitVec.ofNat 64 (bit st.busy + 2 * bit st.pv + 4 * bit st.err + 8 * bit st.ovr + 16 * bit st.badacc
    + 256 * st.ecode.num)

/-- ID for word count N: the letters MFE, version 1, NREG = 16, N (10_state.md R47). -/
def idWord (n : Nat) : Word :=
  BitVec.ofNat 64 (0x004D4645 * 2 ^ 32 + 0x0001 * 2 ^ 16 + 0x10 * 2 ^ 8 + n)

/-- WADD's C: the carry out of the W-bit sum, `(a + b) >> W` (40_wordvector.md R132), which is 1 exactly when
the sum reaches 2^W. -/
def Flags.afterAdd (f : Flags) (w a b : Nat) : Flags := { f with c := decide (2 ^ w ≤ a + b) }

/-- WSUB's C: the borrow (40_wordvector.md R133). -/
def Flags.afterSub (f : Flags) (a b : Nat) : Flags := { f with c := decide (a < b) }

/-- WCMP's Z, LT, GT (40_wordvector.md R131). -/
def Flags.afterCompare (f : Flags) (a b : Nat) : Flags :=
  { f with z := decide (a = b), lt := decide (a < b), gt := decide (b < a) }

/-- WISZ's Z (40_wordvector.md R136). -/
def Flags.afterIsZero (f : Flags) (a : Nat) : Flags := { f with z := decide (a = 0) }

end Sys2Proof.Machine
end

