-- ==== Sys2Proof/Machine/WordVector.lean ====
section
/-! DEFINITION. The WordVector family (40_wordvector.md): raw W-bit integers, no parameters, no check. -/

namespace Sys2Proof.Machine

/-- WCMP (40_wordvector.md R131). -/
def execWcmp (rs1 rs2 : Reg) (s : State) : Host.Outcome State Fault Refusal :=
  .next (s.finish (.ok (s.setFlags (s.flags.afterCompare (s.reg rs1) (s.reg rs2)))))

/-- WADD (40_wordvector.md R132): the sum modulo 2^W, the carry in C. -/
def execWadd (rd rs1 rs2 : Reg) (s : State) : Host.Outcome State Fault Refusal :=
  .next (s.finish (.ok
    ((s.setE rd ((s.reg rs1 + s.reg rs2) % 2 ^ s.cfg.w)).setFlags
      (s.flags.afterAdd s.cfg.w (s.reg rs1) (s.reg rs2)))))

/-- `(a - b) mod 2^W`, the W-bit wrapped difference (00_scope.md R17). -/
def wrappedSub (w a b : Nat) : Nat := (a + (2 ^ w - b % 2 ^ w)) % 2 ^ w

/-- WSUB (40_wordvector.md R133): the wrapped difference, the borrow in C. -/
def execWsub (rd rs1 rs2 : Reg) (s : State) : Host.Outcome State Fault Refusal :=
  .next (s.finish (.ok
    ((s.setE rd (wrappedSub s.cfg.w (s.reg rs1) (s.reg rs2))).setFlags
      (s.flags.afterSub (s.reg rs1) (s.reg rs2)))))

/-- WSHR1 (40_wordvector.md R134): shift right by one; the bit shifted out is lost. -/
def execWshr1 (rd rs1 : Reg) (s : State) : Host.Outcome State Fault Refusal :=
  .next (s.finish (.ok (s.setE rd (s.reg rs1 >>> 1))))

/-- WBITLEN (40_wordvector.md R135). -/
def execWbitlen (rd rs1 : Reg) (s : State) : Host.Outcome State Fault Refusal :=
  .next (s.finish (.ok (s.setE rd (bitlen (s.reg rs1)))))

/-- WISZ (40_wordvector.md R136). -/
def execWisz (rs1 : Reg) (s : State) : Host.Outcome State Fault Refusal :=
  .next (s.finish (.ok (s.setFlags (s.flags.afterIsZero (s.reg rs1)))))

end Sys2Proof.Machine
end

