-- ==== Sys2Proof/Machine/Dispatch.lean ====
section
/-! DEFINITION. The meaning of every command: one arm per constructor of Instr. -/

namespace Sys2Proof.Machine

-- The ENGINE's step for a decoded command (60_exceptions.md R300): it runs the command and completes it.
def exec (i : Instr) (s : State) : Host.Outcome State Fault Refusal :=
  match i with
  | .nop => Sys2Proof.Machine.execNop s
  | .derive => Sys2Proof.Machine.execDerive s
  | .genchk rs1 => Sys2Proof.Machine.execGenchk rs1 s
  | .ldc rd k => Sys2Proof.Machine.execLdc rd k s
  | .mov rd rs1 => Sys2Proof.Machine.execMov rd rs1 s
  | .wcmp rs1 rs2 => Sys2Proof.Machine.execWcmp rs1 rs2 s
  | .wadd rd rs1 rs2 => Sys2Proof.Machine.execWadd rd rs1 rs2 s
  | .wsub rd rs1 rs2 => Sys2Proof.Machine.execWsub rd rs1 rs2 s
  | .wshr1 rd rs1 => Sys2Proof.Machine.execWshr1 rd rs1 s
  | .wbitlen rd rs1 => Sys2Proof.Machine.execWbitlen rd rs1 s
  | .wisz rs1 => Sys2Proof.Machine.execWisz rs1 s
  | .fadd rd rs1 rs2 => Sys2Proof.Machine.execFadd rd rs1 rs2 s
  | .fsub rd rs1 rs2 => Sys2Proof.Machine.execFsub rd rs1 rs2 s
  | .fneg rd rs1 => Sys2Proof.Machine.execFneg rd rs1 s
  | .fdbl rd rs1 => Sys2Proof.Machine.execFdbl rd rs1 s
  | .fmul rd rs1 rs2 => Sys2Proof.Machine.execFmul rd rs1 rs2 s
  | .fsqr rd rs1 => Sys2Proof.Machine.execFsqr rd rs1 s
  | .tomont rd rs1 => Sys2Proof.Machine.execTomont rd rs1 s
  | .frommont rd rs1 => Sys2Proof.Machine.execFrommont rd rs1 s
  | .fpow rd rs1 rs2 => Sys2Proof.Machine.execFpow rd rs1 rs2 s
  | .finv rd rs1 => Sys2Proof.Machine.execFinv rd rs1 s
  | .fleg rd rs1 => Sys2Proof.Machine.execFleg rd rs1 s
  | .fsqrt rd rs1 => Sys2Proof.Machine.execFsqrt rd rs1 s
  | .frand rd => Sys2Proof.Machine.execFrand rd s

end Sys2Proof.Machine
end

