-- ==== Sys2Proof/Machine/Engine.lean ====
section
/-! DEFINITION. The ENGINE's step (60_exceptions.md R300) and where it takes its command from. -/

namespace Sys2Proof.Machine

/-- The command in flight: PENDING, decoded (30_encoding.md R109). The MFE fetches nothing (10_state.md R46). -/
def State.fetch (s : State) : Except DecodeError Instr := decode s.pending

/-- The ENGINE's step (60_exceptions.md R300). With BUSY = 0 it has none, and nothing changes. An illegal word
completes with ILLEGAL_COMMAND and no other effect (R308). -/
def engineStep (s : State) : Host.Outcome State Fault Refusal :=
  if s.status.busy then
    match s.fetch with
    | .ok i => exec i s
    | .error _ => .next (s.finish (.error .illegalCommand))
  else .next s

end Sys2Proof.Machine
end

