-- ==== Sys2Proof/Machine/HostPort.lean ====
section
/-! DEFINITION. The HOST's port: the register map and the accesses to it (20_memory.md). -/

namespace Sys2Proof.Machine

/-- What a mapped offset names (20_memory.md R74). `j` is a word of an element-width register. -/
inductive Target where
  | id
  | status
  | flags
  | cmd
  | cmdCount
  | scalar (i : Fin 5)
  | wide (k : Fin 8) (j : Nat)
  | modIn (j : Nat)
  | genIn (j : Nat)
  | elem (r : Reg) (j : Nat)
  deriving DecidableEq, Repr

/-- The register map of a block of N words (20_memory.md R74) at an offset that is a multiple of 8; none
where the offset is unmapped, words j ≥ N of a window included (R73). -/
def mapTarget (n : Nat) (offset : Nat) : Option Target :=
  let j := offset % 0x80 / 8
  if offset = 0x0000 then some .id
  else if offset = 0x0008 then some .status
  else if offset = 0x0010 then some .flags
  else if offset = 0x0018 then some .cmd
  else if offset = 0x0020 then some .cmdCount
  else if 0x0028 ≤ offset ∧ offset < 0x0050 then
    some (.scalar ⟨(offset - 0x0028) / 8 % 5, Nat.mod_lt _ (by decide)⟩)
  else if 0x0400 ≤ offset ∧ offset < 0x0800 ∧ j < n then
    some (.wide ⟨(offset - 0x0400) / 0x80 % 8, Nat.mod_lt _ (by decide)⟩ j)
  else if 0x0800 ≤ offset ∧ offset < 0x0880 ∧ j < n then some (.modIn j)
  else if 0x0880 ≤ offset ∧ offset < 0x0900 ∧ j < n then some (.genIn j)
  else if 0x1000 ≤ offset ∧ offset < 0x1800 ∧ j < n then
    some (.elem ⟨(offset - 0x1000) / 0x80 % 16, Nat.mod_lt _ (by decide)⟩ j)
  else none

/-- The offset of a target (20_memory.md R74). -/
def Target.offset : Target → Nat
  | .id => 0x0000
  | .status => 0x0008
  | .flags => 0x0010
  | .cmd => 0x0018
  | .cmdCount => 0x0020
  | .scalar i => 0x0028 + 8 * i.val
  | .wide k j => 0x0400 + 0x80 * k.val + 8 * j
  | .modIn j => 0x0800 + 8 * j
  | .genIn j => 0x0880 + 8 * j
  | .elem r j => 0x1000 + 0x80 * r.val + 8 * j

/-- A register that a HOST write cannot change: writing it is a bad access (20_memory.md R80). -/
def Target.readOnly : Target → Bool
  | .id => true
  | .status => false
  | .flags => true
  | .cmd => false
  | .cmdCount => true
  | .scalar _ => true
  | .wide _ _ => true
  | .modIn _ => false
  | .genIn _ => false
  | .elem _ _ => false

/-- A register whose value a HOST read does not get in the busy window (20_memory.md R84): FLAGS, MOD_IN,
GEN_IN, any element register word, any parameter. -/
def Target.hiddenWhileBusy : Target → Bool
  | .id => false
  | .status => false
  | .flags => true
  | .cmd => false
  | .cmdCount => false
  | .scalar _ => true
  | .wide _ _ => true
  | .modIn _ => true
  | .genIn _ => true
  | .elem _ _ => true

/-- The target of an access of `width` bytes, or none where its width, alignment or offset makes it a bad
access (20_memory.md R71, R80). -/
def accessTarget (n width : Nat) (offset : Offset) : Option Target :=
  if width ≠ 8 ∨ offset.toNat % 8 ≠ 0 then none else mapTarget n offset.toNat

/-- The 64-bit word a target holds (20_memory.md R75, R76). CMD reads as zero. -/
def State.peek (s : State) : Target → Word
  | .id => idWord s.cfg.n
  | .status => s.status.word
  | .flags => s.flags.word
  | .cmd => 0
  | .cmdCount => s.cmdCount
  | .scalar i => s.params.scalar i
  | .wide k j => BitVec.ofNat 64 (wordOf (s.params.wide k) j)
  | .modIn j => BitVec.ofNat 64 (wordOf s.modIn j)
  | .genIn j => BitVec.ofNat 64 (wordOf s.genIn j)
  | .elem r j => BitVec.ofNat 64 (wordOf (s.reg r) j)

/-- A HOST write of `v` to a writable target outside the busy window (20_memory.md R75, R77); a STATUS write
acts the same way in it (R84). Read-only targets never get here. -/
def State.poke (s : State) (t : Target) (v : Word) : State :=
  match t with
  | .id => s
  | .status => s.ackStatus v
  | .flags => s
  | .cmd => s.acceptCommand v
  | .cmdCount => s
  | .scalar _ => s
  | .wide _ _ => s
  | .modIn j => s.setModIn (withWord s.modIn j v)
  | .genIn j => s.setGenIn (withWord s.genIn j v)
  | .elem r j => s.setE r (withWord (s.reg r) j v)

/-- A HOST read (20_memory.md R75, R76, R80, R84). The value goes to `readData`; the only other state a read
touches is BADACC, on a bad access. In the busy window a data read returns a free value. -/
def State.hostRead (s : State) (width : Nat) (offset : Offset) : State :=
  match accessTarget s.cfg.n width offset with
  | none => s.noteBadAccess.setReadData 0
  | some t =>
    if s.status.busy && t.hiddenWhileBusy then
      (s.setReadData (Config.busyRead s.busyReads)).setBusyReads (s.busyReads + 1)
    else s.setReadData (s.peek t)

/-- A HOST write (20_memory.md R75, R77, R80, R84). A bad write changes nothing but BADACC and never sets OVR;
in the busy window every good write but one to STATUS is discarded and sets OVR. -/
def State.hostWrite (s : State) (width : Nat) (offset : Offset) (v : Word) : State :=
  match accessTarget s.cfg.n width offset with
  | none => s.noteBadAccess
  | some t =>
    if t.readOnly then s.noteBadAccess
    else if s.status.busy && t != .status then s.noteOverrun
    else s.poke t v

/-- The byte at a byte offset of the register map (20_memory.md R72: little-endian within the word and
between words), zero at an unmapped offset: a view of the registers, which no access uses (an access moves
whole words, R71). Log entry 18. -/
def State.mapByte (s : State) (a : Nat) : BitVec 8 :=
  match mapTarget s.cfg.n (a / 8 * 8) with
  | none => 0
  | some t => BitVec.ofNat 8 ((s.peek t).toNat / 2 ^ (8 * (a % 8)))

end Sys2Proof.Machine
end

