-- ==== Sys2Proof/Machine/Step.lean ====
section
/-! DEFINITION. One step of the machine and the world around it: the next event, or the ENGINE where no event
is left (20_memory.md R85, 70_reset_and_hazards.md R361). -/

namespace Sys2Proof.Machine

/-- One step. The first event of `agenda` says which agent moves: the HOST, the ENGINE, the reset input. With
no event left the ENGINE goes on (log entry 3). -/
def step (s : State) : Host.Outcome State Fault Refusal :=
  match s.agenda with
  | [] => engineStep s
  | .engine :: rest => engineStep (s.setAgenda rest)
  | .read width offset :: rest => .next ((s.setAgenda rest).hostRead width offset)
  | .write width offset v :: rest => .next ((s.setAgenda rest).hostWrite width offset v)
  | .reset :: rest => .next (s.setAgenda rest).takeReset

/-- `s` with the command word `w` of `nbits` bits in flight and the ENGINE next to move: what an accepted CMD
write leaves (10_state.md R49), so that the very next step runs exactly that command (log entry 3). -/
def State.withFetchWord (s : State) (nbits w : Nat) : State :=
  ((s.setPending (BitVec.ofNat 32 (w % 2 ^ nbits))).setStatus { s.status with busy := true }).setAgenda
    (.engine :: s.agenda)

end Sys2Proof.Machine
end

