-- ==== Sys2Proof/Machine/WordChain.lean ====
section
/-! DEFINITION. The word-level realisations the spec gives beside its integer rules: the carry and borrow chains
and the compare scan of 40_wordvector.md R138 to R140, and the adder and subtractor built from them
(42_modular_add.md R195, R196). No meaning runs them: "an implementation may use any adder that gives the same
result" (R138); that they give it is stated and proved. -/

namespace Sys2Proof.Machine

/-- The carry chain over words 0 to k − 1 (40_wordvector.md R138): the result's words so far, and c_k. -/
def addChain (a b : Nat) : Nat → Nat × Nat
  | 0 => (0, 0)
  | k + 1 =>
    let t := wordOf a k + wordOf b k + (addChain a b k).2
    ((addChain a b k).1 + t % 2 ^ 64 * 2 ^ (64 * k), t / 2 ^ 64)

/-- The borrow chain over words 0 to k − 1 (40_wordvector.md R139): the result's words so far, and b_k. -/
def subChain (a b : Nat) : Nat → Nat × Nat
  | 0 => (0, 0)
  | k + 1 =>
    let t : Int := (wordOf a k : Int) - (wordOf b k : Int) - ((subChain a b k).2 : Int)
    ((subChain a b k).1 + (t % 2 ^ 64).toNat * 2 ^ (64 * k), if t < 0 then 1 else 0)

/-- The compare scan from word k − 1 down to word 0 (40_wordvector.md R140): the first unequal word decides. -/
def compareScan (a b : Nat) : Nat → Ordering
  | 0 => .eq
  | k + 1 =>
    if wordOf a k < wordOf b k then .lt
    else if wordOf b k < wordOf a k then .gt
    else compareScan a b k

/-- The constant-time select of 42_modular_add.md R195: a mask of W ones or zeros, not a branch. -/
def maskSelect (w : Nat) (first : Bool) (x y : Nat) : Nat :=
  let mask := if first then 2 ^ w - 1 else 0
  (x &&& mask) ||| (y &&& (2 ^ w - 1 - mask))

/-- FADD realised (42_modular_add.md R195): the sum with its carry c, then m subtracted from (c, sum) as a
(W+1)-bit value; the difference where that does not borrow, else the sum. -/
def addModChain (n m a b : Nat) : Nat :=
  let sum := addChain a b n
  let diff := subChain sum.1 m n
  maskSelect (64 * n) (decide (diff.2 ≤ sum.2)) diff.1 sum.1

/-- FSUB realised (42_modular_add.md R196): the difference with its borrow, then m added modulo 2^W where it
borrowed. -/
def subModChain (n m a b : Nat) : Nat :=
  let diff := subChain a b n
  maskSelect (64 * n) (decide (diff.2 = 1)) ((diff.1 + m) % 2 ^ (64 * n)) diff.1

end Sys2Proof.Machine
end

