-- ==== Sys2Proof/Safety.lean ====
section
/-! DEFINITION. What holds of every state the block can be in: registers of their widths and a parameter file
that is derived whole or zero. The block cannot stop, so a safe run is one whose states meet `State.Inv`. -/

namespace Sys2Proof.Machine

/-- Every element-width register holds a W-bit value (00_scope.md R10). -/
abbrev State.Wf (s : State) : Prop :=
  (∀ r : Reg, s.reg r < 2 ^ s.cfg.w) ∧ s.modIn < 2 ^ s.cfg.w ∧ s.genIn < 2 ^ s.cfg.w ∧
    ∀ k : Fin 8, s.params.wide k < 2 ^ s.cfg.w

/-- The parameter file is "either entirely the derived set of one modulus (PV = 1) or entirely zero (PV = 0)"
(10_state.md R37). -/
def State.ParamsOk (s : State) : Prop :=
  (s.status.pv = false ∧ s.params = Params.zero) ∨
    (s.status.pv = true ∧
      ∃ m g, m < 2 ^ s.cfg.w ∧ deriveAccepts m g = true ∧ s.params = deriveParams s.cfg.w m g)

/-- The invariant of the block. -/
def State.Inv (s : State) : Prop := s.Wf ∧ s.ParamsOk

/-- `mont(x) = x·R mod m` for width W (43_montgomery.md R217). -/
def montForm (w m x : Nat) : Nat := x * 2 ^ w % m

end Sys2Proof.Machine
end

