-- ==== Sys2Proof/Certificates/Slice0/Obligations.lean ====
section
/-! DEFINITION. The statements for the provers. Where a rule of the spec is marked "[derived: …]", the docstring
says so: the clause is the spec's own inference from its other rules. -/

open Sys2Proof Sys2Proof.Machine

/-! ## Encoding -/

/-- 30_encoding.md R106, R111 with R109: a well-formed command's word decodes to it, every operand kept. -/
def Obligations.DecodeOfEncodeIsTheCommand : Prop :=
  ∀ i : Instr, i.wellFormed = true → decode (encode i) = .ok i

/-- 30_encoding.md R109, R111 the other way: a word that decodes is the one word of its command. -/
def Obligations.DecodedWordsReencode : Prop :=
  ∀ (c : CmdWord) (i : Instr), decode c = .ok i → i.wellFormed = true ∧ encode i = c

/-- 30_encoding.md R107: which words are illegal, that an illegal one completes with ILLEGAL_COMMAND and no
other effect, and which OP ranges are unassigned. -/
def Obligations.IllegalWordsAreThese : Prop :=
  (∀ c : CmdWord, (∃ e, decode c = .error e) ↔
    (c.toNat / 2 ^ 20 ≠ 0 ∨
     opField c ∉ [0x00, 0x01, 0x02, 0x03, 0x04, 0x10, 0x11, 0x12, 0x13, 0x14, 0x15, 0x20, 0x21, 0x22, 0x23,
       0x24, 0x25, 0x26, 0x27, 0x30, 0x31, 0x32, 0x33, 0x38] ∨
     (opField c ∈ [0x00, 0x01, 0x02, 0x15, 0x10] ∧ rdField c ≠ 0) ∨
     (opField c ∈ [0x00, 0x01, 0x38, 0x03] ∧ rs1Field c ≠ 0) ∨
     (opField c ∈ [0x00, 0x01, 0x38, 0x02, 0x15, 0x04, 0x13, 0x14, 0x22, 0x23, 0x25, 0x26, 0x27, 0x31, 0x32,
       0x33] ∧ rs2Field c ≠ 0) ∨
     (opField c = 0x03 ∧ 14 ≤ (rs2Field c).val))) ∧
  (∀ op < 256, findOp op = none ↔
    (0x05 ≤ op ∧ op ≤ 0x0F) ∨ (0x16 ≤ op ∧ op ≤ 0x1F) ∨ (0x28 ≤ op ∧ op ≤ 0x2F) ∨ (0x34 ≤ op ∧ op ≤ 0x37) ∨
      (0x39 ≤ op ∧ op ≤ 0xFF)) ∧
  ∀ (s : State) (l : List Event) (e : DecodeError), s.agenda = .engine :: l → s.status.busy = true →
    decode s.pending = .error e →
    step s = .next (((s.setAgenda l).setStatus
      { s.status with busy := false, err := true, ecode := .illegalCommand }).setCmdCount (s.cmdCount + 1))

/-- The words of 30_encoding.md R112, written out there, and three of 95_test_vectors.md section 2. -/
def Obligations.SpecWordsDecode : Prop :=
  decode 0x00010224 = .ok (.fmul 2 0 1) ∧ decode 0x00000026 = .ok (.tomont 0 0) ∧
  decode 0x00010303 = .ok (.ldc 3 1) ∧ decode 0x00054010 = .ok (.wcmp 4 5) ∧
  decode 0x00000001 = .ok .derive ∧ decode 0x00000738 = .ok (.frand 7) ∧
  decode 0x00032130 = .ok (.fpow 1 2 3) ∧ decode 0x00009002 = .ok (.genchk 9) ∧
  decode 0x00000000 = .ok .nop ∧ decode 0x00010220 = .ok (.fadd 2 0 1) ∧
  decode 0x00003404 = .ok (.mov 4 3) ∧ decode 0x00001015 = .ok (.wisz 1)

/-! ## The step -/

/-- 60_exceptions.md R300, 30_encoding.md R109: with BUSY = 1 the ENGINE's step runs the command PENDING decodes
to. The model's choice (log entry 3, DESIGN CHOICE), not the rules': that the ENGINE goes on when the agenda is
empty, and all of withFetchWord, which stands for an accepted CMD write. -/
def Obligations.StepRunsTheCommandInFlight : Prop :=
  (∀ (s : State) (l : List Event) (i : Instr), s.status.busy = true → decode s.pending = .ok i →
    (s.agenda = .engine :: l ∨ s.agenda = [] ∧ l = []) → step s = exec i (s.setAgenda l)) ∧
  ∀ (s : State) (c : CmdWord) (i : Instr), decode c = .ok i →
    step (s.withFetchWord 32 c.toNat) = exec i ((s.setPending c).setStatus { s.status with busy := true })

/-- 60_exceptions.md R300 (an idle ENGINE has no step) and log entry 3 (the model's choice of an agenda): the
step takes the first event. -/
def Obligations.StepTakesTheNextEvent : Prop :=
  ∀ (s : State) (l : List Event),
    (∀ w o, s.agenda = .read w o :: l → step s = .next ((s.setAgenda l).hostRead w o)) ∧
    (∀ w o v, s.agenda = .write w o v :: l → step s = .next ((s.setAgenda l).hostWrite w o v)) ∧
    (s.agenda = .reset :: l → step s = .next (s.setAgenda l).takeReset) ∧
    (s.status.busy = false → s.agenda = .engine :: l → step s = .next (s.setAgenda l)) ∧
    (s.status.busy = false → s.agenda = [] → step s = .next s)

/-- 60_exceptions.md R303, R317: there is no trap; the machine always goes on, whatever the word in flight. Two
cases are the model's choice, not the rules': that FRAND's requests are always answered, so that an attempt is
always a step (log entry 4, DESIGN CHOICE, unsafe for this), and that an idle block with no event left steps to
itself, where R300 gives the ENGINE no step (log entry 3, DESIGN CHOICE). -/
def Obligations.StepNeverStops : Prop := ∀ s : State, ∃ t, step s = .next t

/-- 60_exceptions.md R300, R302, R48: every command but FRAND completes in one ENGINE step. -/
def Obligations.CommandsCompleteInOneStep : Prop :=
  ∀ (i : Instr) (s : State), (∀ rd, i ≠ .frand rd) →
    ∃ t, exec i s = .next t ∧ t.status.busy = false ∧ t.cmdCount = s.cmdCount + 1

/-- 60_exceptions.md R302, 10_state.md R48: what every completion does to BUSY, CMDCOUNT, ERR and ECODE; a
FRAND attempt that is no completion touches RNG's answers only. -/
def Obligations.CompletionBookkeeping : Prop :=
  ∀ (i : Instr) (s t : State), s.status.busy = true → exec i s = .next t →
    (t.status.busy = false ∧ t.cmdCount = s.cmdCount + 1 ∧
      (t.status.ecode = .none → t.status.err = s.status.err) ∧ (t.status.ecode ≠ .none → t.status.err = true)) ∨
    ∃ rd, i = .frand rd ∧ t = s.setRng t.rng

/-- The frame of every command (10_state.md R32, R35, R36, R43, 60_exceptions.md R302): what it leaves as it
was, register by register and byte by byte of the register map. The bytes it may change are those of its
destination register, STATUS, CMDCOUNT, FLAGS (see FlagsWrittenOnlyByFour) and, for DERIVE and GENCHK, the
parameters. The model's choice (DESIGN CHOICE), not the rules': that PENDING keeps its word after a completion
(log entry 7, unsafe for claims about PENDING while BUSY = 0), and the clauses on the model's own agenda, counter
of unspecified reads and read port (log entries 3, 5, 6). -/
def Obligations.CommandFrame : Prop :=
  ∀ (i : Instr) (s t : State), exec i s = .next t →
    (∀ r, i.dest ≠ some r → t.reg r = s.reg r) ∧
    t.cfg = s.cfg ∧ t.modIn = s.modIn ∧ t.genIn = s.genIn ∧ t.pending = s.pending ∧ t.agenda = s.agenda ∧
    t.busyReads = s.busyReads ∧ t.readData = s.readData ∧
    ((∀ rd, i ≠ .frand rd) → t.rng = s.rng) ∧
    (i ≠ .derive → (∀ r, i ≠ .genchk r) → t.params = s.params ∧ t.status.pv = s.status.pv) ∧
    t.status.ovr = s.status.ovr ∧ t.status.badacc = s.status.badacc ∧
    (s.status.err = true → t.status.err = true) ∧
    ∀ a : Nat,
      (∀ r j, mapTarget s.cfg.n (a / 8 * 8) = some (.elem r j) → i.dest ≠ some r) →
      mapTarget s.cfg.n (a / 8 * 8) ≠ some .status → mapTarget s.cfg.n (a / 8 * 8) ≠ some .cmdCount →
      mapTarget s.cfg.n (a / 8 * 8) ≠ some .flags →
      ((i = .derive ∨ ∃ r, i = .genchk r) → (∀ k j, mapTarget s.cfg.n (a / 8 * 8) ≠ some (.wide k j)) ∧
        ∀ k, mapTarget s.cfg.n (a / 8 * 8) ≠ some (.scalar k)) →
      t.mapByte a = s.mapByte a

/-! ## Errors -/

/-- 60_exceptions.md R307: what the completion of the command in flight changes when it ends with an error, an
illegal word included. -/
def Obligations.ErrorsArePrecise : Prop :=
  ∀ s t : State, s.status.busy = true → engineStep s = .next t → t.status.busy = false →
    (t.status.ecode = .invalidModulus → t = ((s.setParams Params.zero).setStatus
      { s.status with busy := false, pv := false, err := true, ecode := .invalidModulus }).setCmdCount
        (s.cmdCount + 1)) ∧
    (t.status.ecode ≠ .none → t.status.ecode ≠ .invalidModulus →
      t = (s.setStatus { s.status with busy := false, err := true, ecode := t.status.ecode }).setCmdCount
        (s.cmdCount + 1))

/-- 60_exceptions.md R309: with PV = 0 the fifteen commands that need the parameter file end with
PARAMS_NOT_VALID, whatever their operands (so it is the first check); with PV = 1, and for every other command,
no command does. -/
def Obligations.ParamsNotValid : Prop :=
  (∀ i : Instr, i.needsParams = true ↔
    (∃ a, i = .genchk a) ∨ (∃ a b, i = .ldc a b) ∨ (∃ a, i = .frand a) ∨ (∃ a b c, i = .fadd a b c) ∨
    (∃ a b c, i = .fsub a b c) ∨ (∃ a b, i = .fneg a b) ∨ (∃ a b, i = .fdbl a b) ∨ (∃ a b c, i = .fmul a b c) ∨
    (∃ a b, i = .fsqr a b) ∨ (∃ a b, i = .tomont a b) ∨ (∃ a b, i = .frommont a b) ∨
    (∃ a b c, i = .fpow a b c) ∨ (∃ a b, i = .finv a b) ∨ (∃ a b, i = .fleg a b) ∨ ∃ a b, i = .fsqrt a b) ∧
  (∀ (i : Instr) (s : State), i.wellFormed = true → i.needsParams = true → s.status.pv = false →
    exec i s = .next (s.fail .paramsNotValid)) ∧
  (∀ s : State, (s.fail .paramsNotValid).status.ecode = .paramsNotValid) ∧
  ∀ (i : Instr) (s t : State), i.needsParams = false ∨ s.status.pv = true → s.status.busy = true →
    exec i s = .next t → t.status.busy = false → t.status.ecode ≠ .paramsNotValid

/-- 60_exceptions.md R310: the field operands of each command; with PV = 1 one of m or more ends the command with
UNREDUCED_OPERAND; with every field operand reduced no command does, so the exponent of FPOW, the operand of
GENCHK and MOV and every WordVector operand are not checked; and PV is checked first. -/
def Obligations.UnreducedOperand : Prop :=
  (∀ a b c : Reg, (Instr.fadd a b c).fieldOperands = [b, c] ∧ (Instr.fsub a b c).fieldOperands = [b, c] ∧
    (Instr.fmul a b c).fieldOperands = [b, c] ∧ (Instr.fneg a b).fieldOperands = [b] ∧
    (Instr.fdbl a b).fieldOperands = [b] ∧ (Instr.fsqr a b).fieldOperands = [b] ∧
    (Instr.tomont a b).fieldOperands = [b] ∧ (Instr.frommont a b).fieldOperands = [b] ∧
    (Instr.finv a b).fieldOperands = [b] ∧ (Instr.fleg a b).fieldOperands = [b] ∧
    (Instr.fsqrt a b).fieldOperands = [b] ∧ (Instr.fpow a b c).fieldOperands = [b] ∧
    (Instr.genchk b).fieldOperands = [] ∧ (Instr.mov a b).fieldOperands = [] ∧
    (Instr.wcmp b c).fieldOperands = [] ∧ (Instr.wadd a b c).fieldOperands = [] ∧
    (Instr.wsub a b c).fieldOperands = [] ∧ (Instr.wshr1 a b).fieldOperands = [] ∧
    (Instr.wbitlen a b).fieldOperands = [] ∧ (Instr.wisz b).fieldOperands = []) ∧
  (∀ (i : Instr) (s : State) (r : Reg), s.status.pv = true → r ∈ i.fieldOperands →
    s.params.modulus ≤ s.reg r → exec i s = .next (s.fail .unreducedOperand)) ∧
  (∀ (i : Instr) (s t : State), s.status.busy = true → (∀ r ∈ i.fieldOperands, s.reg r < s.params.modulus) →
    exec i s = .next t → t.status.busy = false → t.status.ecode ≠ .unreducedOperand) ∧
  ∀ (i : Instr) (s : State), i.fieldOperands ≠ [] → s.status.pv = false →
    exec i s = .next (s.fail .paramsNotValid)

/-! ## What every step keeps -/

/-- 00_scope.md R10, R18: every register keeps to its width, whatever the step. -/
def Obligations.StepKeepsRegisterWidths : Prop :=
  ∀ s t : State, s.Wf → step s = .next t → t.Wf

/-- 10_state.md R36, R37: the parameter file stays the derived set of one modulus with PV = 1, or all zero with
PV = 0, whatever the step (with the widths, which DERIVE's input needs). -/
def Obligations.StepKeepsParameterFile : Prop :=
  ∀ s t : State, s.Inv → step s = .next t → t.Inv

/-- 70_reset_and_hazards.md R340: the state after reset meets the invariant, for every legal N. -/
def Obligations.ResetMeetsTheInvariant : Prop :=
  (∀ c : Config, (State.resetOf c).Inv) ∧ State.reset.Inv

/-- 10_state.md R47: ID, its fields, its offset, its rights, and that no step, reset included, changes it. -/
def Obligations.IdIsConstant : Prop :=
  (∀ c : Config, mapTarget c.n 0x0000 = some .id) ∧ Target.readOnly .id = true ∧
  (∀ s : State, (s.peek .id).toNat / 2 ^ 32 = 0x004D4645 ∧ (s.peek .id).toNat / 2 ^ 16 % 2 ^ 16 = 0x0001 ∧
    (s.peek .id).toNat / 2 ^ 8 % 2 ^ 8 = 0x10 ∧ (s.peek .id).toNat % 2 ^ 8 = s.cfg.n) ∧
  ∀ s t : State, step s = .next t → t.cfg = s.cfg ∧ t.peek .id = s.peek .id

/-- 10_state.md R43: only WADD, WSUB (C), WCMP (Z, LT, GT) and WISZ (Z) write FLAGS, and no command reads
them. -/
def Obligations.FlagsWrittenOnlyByFour : Prop :=
  (∀ (i : Instr) (s t : State), exec i s = .next t →
    ((∃ a b c, i = .wadd a b c ∨ i = .wsub a b c) →
      t.flags.z = s.flags.z ∧ t.flags.lt = s.flags.lt ∧ t.flags.gt = s.flags.gt) ∧
    ((∃ a b, i = .wcmp a b) → t.flags.c = s.flags.c) ∧
    ((∃ a, i = .wisz a) → t.flags.c = s.flags.c ∧ t.flags.lt = s.flags.lt ∧ t.flags.gt = s.flags.gt) ∧
    ((∀ a b c, i ≠ .wadd a b c ∧ i ≠ .wsub a b c) → (∀ a b, i ≠ .wcmp a b) → (∀ a, i ≠ .wisz a) →
      t.flags = s.flags) ∧
    (s.status.busy = true → t.status.busy = false → t.status.ecode ≠ .none → t.flags = s.flags)) ∧
  ∀ (i : Instr) (s t : State) (f : Flags), exec i s = .next t →
    ∃ u, exec i (s.setFlags f) = .next u ∧ u.setFlags t.flags = t

/-- 10_state.md R35, R36, R40: the parameter file and PV change only at reset or when a DERIVE, or a GENCHK that
ends with INVALID_MODULUS, completes; MOD_IN and GEN_IN only at reset or at a HOST write. -/
def Obligations.WhoWritesParametersAndStaging : Prop :=
  ∀ s t : State, step s = .next t →
    (t.params ≠ s.params ∨ t.status.pv ≠ s.status.pv →
      (∃ l, s.agenda = .reset :: l) ∨
      (s.status.busy = true ∧ t.status.busy = false ∧
        (decode s.pending = .ok .derive ∨
          ∃ r, decode s.pending = .ok (.genchk r) ∧ t.status.ecode = .invalidModulus))) ∧
    (t.modIn ≠ s.modIn ∨ t.genIn ≠ s.genIn →
      (∃ l, s.agenda = .reset :: l) ∨ ∃ w o v l, s.agenda = .write w o v :: l)

/-- 10_state.md R48, R50, 60_exceptions.md R301: BUSY stays 1 until the command completes, in the same step that
counts it, or a reset abandons it; BUSY rises only at a HOST write, and CMDCOUNT counts nothing else. -/
def Obligations.BusyUntilCompletion : Prop :=
  ∀ s t : State, step s = .next t →
    (s.status.busy = true →
      (t.status.busy = true ∧ t.cmdCount = s.cmdCount) ∨ (t.status.busy = false ∧ t.cmdCount = s.cmdCount + 1) ∨
      ((∃ l, s.agenda = .reset :: l) ∧ t.status.busy = false ∧ t.cmdCount = 0)) ∧
    (s.status.busy = false →
      (t.cmdCount = s.cmdCount ∨ (∃ l, s.agenda = .reset :: l) ∧ t.cmdCount = 0) ∧
      (t.status.busy = true → ∃ v l, s.agenda = .write 8 0x0018 v :: l))

/-- 70_reset_and_hazards.md R340, R341, R343: the reset input, at any time. -/
def Obligations.ResetInput : Prop :=
  ∀ (s : State) (l : List Event), s.agenda = .reset :: l →
    ∃ t, step s = .next t ∧ (∀ r, t.reg r = 0) ∧ t.modIn = 0 ∧ t.genIn = 0 ∧ t.params = Params.zero ∧
      t.status = { busy := false, pv := false, err := false, ovr := false, badacc := false, ecode := .none } ∧
      t.flags = { c := false, z := false, lt := false, gt := false } ∧ t.cmdCount = 0 ∧ t.cfg = s.cfg ∧
      t.rng = s.rng ∧ t.agenda = l

/-! ## The HOST's port -/

/-- 20_memory.md R73, R74: the offsets of the register map, and that no two aligned offsets name one word. -/
def Obligations.RegisterMapLayout : Prop :=
  ∀ c : Config,
    (∀ o t, o % 8 = 0 → mapTarget c.n o = some t → t.offset = o) ∧
    mapTarget c.n 0x0000 = some .id ∧ mapTarget c.n 0x0008 = some .status ∧
    mapTarget c.n 0x0010 = some .flags ∧ mapTarget c.n 0x0018 = some .cmd ∧
    mapTarget c.n 0x0020 = some .cmdCount ∧
    (∀ (k : Fin 5), mapTarget c.n (0x0028 + 8 * k.val) = some (.scalar k)) ∧
    (∀ (k : Fin 8) (j : Nat), j < 16 → mapTarget c.n (0x0400 + 0x80 * k.val + 8 * j) =
      if j < c.n then some (.wide k j) else none) ∧
    (∀ j, j < 16 → mapTarget c.n (0x0800 + 8 * j) = if j < c.n then some (.modIn j) else none) ∧
    (∀ j, j < 16 → mapTarget c.n (0x0880 + 8 * j) = if j < c.n then some (.genIn j) else none) ∧
    (∀ (r : Reg) (j : Nat), j < 16 → mapTarget c.n (0x1000 + 0x80 * r.val + 8 * j) =
      if j < c.n then some (.elem r j) else none) ∧
    (∀ o, 0x0050 ≤ o ∧ o < 0x0400 ∨ 0x0900 ≤ o ∧ o < 0x1000 ∨ 0x1800 ≤ o → mapTarget c.n o = none)

/-- 20_memory.md R75, R76: what a read outside the busy window returns, and that it changes nothing else. -/
def Obligations.HostReadsReturnTheRegister : Prop :=
  ∀ (s : State) (l : List Event) (o : Offset), s.agenda = .read 8 o :: l → s.status.busy = false →
    (∀ (r : Reg) (j : Nat), j < s.cfg.n → o.toNat = 0x1000 + 0x80 * r.val + 8 * j →
      step s = .next ((s.setAgenda l).setReadData (BitVec.ofNat 64 (s.reg r / 2 ^ (64 * j))))) ∧
    (∀ j, j < s.cfg.n → o.toNat = 0x0800 + 8 * j →
      step s = .next ((s.setAgenda l).setReadData (BitVec.ofNat 64 (s.modIn / 2 ^ (64 * j))))) ∧
    (∀ j, j < s.cfg.n → o.toNat = 0x0880 + 8 * j →
      step s = .next ((s.setAgenda l).setReadData (BitVec.ofNat 64 (s.genIn / 2 ^ (64 * j))))) ∧
    (∀ (k : Fin 8) (j : Nat), j < s.cfg.n → o.toNat = 0x0400 + 0x80 * k.val + 8 * j →
      step s = .next ((s.setAgenda l).setReadData (BitVec.ofNat 64 (s.params.wide k / 2 ^ (64 * j))))) ∧
    (∀ k : Fin 5, o.toNat = 0x0028 + 8 * k.val →
      step s = .next ((s.setAgenda l).setReadData (s.params.scalar k))) ∧
    (o.toNat = 0x0000 → step s = .next ((s.setAgenda l).setReadData (idWord s.cfg.n))) ∧
    (o.toNat = 0x0008 → step s = .next ((s.setAgenda l).setReadData s.status.word)) ∧
    (o.toNat = 0x0010 → step s = .next ((s.setAgenda l).setReadData s.flags.word)) ∧
    (o.toNat = 0x0018 → step s = .next ((s.setAgenda l).setReadData 0)) ∧
    (o.toNat = 0x0020 → step s = .next ((s.setAgenda l).setReadData s.cmdCount))

/-- 20_memory.md R75: a write outside the busy window to a word of an element or staging register replaces that
word (reading it gives the value written), leaves the register's other words, and changes nothing else. -/
def Obligations.HostWritesReplaceOneWord : Prop :=
  ∀ (s : State) (l : List Event) (o : Offset) (v : Word) (j : Nat), s.agenda = .write 8 o v :: l →
    s.status.busy = false → j < s.cfg.n →
    (∀ r : Reg, o.toNat = 0x1000 + 0x80 * r.val + 8 * j →
      ∃ x, step s = .next ((s.setAgenda l).setE r x) ∧ x / 2 ^ (64 * j) % 2 ^ 64 = v.toNat ∧
        ∀ i, i < 64 * j ∨ 64 * j + 64 ≤ i → x.testBit i = (s.reg r).testBit i) ∧
    (o.toNat = 0x0800 + 8 * j →
      ∃ x, step s = .next ((s.setAgenda l).setModIn x) ∧ x / 2 ^ (64 * j) % 2 ^ 64 = v.toNat ∧
        ∀ i, i < 64 * j ∨ 64 * j + 64 ≤ i → x.testBit i = s.modIn.testBit i) ∧
    (o.toNat = 0x0880 + 8 * j →
      ∃ x, step s = .next ((s.setAgenda l).setGenIn x) ∧ x / 2 ^ (64 * j) % 2 ^ 64 = v.toNat ∧
        ∀ i, i < 64 * j ∨ 64 * j + 64 ≤ i → x.testBit i = s.genIn.testBit i)

/-- 20_memory.md R80: the bad accesses, busy window or not: a read returns zero, a write changes nothing, BADACC
is set and nothing else. -/
def Obligations.BadAccessesSetBadaccOnly : Prop :=
  ∀ (s : State) (l : List Event) (w : Nat) (o : Offset),
    (s.agenda = .read w o :: l → w ≠ 8 ∨ o.toNat % 8 ≠ 0 ∨ mapTarget s.cfg.n o.toNat = none →
      step s = .next (((s.setAgenda l).setStatus { s.status with badacc := true }).setReadData 0)) ∧
    ∀ v, s.agenda = .write w o v :: l →
      w ≠ 8 ∨ o.toNat % 8 ≠ 0 ∨ mapTarget s.cfg.n o.toNat = none ∨ o.toNat = 0x0000 ∨ o.toNat = 0x0010 ∨
        o.toNat = 0x0020 ∨ (0x0028 ≤ o.toNat ∧ o.toNat < 0x0050) ∨ (0x0400 ≤ o.toNat ∧ o.toNat < 0x0800) →
      step s = .next ((s.setAgenda l).setStatus { s.status with badacc := true })

/-- 20_memory.md R84: the busy window. An unspecified value is some value; the model's counter of such reads
(log entry 5) is the only other thing such a read touches. Bad accesses set BADACC and leave OVR. -/
def Obligations.BusyWindow : Prop :=
  (∀ (s : State) (l : List Event) (o : Offset) (t : Target), s.status.busy = true → o.toNat % 8 = 0 →
    mapTarget s.cfg.n o.toNat = some t →
    (∀ v, s.agenda = .write 8 o v :: l → (t = .cmd ∨ (∃ j, t = .modIn j ∨ t = .genIn j) ∨ ∃ r j, t = .elem r j) →
      step s = .next ((s.setAgenda l).setStatus { s.status with ovr := true })) ∧
    (∀ v, s.agenda = .write 8 o v :: l → t = .status → step s = .next ((s.setAgenda l).ackStatus v)) ∧
    (s.agenda = .read 8 o :: l →
      (t = .id → step s = .next ((s.setAgenda l).setReadData (idWord s.cfg.n))) ∧
      (t = .status → step s = .next ((s.setAgenda l).setReadData s.status.word)) ∧
      (t = .cmdCount → step s = .next ((s.setAgenda l).setReadData s.cmdCount)) ∧
      (t = .cmd → step s = .next ((s.setAgenda l).setReadData 0))) ∧
    (s.agenda = .read 8 o :: l →
      (t = .flags ∨ (∃ j, t = .modIn j ∨ t = .genIn j) ∨ (∃ r j, t = .elem r j) ∨ (∃ k j, t = .wide k j) ∨
        ∃ k, t = .scalar k) →
      ∃ v n, step s = .next (((s.setAgenda l).setReadData v).setBusyReads n))) ∧
  ∀ (s : State) (l : List Event) (w : Nat) (o : Offset), s.status.busy = true →
    (s.agenda = .read w o :: l → w ≠ 8 ∨ o.toNat % 8 ≠ 0 ∨ mapTarget s.cfg.n o.toNat = none →
      step s = .next (((s.setAgenda l).setStatus { s.status with badacc := true }).setReadData 0)) ∧
    ∀ v, s.agenda = .write w o v :: l →
      (w ≠ 8 ∨ o.toNat % 8 ≠ 0 ∨ mapTarget s.cfg.n o.toNat = none ∨
        ∃ t, mapTarget s.cfg.n o.toNat = some t ∧
          (t = .id ∨ t = .flags ∨ t = .cmdCount ∨ (∃ k, t = .scalar k) ∨ ∃ k j, t = .wide k j)) →
      step s = .next ((s.setAgenda l).setStatus { s.status with badacc := true })

/-- 10_state.md R42, R45: the bits of STATUS and FLAGS as the HOST reads them, and what a write to STATUS clears,
busy or not. -/
def Obligations.StatusAndFlagsBits : Prop :=
  (∀ st : Status, st.word.getLsbD 0 = st.busy ∧ st.word.getLsbD 1 = st.pv ∧ st.word.getLsbD 2 = st.err ∧
    st.word.getLsbD 3 = st.ovr ∧ st.word.getLsbD 4 = st.badacc ∧ st.word.toNat / 2 ^ 5 % 2 ^ 3 = 0 ∧
    st.word.toNat / 2 ^ 8 % 2 ^ 4 = st.ecode.num ∧ st.word.toNat / 2 ^ 12 = 0) ∧
  (∀ f : Flags, f.word.getLsbD 0 = f.c ∧ f.word.getLsbD 1 = f.z ∧ f.word.getLsbD 2 = f.lt ∧
    f.word.getLsbD 3 = f.gt ∧ f.word.toNat / 2 ^ 4 = 0) ∧
  ∀ (s : State) (l : List Event) (v : Word), s.agenda = .write 8 0x0008 v :: l →
    step s = .next ((s.setAgenda l).setStatus { s.status with
      err := if v.getLsbD 2 then false else s.status.err
      ovr := if v.getLsbD 3 then false else s.status.ovr
      badacc := if v.getLsbD 4 then false else s.status.badacc })

/-- 10_state.md R49: writing and reading CMD. -/
def Obligations.CommandAcceptance : Prop :=
  ∀ (s : State) (l : List Event) (v : Word),
    (s.agenda = .write 8 0x0018 v :: l → s.status.busy = false →
      step s = .next (((s.setAgenda l).setPending (v.setWidth 32)).setStatus { s.status with busy := true })) ∧
    (s.agenda = .write 8 0x0018 v :: l → s.status.busy = true →
      step s = .next ((s.setAgenda l).setStatus { s.status with ovr := true })) ∧
    (s.agenda = .read 8 0x0018 :: l → step s = .next ((s.setAgenda l).setReadData 0))

/-- 20_memory.md section 3 (R79, the spec's own inference, "[derived: from rules R75 to R77]"): a read changes no
state of the block but BADACC (R80), and of two reads of the same offset with no other step between them the
second returns what the first did, but for the registers that the busy window hides (R84). The read port and the
counter of unspecified reads are the model's own (log entries 5, 6). -/
def Obligations.ReadsHaveNoSideEffects : Prop :=
  (∀ (s : State) (w : Nat) (o : Offset), ∃ v n b,
    s.hostRead w o = ((s.setReadData v).setBusyReads n).setStatus { s.status with badacc := b }) ∧
  ∀ (s : State) (l : List Event) (w : Nat) (o : Offset), s.agenda = .read w o :: .read w o :: l →
    (s.status.busy = false ∨ ∀ t, accessTarget s.cfg.n w o = some t → t.hiddenWhileBusy = false) →
    ∃ t u, step s = .next t ∧ step t = .next u ∧ u.readData = t.readData

/-! ## WordVector -/

/-- 40_wordvector.md R132: WADD. -/
def Obligations.WaddResult : Prop :=
  ∀ (s : State) (rd rs1 rs2 : Reg), encode (.wadd rd rs1 rs2) = assemble 0x11 rd rs1 rs2 ∧ (s.Wf →
    exec (.wadd rd rs1 rs2) s = .next
      ((s.setE rd ((s.reg rs1 + s.reg rs2) % 2 ^ s.cfg.w)).setFlags
        { s.flags with c := decide ((s.reg rs1 + s.reg rs2) >>> s.cfg.w = 1) }).succeed ∧
    (s.reg rs1 + s.reg rs2) >>> s.cfg.w ≤ 1)

/-- 40_wordvector.md R133: WSUB; the wrapped difference as an integer modulo 2^W. -/
def Obligations.WsubResult : Prop :=
  ∀ (s : State) (rd rs1 rs2 : Reg), encode (.wsub rd rs1 rs2) = assemble 0x12 rd rs1 rs2 ∧ ∃ x : Nat,
    (x : Int) = ((s.reg rs1 : Int) - (s.reg rs2 : Int)) % 2 ^ s.cfg.w ∧
    exec (.wsub rd rs1 rs2) s = .next
      ((s.setE rd x).setFlags { s.flags with c := decide (s.reg rs1 < s.reg rs2) }).succeed

/-- 40_wordvector.md R131, R136: WCMP and WISZ; after WCMP exactly one of Z, LT, GT is set. -/
def Obligations.WcmpAndWiszResult : Prop :=
  ∀ (s : State) (rs1 rs2 : Reg),
    encode (.wcmp rs1 rs2) = assemble 0x10 0 rs1 rs2 ∧ encode (.wisz rs1) = assemble 0x15 0 rs1 0 ∧
    (∃ z lt gt, exec (.wcmp rs1 rs2) s = .next (s.setFlags { s.flags with z := z, lt := lt, gt := gt }).succeed ∧
      (z = true ↔ s.reg rs1 = s.reg rs2) ∧ (lt = true ↔ s.reg rs1 < s.reg rs2) ∧
      (gt = true ↔ s.reg rs2 < s.reg rs1) ∧
      ((z && !lt && !gt) || (!z && lt && !gt) || (!z && !lt && gt)) = true) ∧
    exec (.wisz rs1) s = .next (s.setFlags { s.flags with z := decide (s.reg rs1 = 0) }).succeed

/-- 40_wordvector.md R134, R135: WSHR1 moves every bit down by one, bit W−1 of the result is 0; WBITLEN gives the
least k with a < 2^k, at most W. -/
def Obligations.Wshr1AndWbitlenResult : Prop :=
  ∀ (s : State) (rd rs1 : Reg),
    encode (.wshr1 rd rs1) = assemble 0x13 rd rs1 0 ∧ encode (.wbitlen rd rs1) = assemble 0x14 rd rs1 0 ∧
    (∃ x, exec (.wshr1 rd rs1) s = .next (s.setE rd x).succeed ∧
      (∀ i, x.testBit i = (s.reg rs1).testBit (i + 1)) ∧ (s.Wf → x < 2 ^ (s.cfg.w - 1))) ∧
    ∃ k, exec (.wbitlen rd rs1) s = .next (s.setE rd k).succeed ∧ s.reg rs1 < 2 ^ k ∧
      (∀ j, s.reg rs1 < 2 ^ j → k ≤ j) ∧ (s.Wf → k ≤ s.cfg.w)

/-- 40_wordvector.md section 3 (R138, R139, the spec's own inferences, marked derived): WADD and WSUB computed
word by word, by the carry chain and the borrow chain, give the same results. -/
def Obligations.CarryAndBorrowChains : Prop :=
  ∀ (s : State) (rd rs1 rs2 : Reg), s.Wf →
    exec (.wadd rd rs1 rs2) s = .next
      ((s.setE rd (addChain (s.reg rs1) (s.reg rs2) s.cfg.n).1).setFlags
        { s.flags with c := decide ((addChain (s.reg rs1) (s.reg rs2) s.cfg.n).2 = 1) }).succeed ∧
    exec (.wsub rd rs1 rs2) s = .next
      ((s.setE rd (subChain (s.reg rs1) (s.reg rs2) s.cfg.n).1).setFlags
        { s.flags with c := decide ((subChain (s.reg rs1) (s.reg rs2) s.cfg.n).2 = 1) }).succeed

/-- 40_wordvector.md section 3 (R140, the spec's own inference, marked derived): WCMP by the scan from the most
significant word. -/
def Obligations.CompareFromTheTopWord : Prop :=
  ∀ (s : State) (rs1 rs2 : Reg), s.Wf →
    exec (.wcmp rs1 rs2) s = .next (s.setFlags { s.flags with
      z := compareScan (s.reg rs1) (s.reg rs2) s.cfg.n == .eq
      lt := compareScan (s.reg rs1) (s.reg rs2) s.cfg.n == .lt
      gt := compareScan (s.reg rs1) (s.reg rs2) s.cfg.n == .gt }).succeed

/-- 40_wordvector.md section 3 (R137, the spec's own inference, marked derived): the exact integer laws of WADD
and WSUB, and that WSUB undoes WADD with a borrow equal to the carry. -/
def Obligations.WsubUndoesWadd : Prop :=
  ∀ (s : State) (rd rq rs1 rs2 : Reg), s.Wf → rd ≠ rs2 →
    ∃ t u, exec (.wadd rd rs1 rs2) s = .next t ∧ exec (.wsub rq rd rs2) t = .next u ∧
      s.reg rs1 + s.reg rs2 = t.reg rd + (if t.flags.c then 2 ^ s.cfg.w else 0) ∧
      (t.reg rd : Int) - (s.reg rs2 : Int) = (u.reg rq : Int) - (if u.flags.c then 2 ^ s.cfg.w else 0) ∧
      u.reg rq = s.reg rs1 ∧ u.flags.c = t.flags.c

/-- 40_wordvector.md section 3 (R141, the spec's own inference, marked derived): two blocks that differ in
everything but N and the source registers get the same results from a WordVector command. -/
def Obligations.WordVectorReadsItsSourcesOnly : Prop :=
  ∀ (s s' : State) (rd rs1 rs2 : Reg), s.cfg = s'.cfg → s.reg rs1 = s'.reg rs1 → s.reg rs2 = s'.reg rs2 →
    (∃ t t', exec (.wadd rd rs1 rs2) s = .next t ∧ exec (.wadd rd rs1 rs2) s' = .next t' ∧
      t.reg rd = t'.reg rd ∧ t.flags.c = t'.flags.c) ∧
    (∃ t t', exec (.wsub rd rs1 rs2) s = .next t ∧ exec (.wsub rd rs1 rs2) s' = .next t' ∧
      t.reg rd = t'.reg rd ∧ t.flags.c = t'.flags.c) ∧
    (∃ t t', exec (.wshr1 rd rs1) s = .next t ∧ exec (.wshr1 rd rs1) s' = .next t' ∧ t.reg rd = t'.reg rd) ∧
    (∃ t t', exec (.wbitlen rd rs1) s = .next t ∧ exec (.wbitlen rd rs1) s' = .next t' ∧ t.reg rd = t'.reg rd) ∧
    (∃ t t', exec (.wcmp rs1 rs2) s = .next t ∧ exec (.wcmp rs1 rs2) s' = .next t' ∧ t.flags.z = t'.flags.z ∧
      t.flags.lt = t'.flags.lt ∧ t.flags.gt = t'.flags.gt) ∧
    (∃ t t', exec (.wisz rs1) s = .next t ∧ exec (.wisz rs1) s' = .next t' ∧ t.flags.z = t'.flags.z)

/-! ## The modular adder and subtractor -/

/-- 42_modular_add.md R191 to R194: FADD, FSUB, FNEG, FDBL on reduced operands, and FDBL as FADD of the operand
with itself on every state. -/
def Obligations.ModularAddResults : Prop :=
  (∀ (s : State) (rd rs1 rs2 : Reg), s.status.pv = true → s.reg rs1 < s.params.modulus →
    s.reg rs2 < s.params.modulus →
    exec (.fadd rd rs1 rs2) s = .next (s.setE rd ((s.reg rs1 + s.reg rs2) % s.params.modulus)).succeed ∧
    (∃ x : Nat, (x : Int) = ((s.reg rs1 : Int) - (s.reg rs2 : Int)) % (s.params.modulus : Int) ∧
      exec (.fsub rd rs1 rs2) s = .next (s.setE rd x).succeed) ∧
    (∃ x : Nat, (x : Int) = (-(s.reg rs1 : Int)) % (s.params.modulus : Int) ∧
      exec (.fneg rd rs1) s = .next (s.setE rd x).succeed) ∧
    exec (.fdbl rd rs1) s = .next (s.setE rd (2 * s.reg rs1 % s.params.modulus)).succeed) ∧
  ∀ (s : State) (rd rs1 : Reg), exec (.fdbl rd rs1) s = exec (.fadd rd rs1 rs1) s

/-- 42_modular_add.md section 4 (R198, the spec's own inference, marked derived): FADD is commutative and
associative and zero is its identity, over reduced operands. -/
def Obligations.FaddLaws : Prop :=
  ∀ (s : State) (d ra rb rc : Reg), s.status.pv = true → s.reg ra < s.params.modulus →
    s.reg rb < s.params.modulus → s.reg rc < s.params.modulus →
    exec (.fadd d ra rb) s = exec (.fadd d rb ra) s ∧
    (s.reg rb = 0 → exec (.fadd d ra rb) s = .next (s.setE d (s.reg ra)).succeed) ∧
    (d ≠ ra → d ≠ rc →
      ∃ t1 t2 u1 u2, exec (.fadd d ra rb) s = .next t1 ∧ exec (.fadd d d rc) t1 = .next t2 ∧
        exec (.fadd d rb rc) s = .next u1 ∧ exec (.fadd d ra d) u1 = .next u2 ∧ t2.reg d = u2.reg d)

/-- 42_modular_add.md section 3 (R195, R196, the spec's own inferences, marked derived): the adder and the
subtractor realised by the chains and a masked select give FADD's and FSUB's values. -/
def Obligations.ModularAddRealised : Prop :=
  ∀ (s : State) (rd rs1 rs2 : Reg), s.Wf → s.status.pv = true → s.reg rs1 < s.params.modulus →
    s.reg rs2 < s.params.modulus →
    exec (.fadd rd rs1 rs2) s =
      .next (s.setE rd (addModChain s.cfg.n s.params.modulus (s.reg rs1) (s.reg rs2))).succeed ∧
    exec (.fsub rd rs1 rs2) s =
      .next (s.setE rd (subModChain s.cfg.n s.params.modulus (s.reg rs1) (s.reg rs2))).succeed

/-! ## The Montgomery multiplier -/

/-- 43_montgomery.md R210, R213, R214: FMUL gives the reduced x with x·R ≡ a·b (mod m); FSQR is FMUL of the
operand with itself, on every state. -/
def Obligations.FmulAndFsqrResult : Prop :=
  (∀ (s : State) (rd rs1 rs2 : Reg), s.Inv → s.status.pv = true → s.reg rs1 < s.params.modulus →
    s.reg rs2 < s.params.modulus →
    (∃ x, x < s.params.modulus ∧
      x * 2 ^ s.cfg.w % s.params.modulus = s.reg rs1 * s.reg rs2 % s.params.modulus ∧
      exec (.fmul rd rs1 rs2) s = .next (s.setE rd x).succeed) ∧
    ∃ x, x < s.params.modulus ∧
      x * 2 ^ s.cfg.w % s.params.modulus = s.reg rs1 * s.reg rs1 % s.params.modulus ∧
      exec (.fsqr rd rs1) s = .next (s.setE rd x).succeed) ∧
  ∀ (s : State) (rd rs1 : Reg), exec (.fsqr rd rs1) s = exec (.fmul rd rs1 rs1) s

/-- 43_montgomery.md R215, R216: TOMONT gives v·R mod m; FROMMONT gives the canonical value of its operand. -/
def Obligations.TomontAndFrommontResult : Prop :=
  ∀ (s : State) (rd rs1 : Reg), s.Inv → s.status.pv = true → s.reg rs1 < s.params.modulus →
    exec (.tomont rd rs1) s = .next (s.setE rd (s.reg rs1 * 2 ^ s.cfg.w % s.params.modulus)).succeed ∧
    ∃ x, x < s.params.modulus ∧ x * 2 ^ s.cfg.w % s.params.modulus = s.reg rs1 ∧
      exec (.frommont rd rs1) s = .next (s.setE rd x).succeed

/-- 43_montgomery.md section 3 (R217, R218, the spec's own inferences, marked derived): the round trip through
Montgomery form as two commands, products of Montgomery forms, and the laws of FMUL. -/
def Obligations.MontgomeryLaws : Prop :=
  ∀ (s : State) (rd rq rs1 rs2 : Reg), s.Inv → s.status.pv = true → s.reg rs1 < s.params.modulus →
    s.reg rs2 < s.params.modulus →
    (∃ t u, exec (.tomont rd rs1) s = .next t ∧ exec (.frommont rq rd) t = .next u ∧ u.reg rq = s.reg rs1) ∧
    (∀ x y, s.reg rs1 = montForm s.cfg.w s.params.modulus x → s.reg rs2 = montForm s.cfg.w s.params.modulus y →
      exec (.fmul rd rs1 rs2) s =
        .next (s.setE rd (montForm s.cfg.w s.params.modulus (x * y % s.params.modulus))).succeed) ∧
    exec (.fmul rd rs1 rs2) s = exec (.fmul rd rs2 rs1) s ∧
    (s.reg rs2 = s.params.r → exec (.fmul rd rs1 rs2) s = .next (s.setE rd (s.reg rs1)).succeed) ∧
    (s.reg rs2 = 0 → exec (.fmul rd rs1 rs2) s = .next (s.setE rd 0).succeed)

/-! ## Exponentiation, inversion, Legendre, square root -/

/-- 44_exp_inv_sqrt.md R240, R243: FPOW of the Montgomery form of c gives the Montgomery form of c^e mod m, for
every raw exponent e, with 0^0 = 1. -/
def Obligations.FpowResult : Prop :=
  ∀ (s : State) (rd rs1 rs2 : Reg), s.Inv → s.status.pv = true → s.reg rs1 < s.params.modulus →
    ∃ c, c < s.params.modulus ∧ s.reg rs1 = montForm s.cfg.w s.params.modulus c ∧
      exec (.fpow rd rs1 rs2) s =
        .next (s.setE rd (montForm s.cfg.w s.params.modulus (c ^ s.reg rs2 % s.params.modulus))).succeed

/-- 44_exp_inv_sqrt.md R246: FINV is the power m − 2, and UNDEFINED_INVERSE for zero. -/
def Obligations.FinvResult : Prop :=
  ∀ (s : State) (rd rs1 : Reg), s.Inv → s.status.pv = true → s.reg rs1 < s.params.modulus →
    (s.reg rs1 = 0 → exec (.finv rd rs1) s = .next (s.fail .undefinedInverse)) ∧
    (s.reg rs1 ≠ 0 → ∃ c, c < s.params.modulus ∧ s.reg rs1 = montForm s.cfg.w s.params.modulus c ∧
      exec (.finv rd rs1) s =
        .next (s.setE rd (montForm s.cfg.w s.params.modulus (c ^ (s.params.modulus - 2) % s.params.modulus))).succeed)

/-- 44_exp_inv_sqrt.md section 2 (R247, the spec's own inference, marked derived): for a prime modulus, FMUL of a
nonzero element with its FINV gives `one`; rd ≠ rs1 because FMUL needs the operand again (FinvResult has the
form rd = rs1). -/
def Obligations.FinvIsTheInverse : Prop :=
  ∀ (s : State) (rd rq rs1 : Reg), s.Inv → s.status.pv = true → s.params.modulus.Prime →
    s.reg rs1 < s.params.modulus → s.reg rs1 ≠ 0 → rd ≠ rs1 →
    ∃ t u, exec (.finv rd rs1) s = .next t ∧ exec (.fmul rq rs1 rd) t = .next u ∧ u.reg rq = s.params.r

/-- 44_exp_inv_sqrt.md R248: FLEG is the power (m − 1)/2. -/
def Obligations.FlegResult : Prop :=
  ∀ (s : State) (rd rs1 : Reg), s.Inv → s.status.pv = true → s.reg rs1 < s.params.modulus →
    ∃ c, c < s.params.modulus ∧ s.reg rs1 = montForm s.cfg.w s.params.modulus c ∧
      exec (.fleg rd rs1) s = .next (s.setE rd
        (montForm s.cfg.w s.params.modulus (c ^ ((s.params.modulus - 1) / 2) % s.params.modulus))).succeed

/-- 44_exp_inv_sqrt.md section 2 (R249, the spec's own inference from Euler's criterion, marked derived): for a
prime modulus FLEG gives zero for zero, `one` for a nonzero square, and −1 in Montgomery form otherwise. -/
def Obligations.FlegTellsSquares : Prop :=
  ∀ (s : State) (rd rs1 : Reg), s.Inv → s.status.pv = true → s.params.modulus.Prime →
    s.reg rs1 < s.params.modulus →
    exec (.fleg rd rs1) s = .next (s.setE rd 0).succeed ∧ s.reg rs1 = 0 ∨
    exec (.fleg rd rs1) s = .next (s.setE rd s.params.r).succeed ∧ s.reg rs1 ≠ 0 ∧
      (∃ y, y < s.params.modulus ∧ s.mont y y = s.reg rs1) ∨
    exec (.fleg rd rs1) s = .next (s.setE rd (s.params.modulus - s.params.r)).succeed ∧ s.reg rs1 ≠ 0 ∧
      ∀ y, y < s.params.modulus → s.mont y y ≠ s.reg rs1

/-- 44_exp_inv_sqrt.md R252: FSQRT of zero is zero without a Legendre test, and NO_SQUARE_ROOT where the Legendre
value is not `one`; a root it returns is reduced. That the Legendre value is this power, and that products of
reduced values are reduced, is the spec's own inference (R241 in section 1, 43_montgomery.md R211). -/
def Obligations.FsqrtZeroAndNonResidue : Prop :=
  ∀ (s : State) (rd rs1 : Reg), s.Inv → s.status.pv = true → s.reg rs1 < s.params.modulus →
    (s.reg rs1 = 0 → exec (.fsqrt rd rs1) s = .next (s.setE rd 0).succeed) ∧
    (∀ c, s.reg rs1 ≠ 0 → s.reg rs1 = montForm s.cfg.w s.params.modulus c →
      c ^ ((s.params.modulus - 1) / 2) % s.params.modulus ≠ 1 →
      exec (.fsqrt rd rs1) s = .next (s.fail .noSquareRoot)) ∧
    (exec (.fsqrt rd rs1) s = .next (s.fail .noSquareRoot) ∨
      ∃ y, y < s.params.modulus ∧ exec (.fsqrt rd rs1) s = .next (s.setE rd y).succeed)

/-- 44_exp_inv_sqrt.md sections 2 and 3 (R253, R255, the spec's own inferences): for a prime modulus FSQRT of a
nonzero square completes with a root, whose FSQR is the operand, and of a non-square ends with
NO_SQUARE_ROOT. -/
def Obligations.FsqrtSquaresBack : Prop :=
  ∀ (s : State) (rd rs1 : Reg), s.Inv → s.status.pv = true → s.params.modulus.Prime →
    s.reg rs1 < s.params.modulus → s.reg rs1 ≠ 0 →
    ((∃ y, y < s.params.modulus ∧ s.mont y y = s.reg rs1) →
      ∃ y, y < s.params.modulus ∧ s.mont y y = s.reg rs1 ∧
        exec (.fsqrt rd rs1) s = .next (s.setE rd y).succeed) ∧
    ((∀ y, y < s.params.modulus → s.mont y y ≠ s.reg rs1) →
      exec (.fsqrt rd rs1) s = .next (s.fail .noSquareRoot))

/-! ## Sampling -/

/-- 45_sampling_and_moves.md R272, R273: one attempt of FRAND, for whatever answers RNG gives; and for answers
that are settled, word 0 first. The model's choice (log entry 4, DESIGN CHOICE), not the rules': the list of
settled answers, the counter of requests, and that RNG always answers, so that FRAND always takes its step (unsafe
for this). -/
def Obligations.FrandAttempt : Prop :=
  ∀ (s : State) (rd : Reg), s.Inv → s.status.pv = true →
    (∃ (l : List Word) (g : Rng), l.length = s.cfg.n ∧
      (valOfWords l % 2 ^ bitlen s.params.modulus < s.params.modulus →
        exec (.frand rd) s = .next ((s.setRng g).setE rd
          (montForm s.cfg.w s.params.modulus (valOfWords l % 2 ^ bitlen s.params.modulus))).succeed) ∧
      (s.params.modulus ≤ valOfWords l % 2 ^ bitlen s.params.modulus →
        exec (.frand rd) s = .next (s.setRng g))) ∧
    ∀ (l rest : List Word), l.length = s.cfg.n → s.rng.answers = l ++ rest →
      (valOfWords l % 2 ^ bitlen s.params.modulus < s.params.modulus →
        exec (.frand rd) s = .next ((s.setRng ⟨rest, s.rng.drawn + s.cfg.n⟩).setE rd
          (montForm s.cfg.w s.params.modulus (valOfWords l % 2 ^ bitlen s.params.modulus))).succeed) ∧
      (s.params.modulus ≤ valOfWords l % 2 ^ bitlen s.params.modulus →
        exec (.frand rd) s = .next (s.setRng ⟨rest, s.rng.drawn + s.cfg.n⟩))

/-- 45_sampling_and_moves.md R275, 70_reset_and_hazards.md R359: as long as RNG's answers are rejected, FRAND
stays in flight, for any number of steps, and nothing of the state changes but RNG's own answers. The model's
choice (DESIGN CHOICE), not the rules': that the ENGINE goes on with an empty agenda (log entry 3), and that the
rejected answers are a settled list (log entry 4). -/
def Obligations.FrandCanHang : Prop :=
  ∀ (k : Nat) (s : State) (rd : Reg) (attempts : List (List Word)), s.Inv → s.status.pv = true →
    s.status.busy = true → decode s.pending = .ok (.frand rd) → s.agenda = [] → attempts.length = k →
    s.rng.answers = attempts.flatten →
    (∀ l ∈ attempts, l.length = s.cfg.n ∧ s.params.modulus ≤ valOfWords l % 2 ^ bitlen s.params.modulus) →
    ∃ t, Sys2Proof.core.run k s = .next t ∧ t = s.setRng t.rng ∧ t.rng.answers = [] ∧
      t.rng.drawn = s.rng.drawn + k * s.cfg.n

/-! ## Moves and NOP -/

/-- 45_sampling_and_moves.md R276, R277, R278, R280: MOV, LDC with every index and with PV = 0, NOP. -/
def Obligations.MovLdcNopResult : Prop :=
  ∀ (s : State) (rd rs1 : Reg),
    encode (.mov rd rs1) = assemble 0x04 rd rs1 0 ∧ encode .nop = 0 ∧
    (∀ k : ConstIndex, encode (.ldc rd k) = assemble 0x03 rd 0 k ∧
      (14 ≤ k.val → decode (assemble 0x03 rd 0 k) = .error .illegalConstIndex) ∧
      (k.val < 14 → s.status.pv = false → exec (.ldc rd k) s = .next (s.fail .paramsNotValid))) ∧
    exec (.mov rd rs1) s = .next (s.setE rd (s.reg rs1)).succeed ∧
    exec .nop s = .next s.succeed ∧
    (s.status.pv = true →
      exec (.ldc rd 0) s = .next (s.setE rd s.params.modulus).succeed ∧
      exec (.ldc rd 1) s = .next (s.setE rd s.params.r).succeed ∧
      exec (.ldc rd 2) s = .next (s.setE rd s.params.r2).succeed ∧
      exec (.ldc rd 3) s = .next (s.setE rd s.params.generator).succeed ∧
      exec (.ldc rd 4) s = .next (s.setE rd s.params.oddFactor).succeed ∧
      exec (.ldc rd 5) s = .next (s.setE rd s.params.oddFactorMinusOneHalf).succeed ∧
      exec (.ldc rd 6) s = .next (s.setE rd s.params.modulusMinusOneHalf).succeed ∧
      exec (.ldc rd 7) s = .next (s.setE rd s.params.twoAdicRoot).succeed ∧
      exec (.ldc rd 8) s = .next (s.setE rd s.params.inv.toNat).succeed ∧
      exec (.ldc rd 9) s = .next (s.setE rd s.params.modulusBits.toNat).succeed ∧
      exec (.ldc rd 10) s = .next (s.setE rd s.params.capacity.toNat).succeed ∧
      exec (.ldc rd 11) s = .next (s.setE rd s.params.shaveBits.toNat).succeed ∧
      exec (.ldc rd 12) s = .next (s.setE rd s.params.twoAdicity.toNat).succeed ∧
      exec (.ldc rd 13) s = .next (s.setE rd 0).succeed)

/-! ## Parameters -/

/-- 41_parameters.md R161, R162, R164 to R167: DERIVE accepts exactly the stated pairs, and what it then writes;
otherwise it clears the parameter file. -/
def Obligations.DeriveResult : Prop :=
  ∀ s : State, s.Wf →
    (s.modIn % 2 = 1 ∧ 3 ≤ s.modIn ∧ s.genIn < s.modIn ∧ s.genIn ^ (s.modIn - 1) % s.modIn = 1 ∧
        s.genIn ^ ((s.modIn - 1) / 2) % s.modIn ≠ 1 →
      ∃ p, exec .derive s = .next ((s.setParams p).setStatus { s.status with pv := true }).succeed ∧
        p.modulus = s.modIn ∧ p.r = 2 ^ s.cfg.w % s.modIn ∧ p.r2 = (2 ^ s.cfg.w % s.modIn) ^ 2 % s.modIn ∧
        p.generator = s.genIn * 2 ^ s.cfg.w % s.modIn ∧
        (∃ k, s.modIn - 1 = 2 ^ k * p.oddFactor ∧ p.oddFactor % 2 = 1 ∧ p.twoAdicity.toNat = k) ∧
        p.oddFactorMinusOneHalf = (p.oddFactor - 1) / 2 ∧ p.modulusMinusOneHalf = (s.modIn - 1) / 2 ∧
        p.twoAdicRoot = s.genIn ^ p.oddFactor % s.modIn * 2 ^ s.cfg.w % s.modIn ∧
        (s.modIn % 2 ^ 64 * p.inv.toNat + 1) % 2 ^ 64 = 0 ∧
        2 ^ (p.modulusBits.toNat - 1) ≤ s.modIn ∧ s.modIn < 2 ^ p.modulusBits.toNat ∧
        p.capacity.toNat + 1 = p.modulusBits.toNat ∧ p.shaveBits.toNat + p.modulusBits.toNat = s.cfg.w) ∧
    (¬(s.modIn % 2 = 1 ∧ 3 ≤ s.modIn ∧ s.genIn < s.modIn ∧ s.genIn ^ (s.modIn - 1) % s.modIn = 1 ∧
        s.genIn ^ ((s.modIn - 1) / 2) % s.modIn ≠ 1) →
      exec .derive s = .next (s.fail .invalidModulus) ∧ (s.fail .invalidModulus).params = Params.zero ∧
        (s.fail .invalidModulus).status.pv = false)

/-- 41_parameters.md R170, R171: GENCHK raises the stored generator g to the raw exponent e; g^e = 1 ends with
INVALID_MODULUS and a cleared parameter file, anything else changes nothing. -/
def Obligations.GenchkResult : Prop :=
  ∀ (s : State) (rs1 : Reg), s.Inv → s.status.pv = true →
    ∃ g, g < s.params.modulus ∧ s.params.generator = g * 2 ^ s.cfg.w % s.params.modulus ∧
      (g ^ s.reg rs1 % s.params.modulus ≠ 1 → exec (.genchk rs1) s = .next s.succeed) ∧
      (g ^ s.reg rs1 % s.params.modulus = 1 → exec (.genchk rs1) s = .next (s.fail .invalidModulus))

/-- 10_state.md section 4 (R39, the spec's own inference, marked derived): with PV = 1 every wide parameter but
the modulus is below it, and R, GENERATOR and TWO_ADIC_ROOT_OF_UNITY are Montgomery forms of 1, g and g^T. -/
def Obligations.DerivedParametersAreReduced : Prop :=
  ∀ s : State, s.Inv → s.status.pv = true →
    (∀ k : Fin 8, k ≠ 0 → s.params.wide k < s.params.modulus) ∧
    s.params.r = montForm s.cfg.w s.params.modulus 1 ∧
    ∃ g, g < s.params.modulus ∧ s.params.generator = montForm s.cfg.w s.params.modulus g ∧
      s.params.twoAdicRoot = montForm s.cfg.w s.params.modulus (g ^ s.params.oddFactor % s.params.modulus)

/-- 41_parameters.md section 2 (R169, the spec's own inference, marked derived): for a prime modulus the two-adic
root has order exactly 2^S: FPOW with exponent 2^S gives `one`, with 2^(S−1) it does not. -/
def Obligations.TwoAdicRootHasFullOrder : Prop :=
  ∀ (s : State) (rd rs1 rs2 : Reg), s.Inv → s.status.pv = true → s.params.modulus.Prime →
    s.reg rs1 = s.params.twoAdicRoot →
    0 < s.params.twoAdicity.toNat ∧
    (s.reg rs2 = 2 ^ s.params.twoAdicity.toNat →
      exec (.fpow rd rs1 rs2) s = .next (s.setE rd s.params.r).succeed) ∧
    (s.reg rs2 = 2 ^ (s.params.twoAdicity.toNat - 1) →
      ∃ x, x ≠ s.params.r ∧ exec (.fpow rd rs1 rs2) s = .next (s.setE rd x).succeed)
end

