-- ==== Sys2Proof/Laws/Arith.lean ====
section
/-! SUPPORT. One spec lemma for each integer helper: bit length, two-adic valuation, modular power, words of an
element-width value, values of word lists, the adder and subtractor modulo m. -/

namespace Sys2Proof.Machine

theorem w_eq (c : Config) : c.w = 64 * c.n := rfl

theorem n_pos (c : Config) : 0 < c.n := Nat.succ_pos _

theorem n_le (c : Config) : c.n ≤ 16 := by
  have := c.extraWords.isLt
  unfold Config.n
  omega

theorem w_ge (c : Config) : 64 ≤ c.w := by
  have := n_pos c
  unfold Config.w
  omega

theorem w_le (c : Config) : c.w ≤ 1024 := by
  have := n_le c
  unfold Config.w
  omega

theorem two_pow_64_le (c : Config) : 2 ^ 64 ≤ 2 ^ c.w := Nat.pow_le_pow_right (by decide) (w_ge c)

/-! ## bitlen (00_scope.md R18) -/

theorem lt_two_pow_bitlen (a : Nat) : a < 2 ^ bitlen a := by
  unfold bitlen
  split
  · subst_vars; decide
  · exact Nat.lt_log2_self

theorem two_pow_le_of_lt_bitlen {a k : Nat} (h : k < bitlen a) : 2 ^ k ≤ a := by
  unfold bitlen at h
  split at h
  · omega
  · rename_i ha
    exact (Nat.le_log2 ha).1 (by omega)

theorem bitlen_le_iff (a k : Nat) : bitlen a ≤ k ↔ a < 2 ^ k := by
  constructor
  · intro h
    exact lt_of_lt_of_le (lt_two_pow_bitlen a) (Nat.pow_le_pow_right (by decide) h)
  · intro h
    by_contra hk
    have : 2 ^ k ≤ a := two_pow_le_of_lt_bitlen (by omega)
    omega

@[simp] theorem bitlen_zero : bitlen 0 = 0 := rfl

theorem bitlen_pos {a : Nat} (h : 0 < a) : 0 < bitlen a := by
  by_contra hk
  have := (bitlen_le_iff a 0).1 (by omega)
  omega

/-! ## v2 (00_scope.md R18) -/

theorem v2Upto_spec (fuel : Nat) : ∀ a, 0 < a → a < 2 ^ fuel →
    2 ^ v2Upto fuel a ∣ a ∧ a / 2 ^ v2Upto fuel a % 2 = 1 := by
  induction fuel with
  | zero => intro a h0 h1; simp at h1; omega
  | succ f ih =>
    intro a h0 h1
    unfold v2Upto
    split
    · rename_i hev
      obtain ⟨hd, ho⟩ := ih (a / 2) (by omega) (by rw [pow_succ] at h1; omega)
      rw [pow_succ']
      refine ⟨?_, ?_⟩
      · have : a = 2 * (a / 2) := by omega
        rw [this]
        exact Nat.mul_dvd_mul_left 2 (by simpa using hd)
      · rw [← Nat.div_div_eq_div_mul]
        exact ho
    · rename_i hodd
      simp only [pow_zero, isUnit_one, IsUnit.dvd, Nat.div_one, true_and]
      omega

/-- For a > 0, `2^(v2 a)` divides a with an odd quotient. -/
theorem v2_spec {a : Nat} (h : 0 < a) : 2 ^ v2 a ∣ a ∧ a / 2 ^ v2 a % 2 = 1 :=
  v2Upto_spec _ a h (lt_two_pow_bitlen a)

theorem v2_le_bitlen {a : Nat} (h : 0 < a) : v2 a < bitlen a := by
  have hd := Nat.le_of_dvd h (v2_spec h).1
  by_contra hk
  have h1 := lt_two_pow_bitlen a
  have : 2 ^ bitlen a ≤ 2 ^ v2 a := Nat.pow_le_pow_right (by decide) (by omega)
  omega

/-! ## Modular power (00_scope.md R18) -/

theorem powModBits_spec (m b e : Nat) : ∀ k acc, acc % m = b ^ (e >>> k) % m →
    powModBits m b e k acc % m = b ^ e % m := by
  intro k
  induction k with
  | zero => intro acc h; simpa [powModBits] using h
  | succ k ih =>
    intro acc h
    unfold powModBits
    apply ih
    have hs : e >>> k = 2 * (e >>> (k + 1)) + (e.testBit k).toNat := by
      rw [Nat.testBit_eq_decide_div_mod_eq, Nat.shiftRight_eq_div_pow, Nat.shiftRight_eq_div_pow, pow_succ,
        ← Nat.div_div_eq_div_mul]
      rcases Nat.mod_two_eq_zero_or_one (e / 2 ^ k) with h0 | h0 <;> simp [h0] <;> omega
    have hsq : acc * acc % m = b ^ (2 * (e >>> (k + 1))) % m := by
      rw [Nat.mul_mod, h, ← Nat.mul_mod, two_mul, pow_add]
    cases hb : e.testBit k with
    | true =>
      simp only [if_true]
      rw [hs, hb, Bool.toNat_true, pow_succ, Nat.mod_mod, Nat.mul_mod (acc * acc % m), Nat.mod_mod, hsq,
        ← Nat.mul_mod]
    | false =>
      simp only [Bool.false_eq_true, if_false]
      rw [hs, hb, Bool.toNat_false, Nat.add_zero, Nat.mod_mod, hsq]

theorem powModBits_lt {m : Nat} (hm : 0 < m) (b e : Nat) : ∀ k acc, acc < m → powModBits m b e k acc < m := by
  intro k
  induction k with
  | zero => intro acc h; exact h
  | succ k ih =>
    intro acc h
    unfold powModBits
    apply ih
    split <;> exact Nat.mod_lt _ hm

/-- The evaluated power is the power (log entry 14). -/
theorem powMod_eq {m : Nat} (hm : 0 < m) (b e : Nat) : powMod m b e = b ^ e % m := by
  have h := powModBits_spec m b e (bitlen e) (1 % m) (by
    rw [Nat.shiftRight_eq_div_pow, Nat.div_eq_of_lt (lt_two_pow_bitlen e), pow_zero, Nat.mod_mod])
  rw [Nat.mod_eq_of_lt (powModBits_lt hm b e _ _ (Nat.mod_lt _ hm))] at h
  exact h

/-! ## Words of an element-width value (00_scope.md R16, 20_memory.md R75) -/

theorem wordOf_lt (x j : Nat) : wordOf x j < 2 ^ 64 := Nat.mod_lt _ (by decide)

theorem wordOf_testBit (x j i : Nat) : (wordOf x j).testBit i = (decide (i < 64) && x.testBit (64 * j + i)) := by
  unfold wordOf
  rw [Nat.testBit_mod_two_pow, Nat.testBit_div_two_pow]
  rw [Nat.add_comm]

/-- The value is its words (00_scope.md R16). -/
theorem mod_pow_succ_words (x j : Nat) :
    x % 2 ^ (64 * (j + 1)) = x % 2 ^ (64 * j) + wordOf x j * 2 ^ (64 * j) := by
  unfold wordOf
  rw [Nat.mul_add, Nat.mul_one, pow_add, Nat.mod_mul]
  ring

theorem withWord_split (x j : Nat) (v : Word) :
    withWord x j v = x % 2 ^ (64 * j) + 2 ^ (64 * j) * (v.toNat + 2 ^ 64 * (x / 2 ^ (64 * (j + 1)))) := by
  unfold withWord
  rw [Nat.mul_add, Nat.mul_one, pow_add]
  ring

theorem wordOf_withWord (x j : Nat) (v : Word) : wordOf (withWord x j v) j = v.toNat := by
  rw [withWord_split]
  unfold wordOf
  rw [Nat.add_mul_div_left _ _ (by positivity), Nat.div_eq_of_lt (Nat.mod_lt _ (by positivity)), Nat.zero_add,
    Nat.add_mul_mod_self_left, Nat.mod_eq_of_lt v.isLt]

theorem testBit_withWord (x j : Nat) (v : Word) (i : Nat) :
    (withWord x j v).testBit i =
      if i < 64 * j then x.testBit i else if i < 64 * j + 64 then v.toNat.testBit (i - 64 * j) else x.testBit i := by
  rw [withWord_split, Nat.add_comm, Nat.testBit_two_pow_mul_add _ (Nat.mod_lt _ (by positivity)),
    Nat.testBit_mod_two_pow]
  by_cases h1 : i < 64 * j
  · simp [h1]
  · simp only [h1, if_false]
    rw [Nat.add_comm v.toNat, Nat.testBit_two_pow_mul_add _ v.isLt]
    by_cases h2 : i < 64 * j + 64
    · have : i - 64 * j < 64 := by omega
      simp [h2, this]
    · have : ¬ (i - 64 * j < 64) := by omega
      simp only [h2, this, if_false]
      rw [Nat.testBit_div_two_pow]
      congr 1
      omega

theorem wordOf_withWord_of_ne (x : Nat) {j k : Nat} (h : k ≠ j) (v : Word) :
    wordOf (withWord x j v) k = wordOf x k := by
  apply Nat.eq_of_testBit_eq
  intro i
  rw [wordOf_testBit, wordOf_testBit, testBit_withWord]
  by_cases hi : i < 64
  · simp only [hi, decide_true, Bool.true_and]
    split
    · rfl
    · split
      · omega
      · rfl
  · simp [hi]

theorem withWord_lt {x n j : Nat} (v : Word) (hj : j < n) (hx : x < 2 ^ (64 * n)) :
    withWord x j v < 2 ^ (64 * n) := by
  have h1 : x / 2 ^ (64 * (j + 1)) < 2 ^ (64 * (n - (j + 1))) := by
    apply Nat.div_lt_of_lt_mul
    rw [← pow_add]
    have : 64 * (j + 1) + 64 * (n - (j + 1)) = 64 * n := by omega
    rwa [this]
  have h2 : x % 2 ^ (64 * j) < 2 ^ (64 * j) := Nat.mod_lt _ (by positivity)
  have h3 : v.toNat < 2 ^ 64 := v.isLt
  have h4 : 2 ^ (64 * n) = 2 ^ (64 * j) * (2 ^ 64 * 2 ^ (64 * (n - (j + 1)))) := by
    rw [← pow_add, ← pow_add]
    congr 1
    omega
  have h5 : v.toNat + 2 ^ 64 * (x / 2 ^ (64 * (j + 1))) + 1 ≤ 2 ^ 64 * 2 ^ (64 * (n - (j + 1))) := by
    have := Nat.mul_le_mul_left (2 ^ 64) (Nat.succ_le_of_lt h1)
    rw [Nat.succ_eq_add_one, Nat.mul_add] at this
    omega
  rw [withWord_split, h4]
  have h6 := Nat.mul_le_mul_left (2 ^ (64 * j)) h5
  rw [Nat.mul_add, Nat.mul_one] at h6
  omega

theorem valOfWords_lt (l : List Word) : valOfWords l < 2 ^ (64 * l.length) := by
  induction l with
  | nil => simp [valOfWords]
  | cons v rest ih =>
    have h3 : v.toNat < 2 ^ 64 := v.isLt
    have h4 : 2 ^ (64 * (v :: rest).length) = 2 ^ 64 * 2 ^ (64 * rest.length) := by
      rw [← pow_add, List.length_cons]
      congr 1
      omega
    have := Nat.mul_le_mul_left (2 ^ 64) (Nat.succ_le_of_lt ih)
    rw [Nat.succ_eq_add_one, Nat.mul_add] at this
    rw [h4, valOfWords]
    omega

/-! ## The adder and subtractor modulo m (42_modular_add.md R191 to R194) -/

theorem addMod_eq {m a b : Nat} (ha : a < m) (hb : b < m) : addMod m a b = (a + b) % m := by
  unfold addMod
  split
  · rw [Nat.mod_eq_sub_mod (by assumption), Nat.mod_eq_of_lt (by omega)]
  · rw [Nat.mod_eq_of_lt (by omega)]

theorem subMod_eq {m a b : Nat} (ha : a < m) (hb : b < m) : subMod m a b = (a + (m - b)) % m := by
  unfold subMod
  split
  · rw [Nat.mod_eq_of_lt (by omega)]
    omega
  · rw [Nat.mod_eq_sub_mod (by omega), Nat.mod_eq_of_lt (by omega)]
    omega

theorem negMod_eq {m x : Nat} (hx : x < m) : negMod m x = (m - x) % m := by
  unfold negMod
  split
  · subst_vars; simp
  · rw [Nat.mod_eq_of_lt (by omega)]

theorem dblMod_eq {m x : Nat} (hx : x < m) : dblMod m x = 2 * x % m := by
  have := addMod_eq hx hx
  rw [two_mul, ← this]
  unfold dblMod addMod
  rw [two_mul]

theorem dblMod_eq_addMod (m x : Nat) : dblMod m x = addMod m x x := by
  unfold dblMod addMod
  rw [two_mul]

theorem addMod_lt {m a b : Nat} (ha : a < m) (hb : b < m) : addMod m a b < m := by
  rw [addMod_eq ha hb]; exact Nat.mod_lt _ (by omega)

theorem subMod_lt {m a b : Nat} (ha : a < m) (hb : b < m) : subMod m a b < m := by
  rw [subMod_eq ha hb]; exact Nat.mod_lt _ (by omega)

theorem negMod_lt {m x : Nat} (hx : x < m) : negMod m x < m := by
  rw [negMod_eq hx]; exact Nat.mod_lt _ (by omega)

theorem dblMod_lt {m x : Nat} (hx : x < m) : dblMod m x < m := by
  rw [dblMod_eq hx]; exact Nat.mod_lt _ (by omega)

/-! ## The wrapped difference (00_scope.md R17) -/

theorem wrappedSub_lt (w a b : Nat) : wrappedSub w a b < 2 ^ w := Nat.mod_lt _ (by positivity)

/-- `wrappedSub` is the integer difference modulo 2^W. -/
theorem wrappedSub_int (w a b : Nat) : (wrappedSub w a b : Int) = ((a : Int) - b) % 2 ^ w := by
  unfold wrappedSub
  have hb : b % 2 ^ w ≤ 2 ^ w := le_of_lt (Nat.mod_lt _ (by positivity))
  push_cast [Nat.cast_sub hb]
  rw [Int.emod_eq_emod_iff_emod_sub_eq_zero]
  have : (a : Int) + (2 ^ w - (b : Int) % 2 ^ w) - (a - b) = 2 ^ w * (1 + (b : Int) / 2 ^ w) := by
    have := Int.emod_add_mul_ediv (b : Int) (2 ^ w)
    linarith
  rw [this]
  exact Int.mul_emod_right _ _

end Sys2Proof.Machine
end

