-- ==== Sys2Proof/Laws/Decode.lean ====
section
/-! SUPPORT. The fields of a word put together from fields (30_encoding.md R101, R111). -/

namespace Sys2Proof

theorem assemble_toNat {op : Nat} (h : op < 256) (rd rs1 rs2 : Reg) :
    (assemble op rd rs1 rs2).toNat = op + rd.val * 256 + rs1.val * 4096 + rs2.val * 65536 := by
  unfold assemble
  have := rd.isLt
  have := rs1.isLt
  have := rs2.isLt
  rw [BitVec.toNat_ofNat, Nat.mod_eq_of_lt] <;> omega

/-- Every field of an assembled word reads back. -/
theorem assemble_fields {op : Nat} (h : op < 256) (rd rs1 rs2 : Reg) :
    opField (assemble op rd rs1 rs2) = op ∧ rdField (assemble op rd rs1 rs2) = rd ∧
      rs1Field (assemble op rd rs1 rs2) = rs1 ∧ rs2Field (assemble op rd rs1 rs2) = rs2 ∧
      resField (assemble op rd rs1 rs2) = 0 := by
  have := rd.isLt
  have := rs1.isLt
  have := rs2.isLt
  unfold resField opField rdField rs1Field rs2Field
  simp only [assemble_toNat h, Fin.ext_iff]
  refine ⟨?_, ?_, ?_, ?_, ?_⟩ <;> omega

/-- A word whose reserved field is zero is put together from its own fields. -/
theorem assemble_of_fields {c : CmdWord} (h : resField c = 0) :
    assemble (opField c) (rdField c) (rs1Field c) (rs2Field c) = c := by
  apply BitVec.eq_of_toNat_eq
  have h8 : opField c < 256 := Nat.mod_lt _ (by decide)
  rw [assemble_toNat h8]
  unfold resField opField rdField rs1Field rs2Field at *
  have := c.isLt
  simp only
  omega

end Sys2Proof
end

