-- ==== Sys2Proof/Laws/State.lean ====
section
/-! SUPPORT. The state's fields after each update, one lemma per field and update, true by rfl: no later proof
unfolds a record update. Then the same for the two completions, the error and the reset. -/

namespace Sys2Proof.Machine.State

variable (s : State)

/-! ### setE -/

@[simp] theorem setE_cfg (r : Reg) (v : Nat) : (s.setE r v).cfg = s.cfg := rfl
@[simp] theorem setE_modIn (r : Reg) (v : Nat) : (s.setE r v).modIn = s.modIn := rfl
@[simp] theorem setE_genIn (r : Reg) (v : Nat) : (s.setE r v).genIn = s.genIn := rfl
@[simp] theorem setE_params (r : Reg) (v : Nat) : (s.setE r v).params = s.params := rfl
@[simp] theorem setE_flags (r : Reg) (v : Nat) : (s.setE r v).flags = s.flags := rfl
@[simp] theorem setE_status (r : Reg) (v : Nat) : (s.setE r v).status = s.status := rfl
@[simp] theorem setE_cmdCount (r : Reg) (v : Nat) : (s.setE r v).cmdCount = s.cmdCount := rfl
@[simp] theorem setE_pending (r : Reg) (v : Nat) : (s.setE r v).pending = s.pending := rfl
@[simp] theorem setE_agenda (r : Reg) (v : Nat) : (s.setE r v).agenda = s.agenda := rfl
@[simp] theorem setE_rng (r : Reg) (v : Nat) : (s.setE r v).rng = s.rng := rfl
@[simp] theorem setE_busyReads (r : Reg) (v : Nat) : (s.setE r v).busyReads = s.busyReads := rfl
@[simp] theorem setE_readData (r : Reg) (v : Nat) : (s.setE r v).readData = s.readData := rfl
theorem setE_reg (r : Reg) (v : Nat) (q : Reg) : (s.setE r v).reg q = if r = q then v else s.reg q := by
  simp only [reg, setE, Vector.getElem_set, Fin.ext_iff]
@[simp] theorem setE_reg_same (r : Reg) (v : Nat) : (s.setE r v).reg r = v := by simp [setE_reg]
@[simp] theorem setE_reg_of_ne (r q : Reg) (v : Nat) (h : r ≠ q) : (s.setE r v).reg q = s.reg q := by
  simp [setE_reg, h]

/-! ### setModIn -/

@[simp] theorem setModIn_cfg (v : Nat) : (s.setModIn v).cfg = s.cfg := rfl
@[simp] theorem setModIn_e (v : Nat) : (s.setModIn v).e = s.e := rfl
@[simp] theorem setModIn_modIn (v : Nat) : (s.setModIn v).modIn = v := rfl
@[simp] theorem setModIn_genIn (v : Nat) : (s.setModIn v).genIn = s.genIn := rfl
@[simp] theorem setModIn_params (v : Nat) : (s.setModIn v).params = s.params := rfl
@[simp] theorem setModIn_flags (v : Nat) : (s.setModIn v).flags = s.flags := rfl
@[simp] theorem setModIn_status (v : Nat) : (s.setModIn v).status = s.status := rfl
@[simp] theorem setModIn_cmdCount (v : Nat) : (s.setModIn v).cmdCount = s.cmdCount := rfl
@[simp] theorem setModIn_pending (v : Nat) : (s.setModIn v).pending = s.pending := rfl
@[simp] theorem setModIn_agenda (v : Nat) : (s.setModIn v).agenda = s.agenda := rfl
@[simp] theorem setModIn_rng (v : Nat) : (s.setModIn v).rng = s.rng := rfl
@[simp] theorem setModIn_busyReads (v : Nat) : (s.setModIn v).busyReads = s.busyReads := rfl
@[simp] theorem setModIn_readData (v : Nat) : (s.setModIn v).readData = s.readData := rfl
@[simp] theorem setModIn_reg (v : Nat) (q : Reg) : (s.setModIn v).reg q = s.reg q := rfl

/-! ### setGenIn -/

@[simp] theorem setGenIn_cfg (v : Nat) : (s.setGenIn v).cfg = s.cfg := rfl
@[simp] theorem setGenIn_e (v : Nat) : (s.setGenIn v).e = s.e := rfl
@[simp] theorem setGenIn_modIn (v : Nat) : (s.setGenIn v).modIn = s.modIn := rfl
@[simp] theorem setGenIn_genIn (v : Nat) : (s.setGenIn v).genIn = v := rfl
@[simp] theorem setGenIn_params (v : Nat) : (s.setGenIn v).params = s.params := rfl
@[simp] theorem setGenIn_flags (v : Nat) : (s.setGenIn v).flags = s.flags := rfl
@[simp] theorem setGenIn_status (v : Nat) : (s.setGenIn v).status = s.status := rfl
@[simp] theorem setGenIn_cmdCount (v : Nat) : (s.setGenIn v).cmdCount = s.cmdCount := rfl
@[simp] theorem setGenIn_pending (v : Nat) : (s.setGenIn v).pending = s.pending := rfl
@[simp] theorem setGenIn_agenda (v : Nat) : (s.setGenIn v).agenda = s.agenda := rfl
@[simp] theorem setGenIn_rng (v : Nat) : (s.setGenIn v).rng = s.rng := rfl
@[simp] theorem setGenIn_busyReads (v : Nat) : (s.setGenIn v).busyReads = s.busyReads := rfl
@[simp] theorem setGenIn_readData (v : Nat) : (s.setGenIn v).readData = s.readData := rfl
@[simp] theorem setGenIn_reg (v : Nat) (q : Reg) : (s.setGenIn v).reg q = s.reg q := rfl

/-! ### setParams -/

@[simp] theorem setParams_cfg (v : Params) : (s.setParams v).cfg = s.cfg := rfl
@[simp] theorem setParams_e (v : Params) : (s.setParams v).e = s.e := rfl
@[simp] theorem setParams_modIn (v : Params) : (s.setParams v).modIn = s.modIn := rfl
@[simp] theorem setParams_genIn (v : Params) : (s.setParams v).genIn = s.genIn := rfl
@[simp] theorem setParams_params (v : Params) : (s.setParams v).params = v := rfl
@[simp] theorem setParams_flags (v : Params) : (s.setParams v).flags = s.flags := rfl
@[simp] theorem setParams_status (v : Params) : (s.setParams v).status = s.status := rfl
@[simp] theorem setParams_cmdCount (v : Params) : (s.setParams v).cmdCount = s.cmdCount := rfl
@[simp] theorem setParams_pending (v : Params) : (s.setParams v).pending = s.pending := rfl
@[simp] theorem setParams_agenda (v : Params) : (s.setParams v).agenda = s.agenda := rfl
@[simp] theorem setParams_rng (v : Params) : (s.setParams v).rng = s.rng := rfl
@[simp] theorem setParams_busyReads (v : Params) : (s.setParams v).busyReads = s.busyReads := rfl
@[simp] theorem setParams_readData (v : Params) : (s.setParams v).readData = s.readData := rfl
@[simp] theorem setParams_reg (v : Params) (q : Reg) : (s.setParams v).reg q = s.reg q := rfl

/-! ### setFlags -/

@[simp] theorem setFlags_cfg (v : Flags) : (s.setFlags v).cfg = s.cfg := rfl
@[simp] theorem setFlags_e (v : Flags) : (s.setFlags v).e = s.e := rfl
@[simp] theorem setFlags_modIn (v : Flags) : (s.setFlags v).modIn = s.modIn := rfl
@[simp] theorem setFlags_genIn (v : Flags) : (s.setFlags v).genIn = s.genIn := rfl
@[simp] theorem setFlags_params (v : Flags) : (s.setFlags v).params = s.params := rfl
@[simp] theorem setFlags_flags (v : Flags) : (s.setFlags v).flags = v := rfl
@[simp] theorem setFlags_status (v : Flags) : (s.setFlags v).status = s.status := rfl
@[simp] theorem setFlags_cmdCount (v : Flags) : (s.setFlags v).cmdCount = s.cmdCount := rfl
@[simp] theorem setFlags_pending (v : Flags) : (s.setFlags v).pending = s.pending := rfl
@[simp] theorem setFlags_agenda (v : Flags) : (s.setFlags v).agenda = s.agenda := rfl
@[simp] theorem setFlags_rng (v : Flags) : (s.setFlags v).rng = s.rng := rfl
@[simp] theorem setFlags_busyReads (v : Flags) : (s.setFlags v).busyReads = s.busyReads := rfl
@[simp] theorem setFlags_readData (v : Flags) : (s.setFlags v).readData = s.readData := rfl
@[simp] theorem setFlags_reg (v : Flags) (q : Reg) : (s.setFlags v).reg q = s.reg q := rfl

/-! ### setStatus -/

@[simp] theorem setStatus_cfg (v : Status) : (s.setStatus v).cfg = s.cfg := rfl
@[simp] theorem setStatus_e (v : Status) : (s.setStatus v).e = s.e := rfl
@[simp] theorem setStatus_modIn (v : Status) : (s.setStatus v).modIn = s.modIn := rfl
@[simp] theorem setStatus_genIn (v : Status) : (s.setStatus v).genIn = s.genIn := rfl
@[simp] theorem setStatus_params (v : Status) : (s.setStatus v).params = s.params := rfl
@[simp] theorem setStatus_flags (v : Status) : (s.setStatus v).flags = s.flags := rfl
@[simp] theorem setStatus_status (v : Status) : (s.setStatus v).status = v := rfl
@[simp] theorem setStatus_cmdCount (v : Status) : (s.setStatus v).cmdCount = s.cmdCount := rfl
@[simp] theorem setStatus_pending (v : Status) : (s.setStatus v).pending = s.pending := rfl
@[simp] theorem setStatus_agenda (v : Status) : (s.setStatus v).agenda = s.agenda := rfl
@[simp] theorem setStatus_rng (v : Status) : (s.setStatus v).rng = s.rng := rfl
@[simp] theorem setStatus_busyReads (v : Status) : (s.setStatus v).busyReads = s.busyReads := rfl
@[simp] theorem setStatus_readData (v : Status) : (s.setStatus v).readData = s.readData := rfl
@[simp] theorem setStatus_reg (v : Status) (q : Reg) : (s.setStatus v).reg q = s.reg q := rfl

/-! ### setCmdCount -/

@[simp] theorem setCmdCount_cfg (v : Word) : (s.setCmdCount v).cfg = s.cfg := rfl
@[simp] theorem setCmdCount_e (v : Word) : (s.setCmdCount v).e = s.e := rfl
@[simp] theorem setCmdCount_modIn (v : Word) : (s.setCmdCount v).modIn = s.modIn := rfl
@[simp] theorem setCmdCount_genIn (v : Word) : (s.setCmdCount v).genIn = s.genIn := rfl
@[simp] theorem setCmdCount_params (v : Word) : (s.setCmdCount v).params = s.params := rfl
@[simp] theorem setCmdCount_flags (v : Word) : (s.setCmdCount v).flags = s.flags := rfl
@[simp] theorem setCmdCount_status (v : Word) : (s.setCmdCount v).status = s.status := rfl
@[simp] theorem setCmdCount_cmdCount (v : Word) : (s.setCmdCount v).cmdCount = v := rfl
@[simp] theorem setCmdCount_pending (v : Word) : (s.setCmdCount v).pending = s.pending := rfl
@[simp] theorem setCmdCount_agenda (v : Word) : (s.setCmdCount v).agenda = s.agenda := rfl
@[simp] theorem setCmdCount_rng (v : Word) : (s.setCmdCount v).rng = s.rng := rfl
@[simp] theorem setCmdCount_busyReads (v : Word) : (s.setCmdCount v).busyReads = s.busyReads := rfl
@[simp] theorem setCmdCount_readData (v : Word) : (s.setCmdCount v).readData = s.readData := rfl
@[simp] theorem setCmdCount_reg (v : Word) (q : Reg) : (s.setCmdCount v).reg q = s.reg q := rfl

/-! ### setPending -/

@[simp] theorem setPending_cfg (v : CmdWord) : (s.setPending v).cfg = s.cfg := rfl
@[simp] theorem setPending_e (v : CmdWord) : (s.setPending v).e = s.e := rfl
@[simp] theorem setPending_modIn (v : CmdWord) : (s.setPending v).modIn = s.modIn := rfl
@[simp] theorem setPending_genIn (v : CmdWord) : (s.setPending v).genIn = s.genIn := rfl
@[simp] theorem setPending_params (v : CmdWord) : (s.setPending v).params = s.params := rfl
@[simp] theorem setPending_flags (v : CmdWord) : (s.setPending v).flags = s.flags := rfl
@[simp] theorem setPending_status (v : CmdWord) : (s.setPending v).status = s.status := rfl
@[simp] theorem setPending_cmdCount (v : CmdWord) : (s.setPending v).cmdCount = s.cmdCount := rfl
@[simp] theorem setPending_pending (v : CmdWord) : (s.setPending v).pending = v := rfl
@[simp] theorem setPending_agenda (v : CmdWord) : (s.setPending v).agenda = s.agenda := rfl
@[simp] theorem setPending_rng (v : CmdWord) : (s.setPending v).rng = s.rng := rfl
@[simp] theorem setPending_busyReads (v : CmdWord) : (s.setPending v).busyReads = s.busyReads := rfl
@[simp] theorem setPending_readData (v : CmdWord) : (s.setPending v).readData = s.readData := rfl
@[simp] theorem setPending_reg (v : CmdWord) (q : Reg) : (s.setPending v).reg q = s.reg q := rfl

/-! ### setAgenda -/

@[simp] theorem setAgenda_cfg (v : List Event) : (s.setAgenda v).cfg = s.cfg := rfl
@[simp] theorem setAgenda_e (v : List Event) : (s.setAgenda v).e = s.e := rfl
@[simp] theorem setAgenda_modIn (v : List Event) : (s.setAgenda v).modIn = s.modIn := rfl
@[simp] theorem setAgenda_genIn (v : List Event) : (s.setAgenda v).genIn = s.genIn := rfl
@[simp] theorem setAgenda_params (v : List Event) : (s.setAgenda v).params = s.params := rfl
@[simp] theorem setAgenda_flags (v : List Event) : (s.setAgenda v).flags = s.flags := rfl
@[simp] theorem setAgenda_status (v : List Event) : (s.setAgenda v).status = s.status := rfl
@[simp] theorem setAgenda_cmdCount (v : List Event) : (s.setAgenda v).cmdCount = s.cmdCount := rfl
@[simp] theorem setAgenda_pending (v : List Event) : (s.setAgenda v).pending = s.pending := rfl
@[simp] theorem setAgenda_agenda (v : List Event) : (s.setAgenda v).agenda = v := rfl
@[simp] theorem setAgenda_rng (v : List Event) : (s.setAgenda v).rng = s.rng := rfl
@[simp] theorem setAgenda_busyReads (v : List Event) : (s.setAgenda v).busyReads = s.busyReads := rfl
@[simp] theorem setAgenda_readData (v : List Event) : (s.setAgenda v).readData = s.readData := rfl
@[simp] theorem setAgenda_reg (v : List Event) (q : Reg) : (s.setAgenda v).reg q = s.reg q := rfl

/-! ### setRng -/

@[simp] theorem setRng_cfg (v : Rng) : (s.setRng v).cfg = s.cfg := rfl
@[simp] theorem setRng_e (v : Rng) : (s.setRng v).e = s.e := rfl
@[simp] theorem setRng_modIn (v : Rng) : (s.setRng v).modIn = s.modIn := rfl
@[simp] theorem setRng_genIn (v : Rng) : (s.setRng v).genIn = s.genIn := rfl
@[simp] theorem setRng_params (v : Rng) : (s.setRng v).params = s.params := rfl
@[simp] theorem setRng_flags (v : Rng) : (s.setRng v).flags = s.flags := rfl
@[simp] theorem setRng_status (v : Rng) : (s.setRng v).status = s.status := rfl
@[simp] theorem setRng_cmdCount (v : Rng) : (s.setRng v).cmdCount = s.cmdCount := rfl
@[simp] theorem setRng_pending (v : Rng) : (s.setRng v).pending = s.pending := rfl
@[simp] theorem setRng_agenda (v : Rng) : (s.setRng v).agenda = s.agenda := rfl
@[simp] theorem setRng_rng (v : Rng) : (s.setRng v).rng = v := rfl
@[simp] theorem setRng_busyReads (v : Rng) : (s.setRng v).busyReads = s.busyReads := rfl
@[simp] theorem setRng_readData (v : Rng) : (s.setRng v).readData = s.readData := rfl
@[simp] theorem setRng_reg (v : Rng) (q : Reg) : (s.setRng v).reg q = s.reg q := rfl

/-! ### setBusyReads -/

@[simp] theorem setBusyReads_cfg (v : Nat) : (s.setBusyReads v).cfg = s.cfg := rfl
@[simp] theorem setBusyReads_e (v : Nat) : (s.setBusyReads v).e = s.e := rfl
@[simp] theorem setBusyReads_modIn (v : Nat) : (s.setBusyReads v).modIn = s.modIn := rfl
@[simp] theorem setBusyReads_genIn (v : Nat) : (s.setBusyReads v).genIn = s.genIn := rfl
@[simp] theorem setBusyReads_params (v : Nat) : (s.setBusyReads v).params = s.params := rfl
@[simp] theorem setBusyReads_flags (v : Nat) : (s.setBusyReads v).flags = s.flags := rfl
@[simp] theorem setBusyReads_status (v : Nat) : (s.setBusyReads v).status = s.status := rfl
@[simp] theorem setBusyReads_cmdCount (v : Nat) : (s.setBusyReads v).cmdCount = s.cmdCount := rfl
@[simp] theorem setBusyReads_pending (v : Nat) : (s.setBusyReads v).pending = s.pending := rfl
@[simp] theorem setBusyReads_agenda (v : Nat) : (s.setBusyReads v).agenda = s.agenda := rfl
@[simp] theorem setBusyReads_rng (v : Nat) : (s.setBusyReads v).rng = s.rng := rfl
@[simp] theorem setBusyReads_busyReads (v : Nat) : (s.setBusyReads v).busyReads = v := rfl
@[simp] theorem setBusyReads_readData (v : Nat) : (s.setBusyReads v).readData = s.readData := rfl
@[simp] theorem setBusyReads_reg (v : Nat) (q : Reg) : (s.setBusyReads v).reg q = s.reg q := rfl

/-! ### setReadData -/

@[simp] theorem setReadData_cfg (v : Word) : (s.setReadData v).cfg = s.cfg := rfl
@[simp] theorem setReadData_e (v : Word) : (s.setReadData v).e = s.e := rfl
@[simp] theorem setReadData_modIn (v : Word) : (s.setReadData v).modIn = s.modIn := rfl
@[simp] theorem setReadData_genIn (v : Word) : (s.setReadData v).genIn = s.genIn := rfl
@[simp] theorem setReadData_params (v : Word) : (s.setReadData v).params = s.params := rfl
@[simp] theorem setReadData_flags (v : Word) : (s.setReadData v).flags = s.flags := rfl
@[simp] theorem setReadData_status (v : Word) : (s.setReadData v).status = s.status := rfl
@[simp] theorem setReadData_cmdCount (v : Word) : (s.setReadData v).cmdCount = s.cmdCount := rfl
@[simp] theorem setReadData_pending (v : Word) : (s.setReadData v).pending = s.pending := rfl
@[simp] theorem setReadData_agenda (v : Word) : (s.setReadData v).agenda = s.agenda := rfl
@[simp] theorem setReadData_rng (v : Word) : (s.setReadData v).rng = s.rng := rfl
@[simp] theorem setReadData_busyReads (v : Word) : (s.setReadData v).busyReads = s.busyReads := rfl
@[simp] theorem setReadData_readData (v : Word) : (s.setReadData v).readData = v := rfl
@[simp] theorem setReadData_reg (v : Word) (q : Reg) : (s.setReadData v).reg q = s.reg q := rfl

/-! ### loadParams and clearParams -/

@[simp] theorem loadParams_cfg (p : Params) : (s.loadParams p).cfg = s.cfg := rfl
@[simp] theorem loadParams_e (p : Params) : (s.loadParams p).e = s.e := rfl
@[simp] theorem loadParams_modIn (p : Params) : (s.loadParams p).modIn = s.modIn := rfl
@[simp] theorem loadParams_genIn (p : Params) : (s.loadParams p).genIn = s.genIn := rfl
@[simp] theorem loadParams_params (p : Params) : (s.loadParams p).params = p := rfl
@[simp] theorem loadParams_flags (p : Params) : (s.loadParams p).flags = s.flags := rfl
@[simp] theorem loadParams_status (p : Params) : (s.loadParams p).status = { s.status with pv := true } := rfl
@[simp] theorem loadParams_cmdCount (p : Params) : (s.loadParams p).cmdCount = s.cmdCount := rfl
@[simp] theorem loadParams_pending (p : Params) : (s.loadParams p).pending = s.pending := rfl
@[simp] theorem loadParams_agenda (p : Params) : (s.loadParams p).agenda = s.agenda := rfl
@[simp] theorem loadParams_rng (p : Params) : (s.loadParams p).rng = s.rng := rfl
@[simp] theorem loadParams_busyReads (p : Params) : (s.loadParams p).busyReads = s.busyReads := rfl
@[simp] theorem loadParams_readData (p : Params) : (s.loadParams p).readData = s.readData := rfl
@[simp] theorem loadParams_reg (p : Params) (q : Reg) : (s.loadParams p).reg q = s.reg q := rfl
@[simp] theorem clearParams_cfg : (s.clearParams).cfg = s.cfg := rfl
@[simp] theorem clearParams_e : (s.clearParams).e = s.e := rfl
@[simp] theorem clearParams_modIn : (s.clearParams).modIn = s.modIn := rfl
@[simp] theorem clearParams_genIn : (s.clearParams).genIn = s.genIn := rfl
@[simp] theorem clearParams_params : (s.clearParams).params = Params.zero := rfl
@[simp] theorem clearParams_flags : (s.clearParams).flags = s.flags := rfl
@[simp] theorem clearParams_status : (s.clearParams).status = { s.status with pv := false } := rfl
@[simp] theorem clearParams_cmdCount : (s.clearParams).cmdCount = s.cmdCount := rfl
@[simp] theorem clearParams_pending : (s.clearParams).pending = s.pending := rfl
@[simp] theorem clearParams_agenda : (s.clearParams).agenda = s.agenda := rfl
@[simp] theorem clearParams_rng : (s.clearParams).rng = s.rng := rfl
@[simp] theorem clearParams_busyReads : (s.clearParams).busyReads = s.busyReads := rfl
@[simp] theorem clearParams_readData : (s.clearParams).readData = s.readData := rfl
@[simp] theorem clearParams_reg (q : Reg) : (s.clearParams).reg q = s.reg q := rfl

/-! ### Completion with success (60_exceptions.md R302) -/

@[simp] theorem succeed_cfg : (s.succeed).cfg = s.cfg := rfl
@[simp] theorem succeed_e : (s.succeed).e = s.e := rfl
@[simp] theorem succeed_modIn : (s.succeed).modIn = s.modIn := rfl
@[simp] theorem succeed_genIn : (s.succeed).genIn = s.genIn := rfl
@[simp] theorem succeed_params : (s.succeed).params = s.params := rfl
@[simp] theorem succeed_flags : (s.succeed).flags = s.flags := rfl
@[simp] theorem succeed_status : (s.succeed).status = { s.status with busy := false, ecode := .none } := rfl
@[simp] theorem succeed_cmdCount : (s.succeed).cmdCount = s.cmdCount + 1 := rfl
@[simp] theorem succeed_pending : (s.succeed).pending = s.pending := rfl
@[simp] theorem succeed_agenda : (s.succeed).agenda = s.agenda := rfl
@[simp] theorem succeed_rng : (s.succeed).rng = s.rng := rfl
@[simp] theorem succeed_busyReads : (s.succeed).busyReads = s.busyReads := rfl
@[simp] theorem succeed_readData : (s.succeed).readData = s.readData := rfl
@[simp] theorem succeed_reg (q : Reg) : (s.succeed).reg q = s.reg q := rfl

/-! ### Completion with an error (60_exceptions.md R302, R307) -/

@[simp] theorem fail_cfg (c : ErrorCode) : (s.fail c).cfg = s.cfg := by
  unfold fail; split <;> rfl
@[simp] theorem fail_e (c : ErrorCode) : (s.fail c).e = s.e := by
  unfold fail; split <;> rfl
@[simp] theorem fail_modIn (c : ErrorCode) : (s.fail c).modIn = s.modIn := by
  unfold fail; split <;> rfl
@[simp] theorem fail_genIn (c : ErrorCode) : (s.fail c).genIn = s.genIn := by
  unfold fail; split <;> rfl
@[simp] theorem fail_flags (c : ErrorCode) : (s.fail c).flags = s.flags := by
  unfold fail; split <;> rfl
@[simp] theorem fail_cmdCount (c : ErrorCode) : (s.fail c).cmdCount = s.cmdCount + 1 := by
  unfold fail; split <;> rfl
@[simp] theorem fail_pending (c : ErrorCode) : (s.fail c).pending = s.pending := by
  unfold fail; split <;> rfl
@[simp] theorem fail_agenda (c : ErrorCode) : (s.fail c).agenda = s.agenda := by
  unfold fail; split <;> rfl
@[simp] theorem fail_rng (c : ErrorCode) : (s.fail c).rng = s.rng := by
  unfold fail; split <;> rfl
@[simp] theorem fail_busyReads (c : ErrorCode) : (s.fail c).busyReads = s.busyReads := by
  unfold fail; split <;> rfl
@[simp] theorem fail_readData (c : ErrorCode) : (s.fail c).readData = s.readData := by
  unfold fail; split <;> rfl
@[simp] theorem fail_reg (c : ErrorCode) (q : Reg) : (s.fail c).reg q = s.reg q := by
  unfold fail; split <;> rfl
@[simp] theorem fail_params (c : ErrorCode) :
    (s.fail c).params = if c = .invalidModulus then Params.zero else s.params := by
  unfold fail; split <;> rfl
@[simp] theorem fail_status (c : ErrorCode) :
    (s.fail c).status = { s.status with
      busy := false, err := true, ecode := c, pv := if c = .invalidModulus then false else s.status.pv } := by
  unfold fail; split <;> rfl

/-! ### Status-only updates: everything but STATUS is as before -/

@[simp] theorem ackStatus_cfg (v : Word) : (s.ackStatus v).cfg = s.cfg := rfl
@[simp] theorem ackStatus_e (v : Word) : (s.ackStatus v).e = s.e := rfl
@[simp] theorem ackStatus_modIn (v : Word) : (s.ackStatus v).modIn = s.modIn := rfl
@[simp] theorem ackStatus_genIn (v : Word) : (s.ackStatus v).genIn = s.genIn := rfl
@[simp] theorem ackStatus_params (v : Word) : (s.ackStatus v).params = s.params := rfl
@[simp] theorem ackStatus_flags (v : Word) : (s.ackStatus v).flags = s.flags := rfl
@[simp] theorem ackStatus_status (v : Word) : (s.ackStatus v).status = { s.status with err := s.status.err && !v.getLsbD 2, ovr := s.status.ovr && !v.getLsbD 3, badacc := s.status.badacc && !v.getLsbD 4 } := rfl
@[simp] theorem ackStatus_cmdCount (v : Word) : (s.ackStatus v).cmdCount = s.cmdCount := rfl
@[simp] theorem ackStatus_pending (v : Word) : (s.ackStatus v).pending = s.pending := rfl
@[simp] theorem ackStatus_agenda (v : Word) : (s.ackStatus v).agenda = s.agenda := rfl
@[simp] theorem ackStatus_rng (v : Word) : (s.ackStatus v).rng = s.rng := rfl
@[simp] theorem ackStatus_busyReads (v : Word) : (s.ackStatus v).busyReads = s.busyReads := rfl
@[simp] theorem ackStatus_readData (v : Word) : (s.ackStatus v).readData = s.readData := rfl
@[simp] theorem ackStatus_reg (v : Word) (q : Reg) : (s.ackStatus v).reg q = s.reg q := rfl
@[simp] theorem noteBadAccess_cfg : (s.noteBadAccess).cfg = s.cfg := rfl
@[simp] theorem noteBadAccess_e : (s.noteBadAccess).e = s.e := rfl
@[simp] theorem noteBadAccess_modIn : (s.noteBadAccess).modIn = s.modIn := rfl
@[simp] theorem noteBadAccess_genIn : (s.noteBadAccess).genIn = s.genIn := rfl
@[simp] theorem noteBadAccess_params : (s.noteBadAccess).params = s.params := rfl
@[simp] theorem noteBadAccess_flags : (s.noteBadAccess).flags = s.flags := rfl
@[simp] theorem noteBadAccess_status : (s.noteBadAccess).status = { s.status with badacc := true } := rfl
@[simp] theorem noteBadAccess_cmdCount : (s.noteBadAccess).cmdCount = s.cmdCount := rfl
@[simp] theorem noteBadAccess_pending : (s.noteBadAccess).pending = s.pending := rfl
@[simp] theorem noteBadAccess_agenda : (s.noteBadAccess).agenda = s.agenda := rfl
@[simp] theorem noteBadAccess_rng : (s.noteBadAccess).rng = s.rng := rfl
@[simp] theorem noteBadAccess_busyReads : (s.noteBadAccess).busyReads = s.busyReads := rfl
@[simp] theorem noteBadAccess_readData : (s.noteBadAccess).readData = s.readData := rfl
@[simp] theorem noteBadAccess_reg (q : Reg) : (s.noteBadAccess).reg q = s.reg q := rfl
@[simp] theorem noteOverrun_cfg : (s.noteOverrun).cfg = s.cfg := rfl
@[simp] theorem noteOverrun_e : (s.noteOverrun).e = s.e := rfl
@[simp] theorem noteOverrun_modIn : (s.noteOverrun).modIn = s.modIn := rfl
@[simp] theorem noteOverrun_genIn : (s.noteOverrun).genIn = s.genIn := rfl
@[simp] theorem noteOverrun_params : (s.noteOverrun).params = s.params := rfl
@[simp] theorem noteOverrun_flags : (s.noteOverrun).flags = s.flags := rfl
@[simp] theorem noteOverrun_status : (s.noteOverrun).status = { s.status with ovr := true } := rfl
@[simp] theorem noteOverrun_cmdCount : (s.noteOverrun).cmdCount = s.cmdCount := rfl
@[simp] theorem noteOverrun_pending : (s.noteOverrun).pending = s.pending := rfl
@[simp] theorem noteOverrun_agenda : (s.noteOverrun).agenda = s.agenda := rfl
@[simp] theorem noteOverrun_rng : (s.noteOverrun).rng = s.rng := rfl
@[simp] theorem noteOverrun_busyReads : (s.noteOverrun).busyReads = s.busyReads := rfl
@[simp] theorem noteOverrun_readData : (s.noteOverrun).readData = s.readData := rfl
@[simp] theorem noteOverrun_reg (q : Reg) : (s.noteOverrun).reg q = s.reg q := rfl
@[simp] theorem acceptCommand_cfg (v : Word) : (s.acceptCommand v).cfg = s.cfg := rfl
@[simp] theorem acceptCommand_e (v : Word) : (s.acceptCommand v).e = s.e := rfl
@[simp] theorem acceptCommand_modIn (v : Word) : (s.acceptCommand v).modIn = s.modIn := rfl
@[simp] theorem acceptCommand_genIn (v : Word) : (s.acceptCommand v).genIn = s.genIn := rfl
@[simp] theorem acceptCommand_params (v : Word) : (s.acceptCommand v).params = s.params := rfl
@[simp] theorem acceptCommand_flags (v : Word) : (s.acceptCommand v).flags = s.flags := rfl
@[simp] theorem acceptCommand_status (v : Word) : (s.acceptCommand v).status = { s.status with busy := true } := rfl
@[simp] theorem acceptCommand_cmdCount (v : Word) : (s.acceptCommand v).cmdCount = s.cmdCount := rfl
@[simp] theorem acceptCommand_pending (v : Word) : (s.acceptCommand v).pending = v.setWidth 32 := rfl
@[simp] theorem acceptCommand_agenda (v : Word) : (s.acceptCommand v).agenda = s.agenda := rfl
@[simp] theorem acceptCommand_rng (v : Word) : (s.acceptCommand v).rng = s.rng := rfl
@[simp] theorem acceptCommand_busyReads (v : Word) : (s.acceptCommand v).busyReads = s.busyReads := rfl
@[simp] theorem acceptCommand_readData (v : Word) : (s.acceptCommand v).readData = s.readData := rfl
@[simp] theorem acceptCommand_reg (v : Word) (q : Reg) : (s.acceptCommand v).reg q = s.reg q := rfl

/-! ### Reset (70_reset_and_hazards.md R340) -/

@[simp] theorem afterReset_reg (c : Config) (l : List Event) (g : Rng) (k : Nat) (v : Word) (q : Reg) :
    (afterReset c l g k v).reg q = 0 := by
  simp [reg, afterReset]

/-- Two states with the same fields are the same. -/
theorem ext_fields (t : State) (hcfg : s.cfg = t.cfg) (he : ∀ q, s.reg q = t.reg q) (hmod : s.modIn = t.modIn)
    (hgen : s.genIn = t.genIn) (hpar : s.params = t.params) (hfl : s.flags = t.flags)
    (hst : s.status = t.status) (hcc : s.cmdCount = t.cmdCount) (hpe : s.pending = t.pending)
    (hag : s.agenda = t.agenda) (hrng : s.rng = t.rng) (hbr : s.busyReads = t.busyReads)
    (hrd : s.readData = t.readData) : s = t := by
  obtain ⟨c, e⟩ := s
  obtain ⟨c', e'⟩ := t
  have : e = e' := by
    ext i hi
    exact he ⟨i, hi⟩
  subst this
  simp_all

end Sys2Proof.Machine.State
end

