-- ==== Sys2Proof/Laws/HostPort.lean ====
section
/-! SUPPORT. One lemma for each operation of the HOST's port: which words the register map has, and everything a
HOST read and a HOST write can do (20_memory.md R73 to R84). -/

namespace Sys2Proof.Machine

/-- A mapped word of an element-width register is one of its N words (20_memory.md R73). -/
theorem mapTarget_word_lt {n o : Nat} {t : Target} (h : mapTarget n o = some t) :
    (∀ r j, t = .elem r j → j < n) ∧ (∀ j, t = .modIn j → j < n) ∧ (∀ j, t = .genIn j → j < n) ∧
      ∀ k j, t = .wide k j → j < n := by
  unfold mapTarget at h
  simp only at h
  repeat' split at h
  all_goals (cases h <;> refine ⟨?_, ?_, ?_, ?_⟩ <;> intros <;> simp_all)

/-- Only offset 0x0018 is CMD (20_memory.md R74). -/
theorem offset_of_mapTarget_cmd {n o : Nat} (h : mapTarget n o = some .cmd) : o = 0x0018 := by
  unfold mapTarget at h
  simp only at h
  repeat' split at h
  all_goals first | assumption | cases h

/-- Everything a HOST read can do: the read port, the model's counter of unspecified reads, BADACC
(20_memory.md R76, R79, R80, R84). -/
theorem hostRead_effect (s : State) (width : Nat) (o : Offset) :
    ∃ v n b, s.hostRead width o =
      ((s.setReadData v).setBusyReads n).setStatus { s.status with badacc := b } := by
  unfold State.hostRead
  split
  · exact ⟨0, s.busyReads, true, rfl⟩
  · rename_i t _
    split
    · exact ⟨Config.busyRead s.busyReads, s.busyReads + 1, s.status.badacc, rfl⟩
    · exact ⟨s.peek t, s.busyReads, s.status.badacc, rfl⟩

/-- Everything a HOST write can do (20_memory.md R75, R77, R80, R84): sticky bits of STATUS, busy or not; a word
of an element or staging register, or an accepted command, outside the busy window. -/
inductive WriteEffect (s : State) : State → Prop
  | sticky (err ovr badacc : Bool) :
      WriteEffect s (s.setStatus { s.status with err := err, ovr := ovr, badacc := badacc })
  | element (r : Reg) (j : Nat) (v : Word) (hb : s.status.busy = false) (hj : j < s.cfg.n) :
      WriteEffect s (s.setE r (withWord (s.reg r) j v))
  | modIn (j : Nat) (v : Word) (hb : s.status.busy = false) (hj : j < s.cfg.n) :
      WriteEffect s (s.setModIn (withWord s.modIn j v))
  | genIn (j : Nat) (v : Word) (hb : s.status.busy = false) (hj : j < s.cfg.n) :
      WriteEffect s (s.setGenIn (withWord s.genIn j v))
  | command (v : Word) (hb : s.status.busy = false) :
      WriteEffect s ((s.setPending (v.setWidth 32)).setStatus { s.status with busy := true })

theorem hostWrite_effect (s : State) (width : Nat) (o : Offset) (v : Word) :
    WriteEffect s (s.hostWrite width o v) := by
  unfold State.hostWrite
  split
  · exact .sticky s.status.err s.status.ovr true
  · rename_i t ht
    unfold accessTarget at ht
    split at ht
    · simp at ht
    obtain ⟨h1, h2, h3, -⟩ := mapTarget_word_lt ht
    split
    · exact .sticky s.status.err s.status.ovr true
    · split
      · exact .sticky s.status.err true s.status.badacc
      · rename_i hro hb
        cases t <;> simp [Target.readOnly] at hro hb
        · exact .sticky _ _ _
        · exact .command v hb
        · exact .modIn _ v hb (h2 _ rfl)
        · exact .genIn _ v hb (h3 _ rfl)
        · exact .element _ _ v hb (h1 _ _ rfl)

/-- Only an 8-byte write at CMD's offset makes the ENGINE busy (10_state.md R49). -/
theorem busy_of_hostWrite {s : State} {width : Nat} {o : Offset} {v : Word} (hb : s.status.busy = false)
    (h : (s.hostWrite width o v).status.busy = true) : width = 8 ∧ o = 0x0018 := by
  unfold State.hostWrite at h
  split at h
  · simp [State.noteBadAccess, hb] at h
  · rename_i t ht
    unfold accessTarget at ht
    split at ht
    · simp at ht
    rename_i hw
    split at h
    · simp [State.noteBadAccess, hb] at h
    · split at h
      · simp [State.noteOverrun, hb] at h
      · cases t <;> simp [State.poke, State.ackStatus, hb] at h
        have ho := offset_of_mapTarget_cmd ht
        refine ⟨by omega, ?_⟩
        apply BitVec.eq_of_toNat_eq
        simpa using ho

end Sys2Proof.Machine
end

