-- ==== Sys2Proof/Laws/Montgomery.lean ====
section
/-! SUPPORT. The word inverse, the Montgomery product and the exponentiation and square-root loops over it: one
spec lemma each (41_parameters.md R161, 43_montgomery.md R211, 44_exp_inv_sqrt.md R241, R253). -/

namespace Sys2Proof.Machine

/-! ## The word inverse (41_parameters.md R161) -/

theorem newtonStep_error (m0 y : Word) : 1 - m0 * newtonStep m0 y = (1 - m0 * y) ^ 2 := by
  unfold newtonStep
  ring

/-- For odd m0, `m0 · INV ≡ −1 (mod 2^64)`. -/
theorem invWord_mul {m0 : Word} (h : m0.toNat % 2 = 1) : m0 * invWord m0 + 1 = 0 := by
  obtain ⟨c, hc⟩ : ∃ c : Word, m0 = 2 * c + 1 := by
    refine ⟨BitVec.ofNat 64 (m0.toNat / 2), ?_⟩
    have h2 : (2 : Word).toNat = 2 := rfl
    have h1 : (1 : Word).toNat = 1 := rfl
    have := m0.isLt
    apply BitVec.eq_of_toNat_eq
    rw [BitVec.toNat_add, BitVec.toNat_mul, BitVec.toNat_ofNat, h1, h2]
    omega
  have key : 1 - m0 * (newtonStep m0 (newtonStep m0 (newtonStep m0 (newtonStep m0 (newtonStep m0
      (newtonStep m0 1)))))) = 0 := by
    simp only [newtonStep_error, ← pow_mul]
    have e1 : (1 : Word) - m0 * 1 = 2 * (-c) := by rw [hc]; ring
    have e2 : ((2 : Word) * (-c)) ^ 64 = 18446744073709551616 * (-c) ^ 64 := by ring
    have e3 : (18446744073709551616 : Word) = 0 := rfl
    rw [e1]
    norm_num only
    rw [e2, e3, zero_mul]
  unfold invWord
  rw [zero_sub, mul_neg]
  rw [sub_eq_zero] at key
  rw [← key]
  exact neg_add_cancel 1

/-- The condition the reduction needs of the word inverse: `m · inv ≡ −1 (mod 2^64)`. -/
def GoodInv (m inv : Nat) : Prop := (m * inv + 1) % 2 ^ 64 = 0

theorem goodInv_invWord {m : Nat} (h : m % 2 = 1) : GoodInv m (invWord (BitVec.ofNat 64 m)).toNat := by
  have h1 : (BitVec.ofNat 64 m).toNat % 2 = 1 := by
    simp only [BitVec.toNat_ofNat]
    omega
  have h2 := congrArg BitVec.toNat (invWord_mul h1)
  simp only [BitVec.toNat_add, BitVec.toNat_mul, BitVec.toNat_ofNat] at h2
  unfold GoodInv
  rw [Nat.add_mod, Nat.mul_mod]
  rw [Nat.add_mod, Nat.mod_mod, Nat.mul_mod, Nat.mod_mod] at h2
  simpa using h2

theorem GoodInv.odd {m inv : Nat} (h : GoodInv m inv) : m % 2 = 1 := by
  unfold GoodInv at h
  by_contra hm
  have hm : m % 2 = 0 := by omega
  have : m * inv % 2 = 0 := by rw [Nat.mul_mod, hm]; simp
  omega

theorem GoodInv.coprime {m inv : Nat} (h : GoodInv m inv) (w : Nat) : Nat.Coprime (2 ^ w) m := by
  apply Nat.Coprime.pow_left
  rw [Nat.coprime_two_left]
  exact Nat.odd_iff.2 h.odd

/-! ## The Montgomery product (43_montgomery.md R210, R211) -/

/-- The rounds add a multiple `U·m` with `U < 2^(64k)`. -/
theorem montRounds_eq (m inv t : Nat) : ∀ k, ∃ U < 2 ^ (64 * k), montRounds m inv t k = t + U * m := by
  intro k
  induction k with
  | zero => exact ⟨0, by simp, by simp [montRounds]⟩
  | succ k ih =>
    obtain ⟨U, hU, he⟩ := ih
    have hu : wordOf (montRounds m inv t k) k * inv % 2 ^ 64 < 2 ^ 64 := Nat.mod_lt _ (by decide)
    generalize hgen : wordOf (montRounds m inv t k) k * inv % 2 ^ 64 = u at hu
    refine ⟨U + u * 2 ^ (64 * k), ?_, ?_⟩
    · have h4 : 2 ^ (64 * (k + 1)) = 2 ^ 64 * 2 ^ (64 * k) := by
        rw [← pow_add]; congr 1; omega
      have := Nat.mul_le_mul_right (2 ^ (64 * k)) (Nat.succ_le_of_lt hu)
      rw [Nat.succ_eq_add_one, Nat.add_mul, Nat.one_mul] at this
      omega
    · rw [montRounds, montRound, hgen, he]
      ring

/-- After k rounds the low k words are zero. -/
theorem montRounds_dvd {m inv : Nat} (h : GoodInv m inv) (t : Nat) :
    ∀ k, 2 ^ (64 * k) ∣ montRounds m inv t k := by
  intro k
  induction k with
  | zero => simp
  | succ k ih =>
    obtain ⟨q, hq⟩ := ih
    have hw : wordOf (montRounds m inv t k) k = q % 2 ^ 64 := by
      unfold wordOf
      rw [hq, Nat.mul_div_cancel_left _ (by positivity)]
    rw [montRounds, montRound, hw, hq]
    have h4 : 2 ^ (64 * (k + 1)) = 2 ^ (64 * k) * 2 ^ 64 := by
      rw [← pow_add]; congr 1
    have e : 2 ^ (64 * k) * q + q % 2 ^ 64 * inv % 2 ^ 64 * m * 2 ^ (64 * k)
        = 2 ^ (64 * k) * (q + q % 2 ^ 64 * inv % 2 ^ 64 * m) := by ring
    rw [e, h4]
    apply Nat.mul_dvd_mul_left
    apply Nat.dvd_of_mod_eq_zero
    have e2 : (q + q % 2 ^ 64 * inv % 2 ^ 64 * m) ≡ q * (m * inv + 1) [MOD 2 ^ 64] := by
      have h5 : q % 2 ^ 64 * inv % 2 ^ 64 ≡ q * inv [MOD 2 ^ 64] :=
        (Nat.mod_modEq _ _).trans ((Nat.mod_modEq _ _).mul_right _)
      have h6 := (h5.mul_right m).add_left q
      have e3 : q + q * inv * m = q * (m * inv + 1) := by ring
      rwa [e3] at h6
    have e4 : q * (m * inv + 1) ≡ q * 0 [MOD 2 ^ 64] := Nat.ModEq.mul_left q h
    have := e2.trans e4
    rw [mul_zero] at this
    exact this

/-- The value of MontMul (43_montgomery.md R211): `a·b·R^(−1) mod m`, said without the inverse. -/
theorem montMul_spec {n m inv a b : Nat} (h : GoodInv m inv) (hab : a * b < m * 2 ^ (64 * n)) :
    montMul n m inv a b < m ∧ montMul n m inv a b * 2 ^ (64 * n) % m = a * b % m := by
  obtain ⟨U, hU, he⟩ := montRounds_eq m inv (a * b) n
  obtain ⟨q, hq⟩ := montRounds_dvd h (a * b) n
  have hR : 0 < 2 ^ (64 * n) := by positivity
  have hdiv : montRounds m inv (a * b) n / 2 ^ (64 * n) = q := by
    rw [hq, Nat.mul_div_cancel_left _ hR]
  have hq2 : q * 2 ^ (64 * n) = a * b + U * m := by rw [← he, hq, Nat.mul_comm]
  have hmpos : 0 < m := by have := h.odd; omega
  have hlt : q < 2 * m := by
    by_contra hge
    have h1 := Nat.mul_le_mul_right (2 ^ (64 * n)) (Nat.not_lt.1 hge)
    have h2 : U * m < m * 2 ^ (64 * n) := by
      rw [Nat.mul_comm m]
      exact Nat.mul_lt_mul_of_pos_right hU hmpos
    have h3 : 2 * m * 2 ^ (64 * n) = m * 2 ^ (64 * n) + m * 2 ^ (64 * n) := by ring
    omega
  have hmod : q * 2 ^ (64 * n) % m = a * b % m := by
    rw [hq2, Nat.add_mul_mod_self_right]
  unfold montMul
  simp only [hdiv]
  split
  · rename_i hge
    refine ⟨by omega, ?_⟩
    rw [← hmod]
    have h7 : q * 2 ^ (64 * n) = (q - m) * 2 ^ (64 * n) + 2 ^ (64 * n) * m := by
      rw [Nat.mul_comm (2 ^ (64 * n)) m, ← Nat.add_mul]
      congr 1
      omega
    rw [h7, Nat.add_mul_mod_self_right]
  · exact ⟨by omega, hmod⟩

/-- Whatever the parameters, a product of W-bit values modulo a W-bit value is a W-bit value. -/
theorem montMul_lt {n m inv a b : Nat} (ha : a < 2 ^ (64 * n)) (hb : b < 2 ^ (64 * n)) (hm : m < 2 ^ (64 * n)) :
    montMul n m inv a b < 2 ^ (64 * n) := by
  obtain ⟨U, hU, he⟩ := montRounds_eq m inv (a * b) n
  have hR : 0 < 2 ^ (64 * n) := by positivity
  have hlt : montRounds m inv (a * b) n / 2 ^ (64 * n) < 2 ^ (64 * n) + m := by
    rw [Nat.div_lt_iff_lt_mul hR, he, Nat.add_mul]
    have h1 : a * b < 2 ^ (64 * n) * 2 ^ (64 * n) := Nat.mul_lt_mul'' ha hb
    have h2 : U * m ≤ m * 2 ^ (64 * n) := by
      rw [Nat.mul_comm m]
      exact Nat.mul_le_mul_right m hU.le
    omega
  unfold montMul
  simp only
  split <;> omega

/-! ## The element a Montgomery form stands for -/

/-- The canonical element of the value x: `x·R^(−1)` in the integers modulo m. -/
noncomputable def unmont (m w x : Nat) : ZMod m := (x : ZMod m) * ((2 : ZMod m) ^ w)⁻¹

section
variable {m inv : Nat} (h : GoodInv m inv) (w : Nat)
include h

theorem two_pow_unit : IsUnit ((2 : ZMod m) ^ w) := by
  have := (ZMod.isUnit_iff_coprime (2 ^ w) m).2 (h.coprime w)
  simpa using this

theorem unmont_mul_pow (x : Nat) : unmont m w x * (2 : ZMod m) ^ w = x := by
  unfold unmont
  rw [mul_assoc, ZMod.inv_mul_of_unit _ (two_pow_unit h w), mul_one]

theorem unmont_eq_iff (x : Nat) (c : ZMod m) : unmont m w x = c ↔ (x : ZMod m) = c * (2 : ZMod m) ^ w := by
  constructor
  · rintro rfl
    exact (unmont_mul_pow h w x).symm
  · intro e
    unfold unmont
    rw [e, mul_assoc, ZMod.mul_inv_of_unit _ (two_pow_unit h w), mul_one]

theorem unmont_inj {x y : Nat} (hx : x < m) (hy : y < m) (e : unmont m w x = unmont m w y) : x = y := by
  have e2 := (unmont_eq_iff h w x _).1 e
  rw [unmont_mul_pow h w] at e2
  have := (ZMod.natCast_eq_natCast_iff' x y m).1 e2
  rwa [Nat.mod_eq_of_lt hx, Nat.mod_eq_of_lt hy] at this

theorem unmont_montForm (c : Nat) : unmont m w (montForm w m c) = c := by
  rw [unmont_eq_iff h]
  unfold montForm
  simp

theorem unmont_one : unmont m w (2 ^ w % m) = 1 := by
  rw [unmont_eq_iff h]
  simp

theorem unmont_zero : unmont m w 0 = 0 := by
  rw [unmont_eq_iff h]
  simp

theorem unmont_eq_zero_iff {x : Nat} (hx : x < m) : unmont m w x = 0 ↔ x = 0 := by
  constructor
  · intro e
    apply unmont_inj h w hx (by omega)
    rw [e, unmont_zero h]
  · rintro rfl
    exact unmont_zero h w

theorem unmont_montMul {n a b : Nat} (hab : a * b < m * 2 ^ (64 * n)) :
    unmont m (64 * n) (montMul n m inv a b) = unmont m (64 * n) a * unmont m (64 * n) b := by
  have := (montMul_spec h hab).2
  have e := (ZMod.natCast_eq_natCast_iff' _ _ m).2 this
  rw [unmont_eq_iff h]
  push_cast at e
  have hu := two_pow_unit h (64 * n)
  apply hu.mul_right_cancel
  rw [e]
  have h1 := unmont_mul_pow h (64 * n) a
  have h2 := unmont_mul_pow h (64 * n) b
  calc (a : ZMod m) * b = (unmont m (64 * n) a * 2 ^ (64 * n)) * (unmont m (64 * n) b * 2 ^ (64 * n)) := by
        rw [h1, h2]
    _ = _ := by ring

/-- Every reduced value is the Montgomery form of one canonical value (42_modular_add.md R197). -/
theorem exists_montForm {x : Nat} (hx : x < m) : ∃ c < m, x = montForm w m c := by
  have hm : 0 < m := by omega
  have : NeZero m := ⟨by omega⟩
  refine ⟨(unmont m w x).val, ZMod.val_lt _, ?_⟩
  have e : unmont m w x = unmont m w (montForm w m (unmont m w x).val) := by
    rw [unmont_montForm h, ZMod.natCast_zmod_val]
  exact unmont_inj h w hx (Nat.mod_lt _ hm) e

end

/-! ## Square and multiply (44_exp_inv_sqrt.md R240, R241) -/

section
variable {M : Type} [CommMonoid M] (f : Nat → M) (P : Nat → Prop) {mul : Nat → Nat → Nat}
  (hP : ∀ a b, P a → P b → P (mul a b)) (hf : ∀ a b, P a → P b → f (mul a b) = f a * f b)
include hP

theorem powBits_mem {x : Nat} (e : Nat) (hx : P x) : ∀ k acc, P acc → P (powBits mul x e k acc) := by
  intro k
  induction k with
  | zero => intro acc h; exact h
  | succ k ih =>
    intro acc h
    unfold powBits
    apply ih
    split
    · exact hP _ _ (hP _ _ h h) hx
    · exact hP _ _ h h

theorem squareTimes_mem : ∀ k w, P w → P (squareTimes mul k w) := by
  intro k
  induction k with
  | zero => intro w h; exact h
  | succ k ih => intro w h; exact ih _ (hP _ _ h h)

include hf

theorem powBits_hom {x : Nat} (e : Nat) (hx : P x) : ∀ k acc, P acc →
    f (powBits mul x e k acc) = f acc ^ 2 ^ k * f x ^ (e % 2 ^ k) := by
  intro k
  induction k with
  | zero => intro acc _; simp [powBits, Nat.mod_one]
  | succ k ih =>
    intro acc h
    have hsq : P (mul acc acc) := hP _ _ h h
    have hbit : e % 2 ^ (k + 1) = e % 2 ^ k + (e.testBit k).toNat * 2 ^ k := by
      rw [pow_succ, Nat.mod_mul, Nat.testBit_eq_decide_div_mod_eq]
      rcases Nat.mod_two_eq_zero_or_one (e / 2 ^ k) with h0 | h0 <;> simp [h0]
    unfold powBits
    cases hb : e.testBit k with
    | true =>
      rw [if_pos rfl, ih _ (hP _ _ hsq hx), hf _ _ hsq hx, hf _ _ h h, hbit, hb, ← sq, mul_pow, ← pow_mul,
        ← pow_succ', mul_assoc, ← pow_add]
      simp [add_comm]
    | false =>
      rw [if_neg (by simp), ih _ hsq, hf _ _ h h, hbit, hb, ← sq, ← pow_mul, ← pow_succ']
      simp

theorem squareTimes_hom : ∀ k w, P w → f (squareTimes mul k w) = f w ^ 2 ^ k := by
  intro k
  induction k with
  | zero => intro w _; simp [squareTimes]
  | succ k ih =>
    intro w h
    unfold squareTimes
    rw [ih _ (hP _ _ h h), hf _ _ h h, ← sq, ← pow_mul, ← pow_succ']

/-! ## The order search and the loop of FSQRT (44_exp_inv_sqrt.md R252, R253) -/

variable {one : Nat} (h1 : ∀ a, P a → (a = one ↔ f a = 1))
include h1

theorem findOrder_some : ∀ left k c k', P c → findOrder mul one left k c = some k' →
    k < k' ∧ k' ≤ k + left ∧ f c ^ 2 ^ (k' - k) = 1 ∧ ∀ j, 0 < j → j < k' - k → f c ^ 2 ^ j ≠ 1 := by
  intro left
  induction left with
  | zero => intro k c k' _ e; simp [findOrder] at e
  | succ left ih =>
    intro k c k' hc e
    have hcc : P (mul c c) := hP _ _ hc hc
    have hfc : f (mul c c) = f c ^ 2 := by rw [hf _ _ hc hc, sq]
    unfold findOrder at e
    split at e
    · rename_i hone
      obtain rfl : k + 1 = k' := by simpa using e
      refine ⟨by omega, by omega, ?_, ?_⟩
      · have : k + 1 - k = 1 := by omega
        rw [this, pow_one, ← hfc]
        exact (h1 _ hcc).1 hone
      · intro j hj1 hj2; omega
    · rename_i hone
      obtain ⟨ha, hb, hc1, hd⟩ := ih _ _ _ hcc e
      refine ⟨by omega, by omega, ?_, ?_⟩
      · rw [hfc, ← pow_mul, ← pow_succ'] at hc1
        have : k' - (k + 1) + 1 = k' - k := by omega
        rwa [this] at hc1
      · intro j hj1 hj2
        by_cases hj : j = 1
        · subst hj
          rw [pow_one, ← hfc]
          exact fun hh => hone ((h1 _ hcc).2 hh)
        · have := hd (j - 1) (by omega) (by omega)
          rw [hfc, ← pow_mul, ← pow_succ'] at this
          have e2 : j - 1 + 1 = j := by omega
          rwa [e2] at this

theorem findOrder_none : ∀ left k c, P c → findOrder mul one left k c = none →
    ∀ j, 0 < j → j ≤ left → f c ^ 2 ^ j ≠ 1 := by
  intro left
  induction left with
  | zero => intro k c _ _ j h0 h1; omega
  | succ left ih =>
    intro k c hc e j hj1 hj2
    have hcc : P (mul c c) := hP _ _ hc hc
    have hfc : f (mul c c) = f c ^ 2 := by rw [hf _ _ hc hc, sq]
    unfold findOrder at e
    split at e
    · simp at e
    · rename_i hone
      by_cases hj : j = 1
      · subst hj
        rw [pow_one, ← hfc]
        exact fun hh => hone ((h1 _ hcc).2 hh)
      · have := ih _ _ hcc e (j - 1) (by omega) (by omega)
        rw [hfc, ← pow_mul, ← pow_succ'] at this
        have e2 : j - 1 + 1 = j := by omega
        rwa [e2] at this

end

/-- Whatever the parameters, a root comes from products of the starting values. -/
theorem sqrtLoop_mem (P : Nat → Prop) {mul : Nat → Nat → Nat} (hP : ∀ a b, P a → P b → P (mul a b)) (one : Nat) :
    ∀ fuel v z y b r, P z → P y → P b → sqrtLoop mul one fuel v z y b = some r → P r := by
  intro fuel
  induction fuel with
  | zero =>
    intro v z y b r hz hy hb e
    simp only [sqrtLoop] at e
    split at e
    · obtain rfl : y = r := by simpa using e
      exact hy
    · simp at e
  | succ fuel ih =>
    intro v z y b r hz hy hb e
    unfold sqrtLoop at e
    split at e
    · obtain rfl : y = r := by simpa using e
      exact hy
    · split at e
      · simp at e
      · rename_i k _
        have hw := squareTimes_mem P hP (v - k - 1) z hz
        exact ih _ _ _ _ _ (hP _ _ hw hw) (hP _ _ hy hw) (hP _ _ hb (hP _ _ hw hw)) e

/-- Tonelli-Shanks (44_exp_inv_sqrt.md R253): over a field, with `b^(2^(v−1)) = 1`, z of order `2^v` and
`y² = x·b`, the loop ends with a root of x. -/
theorem sqrtLoop_spec {F : Type} [Field F] (f : Nat → F) (P : Nat → Prop) {mul : Nat → Nat → Nat}
    (hP : ∀ a b, P a → P b → P (mul a b)) (hf : ∀ a b, P a → P b → f (mul a b) = f a * f b) {one : Nat}
    (h1 : ∀ a, P a → (a = one ↔ f a = 1)) (x : F) :
    ∀ fuel v z y b, v ≤ fuel → 0 < v → P z → P y → P b → f y ^ 2 = x * f b → f b ^ 2 ^ (v - 1) = 1 →
      f z ^ 2 ^ (v - 1) = -1 → ∃ r, sqrtLoop mul one fuel v z y b = some r ∧ P r ∧ f r ^ 2 = x := by
  intro fuel
  induction fuel with
  | zero => intro v; intros; omega
  | succ fuel ih =>
    intro v z y b hv hv0 hz hy hb hyx hbv hzv
    unfold sqrtLoop
    by_cases hone : b = one
    · rw [if_pos hone]
      refine ⟨y, rfl, hy, ?_⟩
      rw [hyx, (h1 b hb).1 hone, mul_one]
    · rw [if_neg hone]
      have hb1 : f b ≠ 1 := fun hh => hone ((h1 b hb).2 hh)
      have hv2 : 0 < v - 1 := by
        by_contra hk
        have : v - 1 = 0 := by omega
        rw [this] at hbv
        simp at hbv
        exact hb1 hbv
      cases hfo : findOrder mul one (v - 1) 0 b with
      | none => exact absurd hbv (findOrder_none f P hP hf h1 _ _ _ hb hfo (v - 1) hv2 le_rfl)
      | some k =>
        obtain ⟨hk0, hk1, hk2, hk3⟩ := findOrder_some f P hP hf h1 _ _ _ _ hb hfo
        simp only [Nat.zero_add, Nat.sub_zero] at hk1 hk2 hk3
        have hw := squareTimes_mem P hP (v - k - 1) z hz
        have hfw := squareTimes_hom f P hP hf (v - k - 1) z hz
        have hww := hP _ _ hw hw
        have hbk : f b ^ 2 ^ (k - 1) = -1 := by
          have hs : (f b ^ 2 ^ (k - 1)) ^ 2 = 1 := by
            rw [← pow_mul, ← pow_succ]
            have : k - 1 + 1 = k := by omega
            rwa [this]
          have hne : f b ^ 2 ^ (k - 1) ≠ 1 := by
            by_cases hk : k = 1
            · subst hk; simpa using hb1
            · exact hk3 (k - 1) (by omega) (by omega)
          rcases mul_self_eq_one_iff.1 ((sq _).symm.trans hs) with h | h
          · exact absurd h hne
          · exact h
        have hwk : f (mul (squareTimes mul (v - k - 1) z) (squareTimes mul (v - k - 1) z)) ^ 2 ^ (k - 1) = -1 := by
          rw [hf _ _ hw hw, ← sq, hfw, ← pow_mul, ← pow_mul, ← hzv]
          congr 1
          rw [← pow_succ', ← pow_add]
          congr 1
          omega
        apply ih k _ _ _ (by omega) hk0 hww (hP _ _ hy hw) (hP _ _ hb hww)
        · rw [hf _ _ hy hw, hf _ _ hb hww, hf _ _ hw hw, mul_pow, hyx]
          ring
        · rw [hf _ _ hb hww, mul_pow, hbk, hwk]
          ring
        · exact hwk

end Sys2Proof.Machine
end

