-- ==== Sys2Proof/Laws/Ops.lean ====
section
/-! SUPPORT. What the shared operations can do, said once: the completion, the field prologue, RNG's answers,
MontMul and MontPow on a state, every command (`exec_effect`) and every step (`step_effect`). -/

namespace Sys2Proof.Machine

namespace State

/-! ## Completion and prologue (60_exceptions.md R302, R309, R310) -/

@[simp] theorem finish_ok (s t : State) : s.finish (.ok t) = t.succeed := rfl
@[simp] theorem finish_error (s : State) (c : ErrorCode) : s.finish (.error c) = s.fail c := rfl

theorem checkReduced_eq_none_iff (s : State) (l : List Reg) :
    s.checkReduced l = none ↔ ∀ r ∈ l, s.reg r < s.params.modulus := by
  induction l with
  | nil => simp [checkReduced]
  | cons r l ih =>
    unfold checkReduced
    split
    · simp; intro h; omega
    · simp only [ih, List.mem_cons, forall_eq_or_imp]
      constructor
      · intro h; exact ⟨by omega, h⟩
      · exact fun h => h.2

theorem checkReduced_eq_some {s : State} {l : List Reg} {c : ErrorCode} (h : s.checkReduced l = some c) :
    c = .unreducedOperand := by
  induction l with
  | nil => simp [checkReduced] at h
  | cons r l ih =>
    unfold checkReduced at h
    split at h
    · simpa using h.symm
    · exact ih h

theorem checkReduced_of_unreduced {s : State} {l : List Reg} {r : Reg} (hr : r ∈ l)
    (h : s.params.modulus ≤ s.reg r) : s.checkReduced l = some .unreducedOperand := by
  cases hc : s.checkReduced l with
  | none => exact absurd ((checkReduced_eq_none_iff s l).1 hc r hr) (by omega)
  | some c => rw [checkReduced_eq_some hc]

theorem withParams_ok {s : State} (h : s.status.pv = true) (body : Except ErrorCode State) :
    s.withParams body = body := by simp [withParams, h]

theorem withParams_error {s : State} (h : s.status.pv = false) (body : Except ErrorCode State) :
    s.withParams body = .error .paramsNotValid := by simp [withParams, h]

theorem withField_ok {s : State} {l : List Reg} (h : s.status.pv = true)
    (hl : ∀ r ∈ l, s.reg r < s.params.modulus) (body : Except ErrorCode State) :
    s.withField l body = body := by
  unfold withField
  rw [withParams_ok h, (checkReduced_eq_none_iff s l).2 hl]

theorem withField_no_params {s : State} (h : s.status.pv = false) (l : List Reg)
    (body : Except ErrorCode State) : s.withField l body = .error .paramsNotValid := withParams_error h _

theorem withField_unreduced {s : State} {l : List Reg} {r : Reg} (h : s.status.pv = true) (hr : r ∈ l)
    (hm : s.params.modulus ≤ s.reg r) (body : Except ErrorCode State) :
    s.withField l body = .error .unreducedOperand := by
  unfold withField
  rw [withParams_ok h, checkReduced_of_unreduced hr hm]

theorem withField_cases (s : State) (l : List Reg) (body : Except ErrorCode State) :
    (s.status.pv = true ∧ (∀ r ∈ l, s.reg r < s.params.modulus) ∧ s.withField l body = body) ∨
      s.withField l body = .error .paramsNotValid ∨ s.withField l body = .error .unreducedOperand := by
  cases hpv : s.status.pv with
  | false => exact .inr (.inl (withField_no_params hpv _ _))
  | true =>
    cases hc : s.checkReduced l with
    | none =>
      have hl := (checkReduced_eq_none_iff s l).1 hc
      exact .inl ⟨rfl, hl, withField_ok hpv hl _⟩
    | some c =>
      refine .inr (.inr ?_)
      unfold withField
      rw [withParams_ok hpv, hc, checkReduced_eq_some hc]

/-! ## RNG (45_sampling_and_moves.md R271) -/

theorem drawMany_length : ∀ k (r : Rng), ((r.drawMany k).1).length = k := by
  intro k
  induction k with
  | zero => intro r; rfl
  | succ k ih => intro r; simp [Rng.drawMany, ih]

/-- Settled answers come out in order, word 0 first. -/
theorem drawMany_settled : ∀ (l : List Word) (rest : List Word) (d : Nat),
    Rng.drawMany l.length ⟨l ++ rest, d⟩ = (l, ⟨rest, d + l.length⟩) := by
  intro l
  induction l with
  | nil => intro rest d; rfl
  | cons v l ih =>
    intro rest d
    have := ih rest (d + 1)
    simp only [List.length_cons, Rng.drawMany, List.cons_append, Rng.draw, this]
    congr 2
    omega

@[simp] theorem afterDraws_eq (s : State) : s.afterDraws = s.setRng (s.rng.drawMany s.cfg.n).2 := rfl

/-! ## Widths -/

theorem Wf.params_lt {s : State} (h : s.Wf) :
    s.params.modulus < 2 ^ s.cfg.w ∧ s.params.r < 2 ^ s.cfg.w ∧ s.params.r2 < 2 ^ s.cfg.w ∧
      s.params.generator < 2 ^ s.cfg.w ∧ s.params.oddFactor < 2 ^ s.cfg.w ∧
      s.params.oddFactorMinusOneHalf < 2 ^ s.cfg.w ∧ s.params.modulusMinusOneHalf < 2 ^ s.cfg.w ∧
      s.params.twoAdicRoot < 2 ^ s.cfg.w :=
  ⟨h.2.2.2 0, h.2.2.2 1, h.2.2.2 2, h.2.2.2 3, h.2.2.2 4, h.2.2.2 5, h.2.2.2 6, h.2.2.2 7⟩

theorem mont_lt {s : State} (h : s.Wf) {a b : Nat} (ha : a < 2 ^ s.cfg.w) (hb : b < 2 ^ s.cfg.w) :
    s.mont a b < 2 ^ s.cfg.w := montMul_lt ha hb h.params_lt.1

theorem montPow_lt {s : State} (h : s.Wf) {x : Nat} (hx : x < 2 ^ s.cfg.w) (e : Nat) :
    s.montPow x e < 2 ^ s.cfg.w :=
  powBits_mem (· < 2 ^ s.cfg.w) (fun _ _ ha hb => mont_lt h ha hb) e hx _ _ h.params_lt.2.1

theorem tonelli_lt {s : State} (h : s.Wf) {x y : Nat} (hx : x < 2 ^ s.cfg.w) (e : s.tonelli x = some y) :
    y < 2 ^ s.cfg.w := by
  have hw := montPow_lt h hx s.params.oddFactorMinusOneHalf
  have hy := mont_lt h hx hw
  exact sqrtLoop_mem (· < 2 ^ s.cfg.w) (fun _ _ ha hb => mont_lt h ha hb) _ _ _ _ _ _ _
    h.params_lt.2.2.2.2.2.2.2 hy (mont_lt h hy hw) e

theorem const_lt {s : State} (h : s.Wf) {k : ConstIndex} {v : Nat} (e : s.params.const k = some v) :
    v < 2 ^ s.cfg.w := by
  unfold Params.const at e
  split at e
  · obtain rfl := Option.some.inj e
    exact h.2.2.2 _
  · split at e
    · obtain rfl := Option.some.inj e
      exact lt_of_lt_of_le (BitVec.isLt _) (two_pow_64_le _)
    · split at e
      · obtain rfl := Option.some.inj e
        positivity
      · exact absurd e (by simp)

end State

theorem bitlen_lt_two_pow {a : Nat} {c : Config} (h : a < 2 ^ c.w) : bitlen a < 2 ^ c.w := by
  have h1 := (bitlen_le_iff a c.w).2 h
  exact lt_of_le_of_lt h1 Nat.lt_two_pow_self

/-! ## What a command can do -/

/-- The effects a command can have on a state (60_exceptions.md R302, R303, R307; 10_state.md R32, R36, R43). -/
inductive CommandEffect (i : Instr) (s : State) : State → Prop
  | error (c : ErrorCode) (hc : c ≠ .none)
      (hi : c = .invalidModulus → i = .derive ∨ ∃ r, i = .genchk r) : CommandEffect i s (s.fail c)
  | nothing : CommandEffect i s s.succeed
  | register (rd : Reg) (v : Nat) (hd : i.dest = some rd) (hv : s.Wf → v < 2 ^ s.cfg.w) :
      CommandEffect i s (s.setE rd v).succeed
  | carry (rd rs1 rs2 : Reg) (v : Nat) (b : Bool) (hi : i = .wadd rd rs1 rs2 ∨ i = .wsub rd rs1 rs2)
      (hv : v < 2 ^ s.cfg.w) :
      CommandEffect i s ((s.setE rd v).setFlags { s.flags with c := b }).succeed
  | compare (rs1 rs2 : Reg) (z lt gt : Bool) (hi : i = .wcmp rs1 rs2) :
      CommandEffect i s (s.setFlags { s.flags with z := z, lt := lt, gt := gt }).succeed
  | isZero (rs1 : Reg) (z : Bool) (hi : i = .wisz rs1) :
      CommandEffect i s (s.setFlags { s.flags with z := z }).succeed
  | derived (hi : i = .derive) (ha : deriveAccepts s.modIn s.genIn = true) :
      CommandEffect i s (s.loadParams (deriveParams s.cfg.w s.modIn s.genIn)).succeed
  | sampled (rd : Reg) (v : Nat) (hi : i = .frand rd) (hv : s.Wf → v < 2 ^ s.cfg.w) :
      CommandEffect i s (s.afterDraws.setE rd v).succeed
  | rejected (rd : Reg) (hi : i = .frand rd) : CommandEffect i s s.afterDraws

/-- A register command behind the field prologue. -/
theorem CommandEffect.ofField {i : Instr} {s : State} {rd : Reg} (l : List Reg) (v : Nat) (hd : i.dest = some rd)
    (hv : s.Wf → (∀ r ∈ l, s.reg r < s.params.modulus) → v < 2 ^ s.cfg.w) :
    CommandEffect i s (s.finish (s.withField l (.ok (s.setE rd v)))) := by
  rcases s.withField_cases l (.ok (s.setE rd v)) with ⟨_, hl, e⟩ | e | e
  · rw [e]
    exact .register rd v hd fun h => hv h hl
  · rw [e]
    exact .error _ (by simp) (by simp)
  · rw [e]
    exact .error _ (by simp) (by simp)

/-- Every command answers a next state, with one of these effects. -/
theorem exec_effect (i : Instr) (s : State) : ∃ t, exec i s = .next t ∧ CommandEffect i s t := by
  cases i with
  | nop => exact ⟨_, rfl, .nothing⟩
  | derive =>
    refine ⟨_, rfl, ?_⟩
    split
    · exact .derived rfl (by assumption)
    · exact .error _ (by simp) (fun _ => .inl rfl)
  | genchk rs1 =>
    refine ⟨_, rfl, ?_⟩
    cases hpv : s.status.pv with
    | false =>
      rw [State.withParams_error hpv]
      exact .error _ (by simp) (by simp)
    | true =>
      rw [State.withParams_ok hpv]
      split
      · exact .error _ (by simp) (fun _ => .inr ⟨_, rfl⟩)
      · exact .nothing
  | ldc rd k =>
    refine ⟨_, rfl, ?_⟩
    split
    · exact .error _ (by simp) (by simp)
    · rename_i v hv
      cases hpv : s.status.pv with
      | false =>
        rw [State.withParams_error hpv]
        exact .error _ (by simp) (by simp)
      | true =>
        rw [State.withParams_ok hpv]
        exact .register rd v rfl fun h => State.const_lt h hv
  | mov rd rs1 => exact ⟨_, rfl, .register rd _ rfl fun h => h.1 _⟩
  | wcmp rs1 rs2 => exact ⟨_, rfl, .compare rs1 rs2 _ _ _ rfl⟩
  | wadd rd rs1 rs2 => exact ⟨_, rfl, .carry rd rs1 rs2 _ _ (.inl rfl) (Nat.mod_lt _ (by positivity))⟩
  | wsub rd rs1 rs2 => exact ⟨_, rfl, .carry rd rs1 rs2 _ _ (.inr rfl) (wrappedSub_lt _ _ _)⟩
  | wshr1 rd rs1 =>
    refine ⟨_, rfl, .register rd _ rfl fun h => ?_⟩
    have := h.1 rs1
    have e := Nat.shiftRight_le (s.reg rs1) 1
    omega
  | wbitlen rd rs1 => exact ⟨_, rfl, .register rd _ rfl fun h => bitlen_lt_two_pow (h.1 rs1)⟩
  | wisz rs1 => exact ⟨_, rfl, .isZero rs1 _ rfl⟩
  | fadd rd rs1 rs2 =>
    refine ⟨_, rfl, .ofField [rs1, rs2] _ rfl fun h hl => ?_⟩
    exact lt_trans (addMod_lt (hl rs1 (by simp)) (hl rs2 (by simp))) h.params_lt.1
  | fsub rd rs1 rs2 =>
    refine ⟨_, rfl, .ofField [rs1, rs2] _ rfl fun h hl => ?_⟩
    exact lt_trans (subMod_lt (hl rs1 (by simp)) (hl rs2 (by simp))) h.params_lt.1
  | fneg rd rs1 =>
    refine ⟨_, rfl, .ofField [rs1] _ rfl fun h hl => ?_⟩
    exact lt_trans (negMod_lt (hl rs1 (by simp))) h.params_lt.1
  | fdbl rd rs1 =>
    refine ⟨_, rfl, .ofField [rs1] _ rfl fun h hl => ?_⟩
    exact lt_trans (dblMod_lt (hl rs1 (by simp))) h.params_lt.1
  | fmul rd rs1 rs2 => exact ⟨_, rfl, .ofField [rs1, rs2] _ rfl fun h _ => State.mont_lt h (h.1 _) (h.1 _)⟩
  | fsqr rd rs1 => exact ⟨_, rfl, .ofField [rs1] _ rfl fun h _ => State.mont_lt h (h.1 _) (h.1 _)⟩
  | tomont rd rs1 => exact ⟨_, rfl, .ofField [rs1] _ rfl fun h _ => State.mont_lt h (h.1 _) h.params_lt.2.2.1⟩
  | frommont rd rs1 =>
    exact ⟨_, rfl, .ofField [rs1] _ rfl fun h _ =>
      State.mont_lt h (h.1 _) (lt_of_lt_of_le (by decide) (two_pow_64_le _))⟩
  | fpow rd rs1 rs2 => exact ⟨_, rfl, .ofField [rs1] _ rfl fun h _ => State.montPow_lt h (h.1 _) _⟩
  | finv rd rs1 =>
    refine ⟨_, rfl, ?_⟩
    by_cases h0 : s.reg rs1 = 0
    · rcases s.withField_cases [rs1] (.error .undefinedInverse) with ⟨_, _, e⟩ | e | e <;>
      · rw [if_pos h0, e]
        exact .error _ (by simp) (by simp)
    · rw [if_neg h0]
      exact .ofField [rs1] _ rfl fun h _ => State.montPow_lt h (h.1 _) _
  | fleg rd rs1 => exact ⟨_, rfl, .ofField [rs1] _ rfl fun h _ => State.montPow_lt h (h.1 _) _⟩
  | fsqrt rd rs1 =>
    refine ⟨_, rfl, ?_⟩
    have hE : CommandEffect (.fsqrt rd rs1) s (s.finish (s.withField [rs1] (.error .noSquareRoot))) := by
      rcases s.withField_cases [rs1] (.error .noSquareRoot) with ⟨_, _, e⟩ | e | e <;>
      · rw [e]
        exact .error _ (by simp) (by simp)
    split
    · exact .ofField [rs1] _ rfl fun h _ => by positivity
    · split
      · exact hE
      · split
        · exact hE
        · rename_i y hy
          exact .ofField [rs1] _ rfl fun h _ => State.tonelli_lt h (h.1 _) hy
  | frand rd =>
    show ∃ t, execFrand rd s = .next t ∧ _
    unfold execFrand
    split
    · split
      · refine ⟨_, rfl, .sampled rd _ rfl fun h => State.mont_lt h ?_ h.params_lt.2.2.1⟩
        exact lt_trans (by assumption) h.params_lt.1
      · exact ⟨_, rfl, .rejected rd rfl⟩
    · exact ⟨_, rfl, .error _ (by simp) (by simp)⟩

/-- The effect of a command that answered t. -/
theorem effect_of_exec {i : Instr} {s t : State} (h : exec i s = .next t) : CommandEffect i s t := by
  obtain ⟨u, hu, he⟩ := exec_effect i s
  rw [h] at hu
  obtain rfl := Host.Outcome.next.inj hu
  exact he

/-! ## What a step can do -/

/-- The ways a step goes from s to t; `u` is s with the event that chose it taken off the agenda. -/
inductive StepEffect (s : State) : State → Prop
  | idle (l : List Event) (hb : s.status.busy = false) : StepEffect s (s.setAgenda l)
  | command (l : List Event) (i : Instr) (t : State) (hb : s.status.busy = true) (hd : decode s.pending = .ok i)
      (he : CommandEffect i (s.setAgenda l) t) : StepEffect s t
  | illegal (l : List Event) (e : DecodeError) (hb : s.status.busy = true) (hd : decode s.pending = .error e) :
      StepEffect s ((s.setAgenda l).fail .illegalCommand)
  | read (l : List Event) (width : Nat) (o : Offset) (ha : s.agenda = .read width o :: l) :
      StepEffect s ((s.setAgenda l).hostRead width o)
  | write (l : List Event) (width : Nat) (o : Offset) (v : Word) (ha : s.agenda = .write width o v :: l) :
      StepEffect s ((s.setAgenda l).hostWrite width o v)
  | reset (l : List Event) (ha : s.agenda = .reset :: l) : StepEffect s (s.setAgenda l).takeReset

theorem setAgenda_self (s : State) : s.setAgenda s.agenda = s := rfl

theorem engine_effect (s : State) (l : List Event) :
    ∃ t, engineStep (s.setAgenda l) = .next t ∧ StepEffect s t := by
  unfold engineStep
  split
  · rename_i hb
    cases hd : decode s.pending with
    | ok i =>
      obtain ⟨t, ht, he⟩ := exec_effect i (s.setAgenda l)
      refine ⟨t, ?_, .command l i t hb hd he⟩
      simp only [State.fetch, State.setAgenda_pending, hd, ht]
    | error e =>
      refine ⟨_, ?_, .illegal l e hb hd⟩
      simp only [State.fetch, State.setAgenda_pending, hd, State.finish_error]
  · rename_i hb
    exact ⟨_, rfl, .idle l (by simpa using hb)⟩

/-- Every step answers a next state, in one of these ways. -/
theorem step_effect (s : State) : ∃ t, step s = .next t ∧ StepEffect s t := by
  unfold step
  split
  · rename_i ha
    have := engine_effect s s.agenda
    rwa [setAgenda_self] at this
  · exact engine_effect s _
  · exact ⟨_, rfl, .read _ _ _ (by assumption)⟩
  · exact ⟨_, rfl, .write _ _ _ _ (by assumption)⟩
  · exact ⟨_, rfl, .reset _ (by assumption)⟩

/-- The effect of a step that answered t. -/
theorem effect_of_step {s t : State} (h : step s = .next t) : StepEffect s t := by
  obtain ⟨u, hu, he⟩ := step_effect s
  rw [h] at hu
  obtain rfl := Host.Outcome.next.inj hu
  exact he

end Sys2Proof.Machine
end

