-- ==== Sys2Proof/Laws/Params.lean ====
section
/-! SUPPORT. What DERIVE's checks accept, what the derived parameter set is, and the Montgomery product, power
and square root on a state whose parameter file is a derived set (10_state.md R38, R39, 41_parameters.md). -/

namespace Sys2Proof.Machine

/-! ## DERIVE's checks and set (41_parameters.md R162) -/

/-- DERIVE's checks, in the spec's own terms. -/
theorem deriveAccepts_iff (m g : Nat) :
    deriveAccepts m g = true ↔
      m % 2 = 1 ∧ 3 ≤ m ∧ g < m ∧ g ^ (m - 1) % m = 1 ∧ g ^ ((m - 1) / 2) % m ≠ 1 := by
  unfold deriveAccepts
  by_cases h0 : 0 < m
  · rw [powMod_eq h0, powMod_eq h0]
    split
    · rename_i h
      simp at h
      constructor
      · simp
      · intro h2; omega
    · rename_i h
      simp at h
      split
      · constructor
        · simp
        · intro h2; omega
      · split
        · constructor
          · simp
          · intro h2; exact absurd h2.2.2.2.1 (by assumption)
        · split
          · constructor
            · simp
            · intro h2; exact absurd (by assumption) h2.2.2.2.2
          · simp only [true_iff]
            refine ⟨by omega, by omega, by omega, ?_, by assumption⟩
            rename_i h3 _
            simpa using h3
  · obtain rfl : m = 0 := by omega
    simp

theorem div_v2_odd {a : Nat} (h : 0 < a) : (a >>> v2 a) % 2 = 1 := by
  rw [Nat.shiftRight_eq_div_pow]
  exact (v2_spec h).2

theorem two_pow_v2_mul {a : Nat} (h : 0 < a) : 2 ^ v2 a * (a >>> v2 a) = a := by
  rw [Nat.shiftRight_eq_div_pow]
  exact Nat.mul_div_cancel' (v2_spec h).1

theorem v2_pos {a : Nat} (h : 0 < a) (he : a % 2 = 0) : 0 < v2 a := by
  by_contra hk
  have h0 : v2 a = 0 := by omega
  have := (v2_spec h).2
  rw [h0] at this
  omega

/-! ## The fields of a derived set (41_parameters.md R162) -/

section
variable (w m g : Nat)

@[simp] theorem deriveParams_modulus : (deriveParams w m g).modulus = m := rfl
@[simp] theorem deriveParams_r : (deriveParams w m g).r = 2 ^ w % m := rfl
@[simp] theorem deriveParams_r2 : (deriveParams w m g).r2 = (2 ^ w % m) ^ 2 % m := rfl
@[simp] theorem deriveParams_generator : (deriveParams w m g).generator = g * 2 ^ w % m := rfl
@[simp] theorem deriveParams_oddFactor : (deriveParams w m g).oddFactor = (m - 1) >>> v2 (m - 1) := rfl
@[simp] theorem deriveParams_oddFactorMinusOneHalf : (deriveParams w m g).oddFactorMinusOneHalf = ((m - 1) >>> v2 (m - 1) - 1) / 2 := rfl
@[simp] theorem deriveParams_modulusMinusOneHalf : (deriveParams w m g).modulusMinusOneHalf = (m - 1) / 2 := rfl
@[simp] theorem deriveParams_twoAdicRoot : (deriveParams w m g).twoAdicRoot = powMod m g ((m - 1) >>> v2 (m - 1)) * 2 ^ w % m := rfl
@[simp] theorem deriveParams_inv : (deriveParams w m g).inv = invWord (BitVec.ofNat 64 m) := rfl
@[simp] theorem deriveParams_modulusBits : (deriveParams w m g).modulusBits = BitVec.ofNat 64 (bitlen m) := rfl
@[simp] theorem deriveParams_capacity : (deriveParams w m g).capacity = BitVec.ofNat 64 (bitlen m - 1) := rfl
@[simp] theorem deriveParams_shaveBits : (deriveParams w m g).shaveBits = BitVec.ofNat 64 (w - bitlen m) := rfl
@[simp] theorem deriveParams_twoAdicity : (deriveParams w m g).twoAdicity = BitVec.ofNat 64 (v2 (m - 1)) := rfl

end

/-- The wide parameters of a derived set other than the modulus are below it (10_state.md R39). -/
theorem deriveParams_wide_lt {w m g : Nat} (h3 : 3 ≤ m) {k : Fin 8} (hk : k ≠ 0) :
    (deriveParams w m g).wide k < m := by
  have hm : 0 < m := by omega
  have hT : (m - 1) >>> v2 (m - 1) ≤ m - 1 := Nat.shiftRight_le _ _
  match k, hk with
  | 1, _ => exact Nat.mod_lt _ hm
  | 2, _ => exact Nat.mod_lt _ hm
  | 3, _ => exact Nat.mod_lt _ hm
  | 4, _ => show (m - 1) >>> v2 (m - 1) < m; omega
  | 5, _ => show ((m - 1) >>> v2 (m - 1) - 1) / 2 < m; omega
  | 6, _ => show (m - 1) / 2 < m; omega
  | 7, _ => exact Nat.mod_lt _ hm

theorem deriveParams_wide_lt_two_pow {w m g : Nat} (h3 : 3 ≤ m) (hm : m < 2 ^ w) (k : Fin 8) :
    (deriveParams w m g).wide k < 2 ^ w := by
  by_cases hk : k = 0
  · subst hk; exact hm
  · exact lt_trans (deriveParams_wide_lt h3 hk) hm

theorem State.wide_zero (k : Fin 8) : Params.zero.wide k = 0 := by
  match k with
  | 0 => rfl
  | 1 => rfl
  | 2 => rfl
  | 3 => rfl
  | 4 => rfl
  | 5 => rfl
  | 6 => rfl
  | 7 => rfl

/-! ## A state whose parameter file is derived -/

/-- The parameter file of `s` is the set derived from its modulus and the canonical generator `g`. -/
structure State.Derived (s : State) (g : Nat) : Prop where
  pv : s.status.pv = true
  lt : s.params.modulus < 2 ^ s.cfg.w
  accepts : deriveAccepts s.params.modulus g = true
  eq : s.params = deriveParams s.cfg.w s.params.modulus g

theorem State.ParamsOk.derived {s : State} (h : s.ParamsOk) (hpv : s.status.pv = true) : ∃ g, s.Derived g := by
  rcases h with ⟨h0, _⟩ | ⟨_, m, g, hm, ha, he⟩
  · rw [hpv] at h0; exact absurd h0 (by simp)
  · have hmod : s.params.modulus = m := by rw [he]; rfl
    exact ⟨g, hpv, by rw [hmod]; exact hm, by rw [hmod]; exact ha, by rw [hmod]; exact he⟩

namespace State.Derived

variable {s : State} {g : Nat} (h : s.Derived g)
include h

theorem checks : s.params.modulus % 2 = 1 ∧ 3 ≤ s.params.modulus ∧ g < s.params.modulus ∧
    g ^ (s.params.modulus - 1) % s.params.modulus = 1 ∧
    g ^ ((s.params.modulus - 1) / 2) % s.params.modulus ≠ 1 := (deriveAccepts_iff _ _).1 h.accepts

theorem pos : 0 < s.params.modulus := by have := h.checks; omega

theorem goodInv : GoodInv s.params.modulus s.params.inv.toNat := by
  have e : s.params.inv = invWord (BitVec.ofNat 64 s.params.modulus) := by
    conv_lhs => rw [h.eq]
    rfl
  rw [e]
  exact goodInv_invWord h.checks.1

theorem r_eq : s.params.r = 2 ^ s.cfg.w % s.params.modulus := by
  conv_lhs => rw [h.eq]
  rfl

theorem r2_eq : s.params.r2 = (2 ^ s.cfg.w) ^ 2 % s.params.modulus := by
  have : s.params.r2 = (2 ^ s.cfg.w % s.params.modulus) ^ 2 % s.params.modulus := by
    conv_lhs => rw [h.eq]
    rfl
  rw [this, ← Nat.pow_mod]

theorem generator_eq : s.params.generator = montForm s.cfg.w s.params.modulus g := by
  conv_lhs => rw [h.eq]
  rfl

theorem twoAdicity_eq : s.params.twoAdicity.toNat = v2 (s.params.modulus - 1) := by
  have e : s.params.twoAdicity = BitVec.ofNat 64 (v2 (s.params.modulus - 1)) := by
    conv_lhs => rw [h.eq]
    rfl
  have h1 := v2_le_bitlen (a := s.params.modulus - 1) (by have := h.checks; omega)
  have h2 : bitlen (s.params.modulus - 1) ≤ s.cfg.w := (bitlen_le_iff _ _).2 (by have := h.lt; omega)
  have h3 := w_le s.cfg
  rw [e, BitVec.toNat_ofNat, Nat.mod_eq_of_lt (by omega)]

theorem modulusBits_eq : s.params.modulusBits.toNat = bitlen s.params.modulus := by
  have e : s.params.modulusBits = BitVec.ofNat 64 (bitlen s.params.modulus) := by
    conv_lhs => rw [h.eq]
    rfl
  have h2 : bitlen s.params.modulus ≤ s.cfg.w := (bitlen_le_iff _ _).2 h.lt
  have h3 := w_le s.cfg
  rw [e, BitVec.toNat_ofNat, Nat.mod_eq_of_lt (by omega)]

theorem modulusMinusOneHalf_eq : s.params.modulusMinusOneHalf = (s.params.modulus - 1) / 2 := by
  conv_lhs => rw [h.eq]
  rfl

theorem oddFactor_eq :
    s.params.oddFactor = (s.params.modulus - 1) >>> v2 (s.params.modulus - 1) := by
  conv_lhs => rw [h.eq]
  rfl

theorem oddFactorMinusOneHalf_eq :
    s.params.oddFactorMinusOneHalf = ((s.params.modulus - 1) >>> v2 (s.params.modulus - 1) - 1) / 2 := by
  conv_lhs => rw [h.eq]
  rfl

theorem twoAdicRoot_eq : s.params.twoAdicRoot =
    montForm s.cfg.w s.params.modulus
      (g ^ ((s.params.modulus - 1) >>> v2 (s.params.modulus - 1)) % s.params.modulus) := by
  have : s.params.twoAdicRoot = powMod s.params.modulus g
      ((s.params.modulus - 1) >>> v2 (s.params.modulus - 1)) * 2 ^ s.cfg.w % s.params.modulus := by
    conv_lhs => rw [h.eq]
    rfl
  rw [this, powMod_eq h.pos]
  rfl

theorem r_lt : s.params.r < s.params.modulus := by rw [h.r_eq]; exact Nat.mod_lt _ h.pos

theorem r2_lt : s.params.r2 < s.params.modulus := by rw [h.r2_eq]; exact Nat.mod_lt _ h.pos

theorem twoAdicRoot_lt : s.params.twoAdicRoot < s.params.modulus := by
  rw [h.twoAdicRoot_eq]; exact Nat.mod_lt _ h.pos

/-! ### MontMul and MontPow on the state (43_montgomery.md R211, R217, 44_exp_inv_sqrt.md R241) -/

theorem mul_lt {a b : Nat} (ha : a < s.params.modulus) (hb : b < s.params.modulus) :
    a * b < s.params.modulus * 2 ^ (64 * s.cfg.n) :=
  Nat.mul_lt_mul'' ha (lt_trans hb h.lt)

theorem mont_lt {a b : Nat} (ha : a < s.params.modulus) (hb : b < s.params.modulus) :
    s.mont a b < s.params.modulus := (montMul_spec h.goodInv (h.mul_lt ha hb)).1

/-- `MontMul(a, b)·R ≡ a·b (mod m)`. -/
theorem mont_mul_pow {a b : Nat} (ha : a < s.params.modulus) (hb : b < s.params.modulus) :
    s.mont a b * 2 ^ s.cfg.w % s.params.modulus = a * b % s.params.modulus :=
  (montMul_spec h.goodInv (h.mul_lt ha hb)).2

theorem unmont_mont {a b : Nat} (ha : a < s.params.modulus) (hb : b < s.params.modulus) :
    unmont s.params.modulus s.cfg.w (s.mont a b) =
      unmont s.params.modulus s.cfg.w a * unmont s.params.modulus s.cfg.w b :=
  unmont_montMul h.goodInv (h.mul_lt ha hb)

theorem eq_of_unmont {x y : Nat} (hx : x < s.params.modulus) (hy : y < s.params.modulus)
    (e : unmont s.params.modulus s.cfg.w x = unmont s.params.modulus s.cfg.w y) : x = y :=
  unmont_inj h.goodInv s.cfg.w hx hy e

theorem montForm_lt (x : Nat) : montForm s.cfg.w s.params.modulus x < s.params.modulus :=
  Nat.mod_lt _ h.pos

theorem unmont_r : unmont s.params.modulus s.cfg.w s.params.r = 1 := by
  rw [h.r_eq]; exact unmont_one h.goodInv _

theorem unmont_r2 : unmont s.params.modulus s.cfg.w s.params.r2 = (2 : ZMod s.params.modulus) ^ s.cfg.w := by
  rw [h.r2_eq, unmont_eq_iff h.goodInv, ZMod.natCast_mod, Nat.cast_pow, Nat.cast_pow, Nat.cast_ofNat, sq]

/-- FMUL of Montgomery forms (43_montgomery.md R217). -/
theorem mont_montForm (x y : Nat) :
    s.mont (montForm s.cfg.w s.params.modulus x) (montForm s.cfg.w s.params.modulus y) =
      montForm s.cfg.w s.params.modulus (x * y % s.params.modulus) := by
  apply h.eq_of_unmont (h.mont_lt (h.montForm_lt _) (h.montForm_lt _)) (h.montForm_lt _)
  rw [h.unmont_mont (h.montForm_lt _) (h.montForm_lt _), unmont_montForm h.goodInv, unmont_montForm h.goodInv,
    unmont_montForm h.goodInv]
  simp

/-- The product with R2 (43_montgomery.md R215). -/
theorem mont_r2 {v : Nat} (hv : v < s.params.modulus) :
    s.mont v s.params.r2 = montForm s.cfg.w s.params.modulus v := by
  apply h.eq_of_unmont (h.mont_lt hv h.r2_lt) (h.montForm_lt _)
  rw [h.unmont_mont hv h.r2_lt, h.unmont_r2, unmont_montForm h.goodInv, unmont_mul_pow h.goodInv]

/-- The product with 1 (43_montgomery.md R216). -/
theorem mont_one {x : Nat} (hx : x < s.params.modulus) :
    s.mont (montForm s.cfg.w s.params.modulus x) 1 = x := by
  have h1 : 1 < s.params.modulus := by have := h.checks; omega
  apply h.eq_of_unmont (h.mont_lt (h.montForm_lt _) h1) hx
  rw [h.unmont_mont (h.montForm_lt _) h1, unmont_montForm h.goodInv, eq_comm, unmont_eq_iff h.goodInv, mul_assoc,
    unmont_mul_pow h.goodInv]
  simp

theorem montPow_lt {x : Nat} (hx : x < s.params.modulus) (e : Nat) : s.montPow x e < s.params.modulus :=
  powBits_mem (· < s.params.modulus) (fun _ _ ha hb => h.mont_lt ha hb) e hx _ _ h.r_lt

theorem unmont_montPow {x e : Nat} (hx : x < s.params.modulus) (he : e < 2 ^ s.cfg.w) :
    unmont s.params.modulus s.cfg.w (s.montPow x e) = unmont s.params.modulus s.cfg.w x ^ e := by
  have := powBits_hom (unmont s.params.modulus s.cfg.w) (· < s.params.modulus)
    (fun _ _ ha hb => h.mont_lt ha hb) (fun _ _ ha hb => h.unmont_mont ha hb) e hx s.cfg.w s.params.r h.r_lt
  rw [h.unmont_r, one_pow, one_mul, Nat.mod_eq_of_lt he] at this
  exact this

/-- MontPow of a Montgomery form (44_exp_inv_sqrt.md R241). -/
theorem montPow_montForm (c : Nat) {e : Nat} (he : e < 2 ^ s.cfg.w) :
    s.montPow (montForm s.cfg.w s.params.modulus c) e =
      montForm s.cfg.w s.params.modulus (c ^ e % s.params.modulus) := by
  apply h.eq_of_unmont (h.montPow_lt (h.montForm_lt _) _) (h.montForm_lt _)
  rw [h.unmont_montPow (h.montForm_lt _) he, unmont_montForm h.goodInv, unmont_montForm h.goodInv]
  simp

/-! ### The two-adic root and the square root for a prime modulus (41_parameters.md R169, R253) -/

theorem unmont_eq_one_iff {x : Nat} (hx : x < s.params.modulus) :
    x = s.params.r ↔ unmont s.params.modulus s.cfg.w x = 1 := by
  constructor
  · rintro rfl; exact h.unmont_r
  · intro e
    exact h.eq_of_unmont hx h.r_lt (e.trans h.unmont_r.symm)

/-- A generator that passes the checks is a non-residue: its power (m − 1)/2 is −1. -/
theorem generator_half [Fact s.params.modulus.Prime] :
    (g : ZMod s.params.modulus) ^ ((s.params.modulus - 1) / 2) = -1 := by
  obtain ⟨h1, h2, h3, h4, h5⟩ := h.checks
  have hsq : ((g : ZMod s.params.modulus) ^ ((s.params.modulus - 1) / 2)) *
      (g : ZMod s.params.modulus) ^ ((s.params.modulus - 1) / 2) = 1 := by
    rw [← pow_add]
    have e : (s.params.modulus - 1) / 2 + (s.params.modulus - 1) / 2 = s.params.modulus - 1 := by omega
    rw [e]
    have : ((g ^ (s.params.modulus - 1) : Nat) : ZMod s.params.modulus) = ((1 : Nat) : ZMod s.params.modulus) := by
      rw [ZMod.natCast_eq_natCast_iff', h4, Nat.mod_eq_of_lt (by omega)]
    simpa using this
  rcases mul_self_eq_one_iff.1 hsq with e | e
  · exfalso
    apply h5
    have : ((g ^ ((s.params.modulus - 1) / 2) : Nat) : ZMod s.params.modulus) = ((1 : Nat) : ZMod s.params.modulus) := by
      simpa using e
    rw [ZMod.natCast_eq_natCast_iff'] at this
    rw [this, Nat.mod_eq_of_lt (by omega)]
  · exact e

theorem twoAdicity_pos : 0 < s.params.twoAdicity.toNat := by
  rw [h.twoAdicity_eq]
  obtain ⟨h1, h2, -⟩ := h.checks
  exact v2_pos (by omega) (by omega)

theorem two_pow_half : 2 ^ (s.params.twoAdicity.toNat - 1) *
    ((s.params.modulus - 1) >>> v2 (s.params.modulus - 1)) = (s.params.modulus - 1) / 2 := by
  have h0 := h.twoAdicity_pos
  have h1 := two_pow_v2_mul (a := s.params.modulus - 1) (by have := h.checks; omega)
  rw [← h.twoAdicity_eq] at h1 ⊢
  have h2 : 2 ^ s.params.twoAdicity.toNat = 2 * 2 ^ (s.params.twoAdicity.toNat - 1) := by
    rw [← pow_succ']
    congr 1
    omega
  rw [h2, mul_assoc] at h1
  omega

/-- The root of unity to the power 2^(S−1) is −1 (41_parameters.md R169). -/
theorem unmont_root [Fact s.params.modulus.Prime] :
    unmont s.params.modulus s.cfg.w s.params.twoAdicRoot ^ 2 ^ (s.params.twoAdicity.toNat - 1) = -1 := by
  rw [h.twoAdicRoot_eq, unmont_montForm h.goodInv, ← h.generator_half, ← h.two_pow_half]
  simp only [ZMod.natCast_mod, Nat.cast_pow]
  rw [← pow_mul, mul_comm]

/-- FSQRT's loop on a nonzero residue of a prime modulus finds a root (44_exp_inv_sqrt.md R253, R255). -/
theorem tonelli_spec [Fact s.params.modulus.Prime] {x : Nat} (hx : x < s.params.modulus)
    (hleg : unmont s.params.modulus s.cfg.w x ^ ((s.params.modulus - 1) / 2) = 1) :
    ∃ y, s.tonelli x = some y ∧ y < s.params.modulus ∧
      unmont s.params.modulus s.cfg.w y ^ 2 = unmont s.params.modulus s.cfg.w x := by
  have hT := div_v2_odd (a := s.params.modulus - 1) (by have := h.checks; omega)
  have hTle : (s.params.modulus - 1) >>> v2 (s.params.modulus - 1) ≤ s.params.modulus - 1 := Nat.shiftRight_le _ _
  have hlt := h.lt
  have hhalf := h.two_pow_half
  generalize hTe : (s.params.modulus - 1) >>> v2 (s.params.modulus - 1) = T at hT hTle hhalf
  have hw : s.params.oddFactorMinusOneHalf = (T - 1) / 2 := by rw [h.oddFactorMinusOneHalf_eq, hTe]
  have hwlt := h.montPow_lt hx s.params.oddFactorMinusOneHalf
  have hwu := h.unmont_montPow (e := s.params.oddFactorMinusOneHalf) hx (by rw [hw]; omega)
  rw [hw] at hwu
  have hy := h.mont_lt hx hwlt
  have hb := h.mont_lt hy hwlt
  unfold State.tonelli
  apply sqrtLoop_spec (unmont s.params.modulus s.cfg.w) (· < s.params.modulus)
    (fun _ _ ha hb => h.mont_lt ha hb) (fun _ _ ha hb => h.unmont_mont ha hb) (fun _ ha => h.unmont_eq_one_iff ha)
    (unmont s.params.modulus s.cfg.w x) _ _ _ _ _ le_rfl h.twoAdicity_pos h.twoAdicRoot_lt hy hb
  · rw [h.unmont_mont hy hwlt, h.unmont_mont hx hwlt]
    ring
  · rw [h.unmont_mont hy hwlt, h.unmont_mont hx hwlt, hw, hwu]
    have e : unmont s.params.modulus s.cfg.w x * unmont s.params.modulus s.cfg.w x ^ ((T - 1) / 2) *
        unmont s.params.modulus s.cfg.w x ^ ((T - 1) / 2) = unmont s.params.modulus s.cfg.w x ^ T := by
      rw [mul_assoc, ← pow_add, ← pow_succ']
      congr 1
      omega
    rw [e, ← pow_mul, mul_comm, hhalf]
    exact hleg
  · exact h.unmont_root

end State.Derived

end Sys2Proof.Machine
end

