-- ==== Sys2Proof/Laws/PerInstr.lean ====
section
/-! SUPPORT. Statements made for every command, one lemma per constructor of Instr. -/

namespace Sys2Proof.Laws

/-- The shape of a command's word (30_encoding.md R101, R102, R106): its OP has a row of the opcode map, bits
31:20 are zero, a field its format does not use is zero, the format has a destination field exactly where the
command has a destination, and that field is the destination. -/
def EncodeShape.Statement (i : Instr) : Prop :=
  ∃ row, findOp (opField (encode i)) = some row ∧ resField (encode i) = 0 ∧
    (row.format.hasRd = false → rdField (encode i) = 0) ∧
    (row.format.hasRs1 = false → rs1Field (encode i) = 0) ∧
    (row.format.hasRs2 = false → rs2Field (encode i) = 0) ∧
    row.format.hasRd = i.dest.isSome ∧ ∀ rd, i.dest = some rd → rdField (encode i) = rd

/-- The shape of an assembled word whose OP has the given row. -/
theorem encodeShape_of_row {i : Instr} {op : Nat} {rd rs1 rs2 : Reg} (row : OpRow) (h : op < 256)
    (he : encode i = assemble op rd rs1 rs2) (hr : findOp op = some row) (hd : row.format.hasRd = false → rd = 0)
    (h1 : row.format.hasRs1 = false → rs1 = 0) (h2 : row.format.hasRs2 = false → rs2 = 0)
    (hs : row.format.hasRd = i.dest.isSome) (hx : ∀ r, i.dest = some r → rd = r) :
    EncodeShape.Statement i := by
  obtain ⟨e1, e2, e3, e4, e5⟩ := assemble_fields h rd rs1 rs2
  unfold EncodeShape.Statement
  rw [he, e1, e2, e3, e4, e5]
  exact ⟨row, hr, rfl, hd, h1, h2, hs, hx⟩

theorem EncodeShape.nop : EncodeShape.Statement .nop := by
  refine encodeShape_of_row _ (by decide) rfl rfl ?_ ?_ ?_ rfl ?_ <;>
    simp [Format.hasRd, Format.hasRs1, Format.hasRs2, Instr.dest]

theorem EncodeShape.derive : EncodeShape.Statement .derive := by
  refine encodeShape_of_row _ (by decide) rfl rfl ?_ ?_ ?_ rfl ?_ <;>
    simp [Format.hasRd, Format.hasRs1, Format.hasRs2, Instr.dest]

theorem EncodeShape.genchk (rs1 : Reg) : EncodeShape.Statement (.genchk rs1) := by
  refine encodeShape_of_row _ (by decide) rfl rfl ?_ ?_ ?_ rfl ?_ <;>
    simp [Format.hasRd, Format.hasRs1, Format.hasRs2, Instr.dest]

theorem EncodeShape.ldc (rd : Reg) (k : ConstIndex) : EncodeShape.Statement (.ldc rd k) := by
  refine encodeShape_of_row _ (by decide) rfl rfl ?_ ?_ ?_ rfl ?_ <;>
    simp [Format.hasRd, Format.hasRs1, Format.hasRs2, Instr.dest]

theorem EncodeShape.mov (rd rs1 : Reg) : EncodeShape.Statement (.mov rd rs1) := by
  refine encodeShape_of_row _ (by decide) rfl rfl ?_ ?_ ?_ rfl ?_ <;>
    simp [Format.hasRd, Format.hasRs1, Format.hasRs2, Instr.dest]

theorem EncodeShape.wcmp (rs1 rs2 : Reg) : EncodeShape.Statement (.wcmp rs1 rs2) := by
  refine encodeShape_of_row _ (by decide) rfl rfl ?_ ?_ ?_ rfl ?_ <;>
    simp [Format.hasRd, Format.hasRs1, Format.hasRs2, Instr.dest]

theorem EncodeShape.wadd (rd rs1 rs2 : Reg) : EncodeShape.Statement (.wadd rd rs1 rs2) := by
  refine encodeShape_of_row _ (by decide) rfl rfl ?_ ?_ ?_ rfl ?_ <;>
    simp [Format.hasRd, Format.hasRs1, Format.hasRs2, Instr.dest]

theorem EncodeShape.wsub (rd rs1 rs2 : Reg) : EncodeShape.Statement (.wsub rd rs1 rs2) := by
  refine encodeShape_of_row _ (by decide) rfl rfl ?_ ?_ ?_ rfl ?_ <;>
    simp [Format.hasRd, Format.hasRs1, Format.hasRs2, Instr.dest]

theorem EncodeShape.wshr1 (rd rs1 : Reg) : EncodeShape.Statement (.wshr1 rd rs1) := by
  refine encodeShape_of_row _ (by decide) rfl rfl ?_ ?_ ?_ rfl ?_ <;>
    simp [Format.hasRd, Format.hasRs1, Format.hasRs2, Instr.dest]

theorem EncodeShape.wbitlen (rd rs1 : Reg) : EncodeShape.Statement (.wbitlen rd rs1) := by
  refine encodeShape_of_row _ (by decide) rfl rfl ?_ ?_ ?_ rfl ?_ <;>
    simp [Format.hasRd, Format.hasRs1, Format.hasRs2, Instr.dest]

theorem EncodeShape.wisz (rs1 : Reg) : EncodeShape.Statement (.wisz rs1) := by
  refine encodeShape_of_row _ (by decide) rfl rfl ?_ ?_ ?_ rfl ?_ <;>
    simp [Format.hasRd, Format.hasRs1, Format.hasRs2, Instr.dest]

theorem EncodeShape.fadd (rd rs1 rs2 : Reg) : EncodeShape.Statement (.fadd rd rs1 rs2) := by
  refine encodeShape_of_row _ (by decide) rfl rfl ?_ ?_ ?_ rfl ?_ <;>
    simp [Format.hasRd, Format.hasRs1, Format.hasRs2, Instr.dest]

theorem EncodeShape.fsub (rd rs1 rs2 : Reg) : EncodeShape.Statement (.fsub rd rs1 rs2) := by
  refine encodeShape_of_row _ (by decide) rfl rfl ?_ ?_ ?_ rfl ?_ <;>
    simp [Format.hasRd, Format.hasRs1, Format.hasRs2, Instr.dest]

theorem EncodeShape.fneg (rd rs1 : Reg) : EncodeShape.Statement (.fneg rd rs1) := by
  refine encodeShape_of_row _ (by decide) rfl rfl ?_ ?_ ?_ rfl ?_ <;>
    simp [Format.hasRd, Format.hasRs1, Format.hasRs2, Instr.dest]

theorem EncodeShape.fdbl (rd rs1 : Reg) : EncodeShape.Statement (.fdbl rd rs1) := by
  refine encodeShape_of_row _ (by decide) rfl rfl ?_ ?_ ?_ rfl ?_ <;>
    simp [Format.hasRd, Format.hasRs1, Format.hasRs2, Instr.dest]

theorem EncodeShape.fmul (rd rs1 rs2 : Reg) : EncodeShape.Statement (.fmul rd rs1 rs2) := by
  refine encodeShape_of_row _ (by decide) rfl rfl ?_ ?_ ?_ rfl ?_ <;>
    simp [Format.hasRd, Format.hasRs1, Format.hasRs2, Instr.dest]

theorem EncodeShape.fsqr (rd rs1 : Reg) : EncodeShape.Statement (.fsqr rd rs1) := by
  refine encodeShape_of_row _ (by decide) rfl rfl ?_ ?_ ?_ rfl ?_ <;>
    simp [Format.hasRd, Format.hasRs1, Format.hasRs2, Instr.dest]

theorem EncodeShape.tomont (rd rs1 : Reg) : EncodeShape.Statement (.tomont rd rs1) := by
  refine encodeShape_of_row _ (by decide) rfl rfl ?_ ?_ ?_ rfl ?_ <;>
    simp [Format.hasRd, Format.hasRs1, Format.hasRs2, Instr.dest]

theorem EncodeShape.frommont (rd rs1 : Reg) : EncodeShape.Statement (.frommont rd rs1) := by
  refine encodeShape_of_row _ (by decide) rfl rfl ?_ ?_ ?_ rfl ?_ <;>
    simp [Format.hasRd, Format.hasRs1, Format.hasRs2, Instr.dest]

theorem EncodeShape.fpow (rd rs1 rs2 : Reg) : EncodeShape.Statement (.fpow rd rs1 rs2) := by
  refine encodeShape_of_row _ (by decide) rfl rfl ?_ ?_ ?_ rfl ?_ <;>
    simp [Format.hasRd, Format.hasRs1, Format.hasRs2, Instr.dest]

theorem EncodeShape.finv (rd rs1 : Reg) : EncodeShape.Statement (.finv rd rs1) := by
  refine encodeShape_of_row _ (by decide) rfl rfl ?_ ?_ ?_ rfl ?_ <;>
    simp [Format.hasRd, Format.hasRs1, Format.hasRs2, Instr.dest]

theorem EncodeShape.fleg (rd rs1 : Reg) : EncodeShape.Statement (.fleg rd rs1) := by
  refine encodeShape_of_row _ (by decide) rfl rfl ?_ ?_ ?_ rfl ?_ <;>
    simp [Format.hasRd, Format.hasRs1, Format.hasRs2, Instr.dest]

theorem EncodeShape.fsqrt (rd rs1 : Reg) : EncodeShape.Statement (.fsqrt rd rs1) := by
  refine encodeShape_of_row _ (by decide) rfl rfl ?_ ?_ ?_ rfl ?_ <;>
    simp [Format.hasRd, Format.hasRs1, Format.hasRs2, Instr.dest]

theorem EncodeShape.frand (rd : Reg) : EncodeShape.Statement (.frand rd) := by
  refine encodeShape_of_row _ (by decide) rfl rfl ?_ ?_ ?_ rfl ?_ <;>
    simp [Format.hasRd, Format.hasRs1, Format.hasRs2, Instr.dest]

end Sys2Proof.Laws
end

