-- ==== Sys2Proof/Machine/Asm.lean ====
section
/-! DEFINITION. The assembler notation (30_encoding.md R113) and the pseudo-instructions (R114): what one line
stands for. Nothing of the machine runs it; it names commands and HOST accesses as the spec's programs do. Log
entry 19. -/

namespace Sys2Proof.Machine

/-- What a line of a program is: nothing but blanks or a comment, a command, or a HOST access. -/
inductive AsmLine where
  | blank
  | command (i : Instr)
  | read (offset : Nat)
  | write (offset : Nat) (value : Word)
  deriving DecidableEq, Repr

/-- The mnemonics (30_encoding.md R106) and pseudo-instructions (R114) with their formats and commands. -/
def asmTable : List (String × Format × (Reg → Reg → Reg → Instr)) :=
  [ ("NOP", .Z, fun _ _ _ => .nop), ("DERIVE", .Z, fun _ _ _ => .derive),
    ("GENCHK", .S, fun _ rs1 _ => .genchk rs1), ("LDC", .DK, fun rd _ k => .ldc rd k),
    ("MOV", .DS, fun rd rs1 _ => .mov rd rs1) ] ++
  [ ("WCMP", .SS, fun _ rs1 rs2 => .wcmp rs1 rs2), ("WADD", .DSS, fun rd rs1 rs2 => .wadd rd rs1 rs2),
    ("WSUB", .DSS, fun rd rs1 rs2 => .wsub rd rs1 rs2), ("WSHR1", .DS, fun rd rs1 _ => .wshr1 rd rs1),
    ("WBITLEN", .DS, fun rd rs1 _ => .wbitlen rd rs1), ("WISZ", .S, fun _ rs1 _ => .wisz rs1) ] ++
  [ ("FADD", .DSS, fun rd rs1 rs2 => .fadd rd rs1 rs2), ("FSUB", .DSS, fun rd rs1 rs2 => .fsub rd rs1 rs2),
    ("FNEG", .DS, fun rd rs1 _ => .fneg rd rs1), ("FDBL", .DS, fun rd rs1 _ => .fdbl rd rs1),
    ("FMUL", .DSS, fun rd rs1 rs2 => .fmul rd rs1 rs2), ("FSQR", .DS, fun rd rs1 _ => .fsqr rd rs1),
    ("TOMONT", .DS, fun rd rs1 _ => .tomont rd rs1), ("FROMMONT", .DS, fun rd rs1 _ => .frommont rd rs1) ] ++
  [ ("FPOW", .DSS, fun rd rs1 rs2 => .fpow rd rs1 rs2), ("FINV", .DS, fun rd rs1 _ => .finv rd rs1),
    ("FLEG", .DS, fun rd rs1 _ => .fleg rd rs1), ("FSQRT", .DS, fun rd rs1 _ => .fsqrt rd rs1),
    ("FRAND", .D, fun rd _ _ => .frand rd) ] ++
  [ ("FEQ", .SS, fun _ rs1 rs2 => .feq rs1 rs2), ("FISZ", .S, fun _ rs1 _ => .fisz rs1),
    ("FONE", .D, fun rd _ _ => .fone rd), ("FZERO", .D, fun rd _ _ => .fzero rd),
    ("FGEN", .D, fun rd _ _ => .fgen rd), ("FROOT", .D, fun rd _ _ => .froot rd) ]

/-- LDC's names for K = 0 to 13, in that order (30_encoding.md R113). -/
def constNames : List String :=
  [ "MODULUS", "R", "R2", "GENERATOR", "ODD_FACTOR", "ODD_FACTOR_MINUS_ONE_HALF", "MODULUS_MINUS_ONE_HALF" ] ++
  [ "TWO_ADIC_ROOT_OF_UNITY", "INV", "MODULUS_BITS", "CAPACITY", "SHAVE_BITS", "TWO_ADICITY", "ZERO" ]

/-! ## Characters -/

/-- The characters without leading blanks. -/
def skipBlanks : List Char → List Char
  | [] => []
  | c :: rest => if c = ' ' ∨ c = '\t' then skipBlanks rest else c :: rest

/-- The characters without leading and trailing blanks. -/
def trimBlanks (l : List Char) : List Char := (skipBlanks (skipBlanks l).reverse).reverse

/-- The characters before the first `stop`, and those after it. -/
def cutAt (stop : Char) : List Char → List Char × Option (List Char)
  | [] => ([], none)
  | c :: rest =>
    if c = stop then ([], some rest)
    else (c :: (cutAt stop rest).1, (cutAt stop rest).2)

/-- The pieces between the commas, blanks trimmed; `piece` is the one being read, backwards. -/
def splitCommas : List Char → List Char → List (List Char)
  | piece, [] => [trimBlanks piece.reverse]
  | piece, c :: rest =>
    if c = ',' then trimBlanks piece.reverse :: splitCommas [] rest else splitCommas (c :: piece) rest

/-- The value of one digit of base 16 or less. -/
def digitValue (c : Char) : Option Nat :=
  if '0' ≤ c ∧ c ≤ '9' then some (c.toNat - '0'.toNat)
  else if 'A' ≤ c.toUpper ∧ c.toUpper ≤ 'F' then some (c.toUpper.toNat - 'A'.toNat + 10)
  else none

/-- A number's digits in base `base`, most significant first, appended to `acc`. -/
def digitsValue (base : Nat) : Nat → List Char → Option Nat
  | acc, [] => some acc
  | acc, c :: rest =>
    match digitValue c with
    | none => none
    | some d => if d < base then digitsValue base (acc * base + d) rest else none

/-- A decimal number, at least one digit. -/
def decimal (l : List Char) : Option Nat := if l = [] then none else digitsValue 10 0 l

/-- A number, hexadecimal when written 0x..., decimal otherwise (95_test_vectors.md). -/
def number : List Char → Option Nat
  | '0' :: 'x' :: rest => if rest = [] then none else digitsValue 16 0 rest
  | l => decimal l

/-! ## Operands -/

/-- A number below 16 as a register or parameter index. -/
def fieldValue (k : Nat) : Option Reg := if h : k < 16 then some ⟨k, h⟩ else none

/-- A register, `e0` to `e15` (30_encoding.md R113). -/
def asmReg : List Char → Option Reg
  | 'e' :: digits => (decimal digits).bind fieldValue
  | _ => none

/-- The place of a name in a list of names. -/
def placeOf (name : List Char) : List String → Nat → Option Nat
  | [], _ => none
  | s :: rest, k => if s.toList = name then some k else placeOf name rest (k + 1)

/-- LDC's K, "a decimal number 0 to 13 or one of the names" (30_encoding.md R113). -/
def asmConst (l : List Char) : Option ConstIndex :=
  match placeOf l constNames 0 with
  | some k => fieldValue k
  | none => (decimal l).bind fun k => if k < 14 then fieldValue k else none

/-- The operands of a format, in the order of 30_encoding.md R102's last column. -/
def asmOperands (f : Format) (make : Reg → Reg → Reg → Instr) (ops : List (List Char)) : Option Instr :=
  match f, ops with
  | .Z, [] => some (make 0 0 0)
  | .D, [a] => (asmReg a).map fun rd => make rd 0 0
  | .S, [a] => (asmReg a).map fun rs1 => make 0 rs1 0
  | .SS, [a, b] => (asmReg a).bind fun rs1 => (asmReg b).map fun rs2 => make 0 rs1 rs2
  | .DS, [a, b] => (asmReg a).bind fun rd => (asmReg b).map fun rs1 => make rd rs1 0
  | .DSS, [a, b, c] =>
    (asmReg a).bind fun rd => (asmReg b).bind fun rs1 => (asmReg c).map fun rs2 => make rd rs1 rs2
  | .DK, [a, b] => (asmReg a).bind fun rd => (asmConst b).map fun k => make rd 0 k
  | _, _ => none

/-- The row of a mnemonic, upper or lower case (30_encoding.md R113). -/
def asmRow (mnemonic : List Char) :
    List (String × Format × (Reg → Reg → Reg → Instr)) → Option (Format × (Reg → Reg → Reg → Instr))
  | [] => none
  | row :: rest => if row.1.toList = mnemonic.map Char.toUpper then some row.2 else asmRow mnemonic rest

/-! ## HOST accesses -/

/-- The offset of a register of one word, with no bracket or with word 0. DESIGN CHOICE (log entry 19):
30_encoding.md R113 does not say what a word index means there, so any other index is no line of the notation. -/
def oneWordOffset (t : Target) (word : Option Nat) : Option Nat :=
  if word = none ∨ word = some 0 then some t.offset else none

/-- The offset of a word of an element-width register. DESIGN CHOICE (log entry 19): 30_encoding.md R113 does not
say what such a name means without a bracket, so it is no line of the notation. -/
def wideOffset (t : Nat → Target) (word : Option Nat) : Option Nat := word.map fun j => (t j).offset

/-- The offset of a register of the map by its name, and by its word where the line gives one (30_encoding.md
R113, 20_memory.md R74). -/
def asmOffset (name : List Char) (word : Option Nat) : Option Nat :=
  if name = "ID".toList then oneWordOffset .id word
  else if name = "STATUS".toList then oneWordOffset .status word
  else if name = "FLAGS".toList then oneWordOffset .flags word
  else if name = "CMD".toList then oneWordOffset .cmd word
  else if name = "CMDCOUNT".toList then oneWordOffset .cmdCount word
  else if name = "MOD_IN".toList then wideOffset .modIn word
  else if name = "GEN_IN".toList then wideOffset .genIn word
  else
    match name with
    | 'E' :: digits => ((decimal digits).bind fieldValue).bind fun r => wideOffset (.elem r) word
    | _ =>
      match placeOf name (constNames.take 13) 0 with
      | none => none
      | some k =>
        if h : k < 8 then wideOffset (.wide ⟨k, h⟩) word
        else if h : k < 13 then oneWordOffset (.scalar ⟨k - 8, by omega⟩) word
        else none

/-- `<name>[<word>]`, the word from 0 to 15, or `<name>` alone. -/
def asmPlace (l : List Char) : Option Nat :=
  match cutAt '[' (trimBlanks l) with
  | (name, none) => asmOffset name none
  | (name, some rest) =>
    match cutAt ']' rest with
    | (digits, some []) => (decimal digits).bind fun j => if j < 16 then asmOffset name (some j) else none
    | _ => none

/-! ## Lines -/

/-- A line without its comment: the first word and the rest. -/
def asmSplit (line : String) : List Char × List Char :=
  match cutAt ' ' (trimBlanks (cutAt ';' line.toList).1) with
  | (word, none) => (word, [])
  | (word, some rest) => (word, trimBlanks rest)

/-- What a line stands for (30_encoding.md R113, R114); none where it is no line of the notation. -/
def asmLine (line : String) : Option AsmLine :=
  match asmSplit line with
  | ([], _) => some .blank
  | (word, rest) =>
    if word = "read".toList then (asmPlace rest).map fun o => .read o
    else if word = "write".toList then
      match cutAt '=' rest with
      | (_, none) => none
      | (place, some value) =>
        (asmPlace place).bind fun o => (number (trimBlanks value)).bind fun v =>
          if v < 2 ^ 64 then some (.write o (BitVec.ofNat 64 v)) else none
    else
      match asmRow word asmTable with
      | none => none
      | some (f, make) =>
        (asmOperands f make (if rest = [] then [] else splitCommas [] rest)).map fun i => .command i

end Sys2Proof.Machine
end

