-- ==== Sys2Proof/Tests/Slice0.lean ====
section
/-! SUPPORT. Small tests of the model, with the expected values of 95_test_vectors.md (the section stands at each
test), and one witness for the hypotheses of each obligation. -/

namespace Sys2Proof.Tests

set_option Elab.async false

open Sys2Proof.Machine

/-! ## WellFormed: the one check, refused -/

/-- 30_encoding.md R104: K = 14 and 15 are illegal. -/
theorem test_wellFormed_refuses_ldc_14_and_15 :
    (Instr.ldc 3 14).wellFormed = false ∧ (Instr.ldc 3 15).wellFormed = false ∧
      (Instr.ldc 3 13).wellFormed = true := by decide

/-! ## Decoding: words of 95_test_vectors.md section 2, and words written out by the fields of R101 -/

theorem test_decode_control_parameters_moves :
    decode 0x00000000 = .ok .nop ∧ decode 0x00000001 = .ok .derive ∧ decode 0x00009002 = .ok (.genchk 9) ∧
      decode 0x00010303 = .ok (.ldc 3 1) ∧ decode 0x000D0303 = .ok (.ldc 3 13) ∧
      decode 0x00003404 = .ok (.mov 4 3) := by decide

theorem test_decode_wordVector :
    decode 0x00054010 = .ok (.wcmp 4 5) ∧ decode 0x00021311 = .ok (.wadd 3 1 2) ∧
      decode 0x00021312 = .ok (.wsub 3 1 2) ∧ decode 0x00001313 = .ok (.wshr1 3 1) ∧
      decode 0x00001314 = .ok (.wbitlen 3 1) ∧ decode 0x00001015 = .ok (.wisz 1) := by decide

theorem test_decode_field :
    decode 0x00010220 = .ok (.fadd 2 0 1) ∧ decode 0x00010221 = .ok (.fsub 2 0 1) ∧
      decode 0x00000122 = .ok (.fneg 1 0) ∧ decode 0x00000123 = .ok (.fdbl 1 0) ∧
      decode 0x00010224 = .ok (.fmul 2 0 1) ∧ decode 0x00000125 = .ok (.fsqr 1 0) ∧
      decode 0x00000026 = .ok (.tomont 0 0) ∧ decode 0x00002327 = .ok (.frommont 3 2) := by decide

theorem test_decode_exponentiation_and_sampling :
    decode 0x00010230 = .ok (.fpow 2 0 1) ∧ decode 0x00000131 = .ok (.finv 1 0) ∧
      decode 0x00000132 = .ok (.fleg 1 0) ∧ decode 0x00000133 = .ok (.fsqrt 1 0) ∧
      decode 0x00000738 = .ok (.frand 7) := by decide

/-- Bit by bit: RES 12 bits, RS2/K, RS1, RD of 4 bits each, OP of 8 (30_encoding.md R101, R106), a word of each
family with a different number in each field. -/
theorem test_decode_bit_by_bit :
    decode 0b000000000000_0000_0000_0000_00000000 = .ok .nop ∧
      decode 0b000000000000_0000_1001_0000_00000010 = .ok (.genchk 9) ∧
      decode 0b000000000000_1100_0000_0011_00000011 = .ok (.ldc 3 12) ∧
      decode 0b000000000000_0010_0001_0011_00010001 = .ok (.wadd 3 1 2) ∧
      decode 0b000000000000_0100_1000_0001_00100001 = .ok (.fsub 1 8 4) ∧
      decode 0b000000000000_0000_1111_1110_00100111 = .ok (.frommont 14 15) ∧
      decode 0b000000000000_0011_0010_0001_00110000 = .ok (.fpow 1 2 3) ∧
      decode 0b000000000000_0000_0000_0111_00111000 = .ok (.frand 7) := by decide

/-- 95_test_vectors.md section 9.1. -/
theorem test_decode_refuses_illegal_words :
    decode 0x00100024 = .error .reservedBits ∧ decode 0x80000000 = .error .reservedBits ∧
      decode 0x00000005 = .error .unassignedOpcode ∧ decode 0x0000000F = .error .unassignedOpcode ∧
      decode 0x00000016 = .error .unassignedOpcode ∧ decode 0x00000028 = .error .unassignedOpcode ∧
      decode 0x00000034 = .error .unassignedOpcode ∧ decode 0x00000039 = .error .unassignedOpcode ∧
      decode 0x000000FF = .error .unassignedOpcode ∧ decode 0x00054110 = .error .nonzeroRd ∧
      decode 0x000E0303 = .error .illegalConstIndex ∧ decode 0x000F0303 = .error .illegalConstIndex := by decide

/-- 95_test_vectors.md section 9.1, the rest. -/
theorem test_decode_refuses_unused_fields :
    decode 0x00000100 = .error .nonzeroRd ∧ decode 0x00001000 = .error .nonzeroRs1 ∧
      decode 0x00010000 = .error .nonzeroRs2 ∧ decode 0x00001001 = .error .nonzeroRs1 ∧
      decode 0x00010738 = .error .nonzeroRs2 ∧ decode 0x00011338 = .error .nonzeroRs1 ∧
      decode 0x00001338 = .error .nonzeroRs1 ∧ decode 0x00010122 = .error .nonzeroRs2 ∧
      decode 0x00001102 = .error .nonzeroRd := by decide

/-- The table's numbering of the bits, and a word that is none of this machine's. -/
theorem test_decodeTableWord :
    decodeTableWord 32 0x00010224 = some (.fmul 2 0 1) ∧ decodeTableWord 32 0x000E0303 = none ∧
      decodeTableWord 64 0 = none := by decide

/-! ## The assembler notation: lines of 95_test_vectors.md sections 2 and 10, pseudo-instructions of R114 -/

theorem test_asm_commands :
    asmLine "FMUL e2, e0, e1 ; E2 = 15" = some (.command (.fmul 2 0 1)) ∧
      asmLine "DERIVE" = some (.command .derive) ∧ asmLine "ldc e3, R2" = some (.command (.ldc 3 2)) ∧
      asmLine "LDC e3, 14" = none ∧ asmLine "FADD e2, e0" = none ∧ asmLine "MOV e4, e16" = none ∧
      asmLine "; only a comment" = some .blank := by decide

theorem test_asm_pseudo_instructions :
    asmLine "FEQ e4, e5" = some (.command (.wcmp 4 5)) ∧ asmLine "FISZ e1" = some (.command (.wisz 1)) ∧
      asmLine "FONE e6" = some (.command (.ldc 6 1)) ∧ asmLine "FZERO e6" = some (.command (.ldc 6 13)) ∧
      asmLine "FGEN e6" = some (.command (.ldc 6 3)) ∧ asmLine "FROOT e6" = some (.command (.ldc 6 7)) := by decide

theorem test_asm_host_accesses :
    asmLine "write MOD_IN[0] = 0x11" = some (.write 0x0800 0x11) ∧
      asmLine "write E1[1] = 0x1 ; E1 word 1" = some (.write 0x1088 1) ∧
      asmLine "write STATUS = 0x4" = some (.write 0x0008 4) ∧ asmLine "read E9[0]" = some (.read 0x1480) ∧
      asmLine "read TWO_ADICITY" = some (.read 0x0048) := by decide

/-- The model's choice of log entry 19: no word index but 0 on a register of one word, no wide register without
its bracket. -/
theorem test_asm_word_index_choice :
    asmLine "read ID[5]" = none ∧ asmLine "read STATUS[0]" = some (.read 0x0008) ∧
      asmLine "write MOD_IN = 5" = none ∧ asmLine "read INV[1]" = none ∧ asmLine "read MODULUS" = none := by decide

/-! ## Blocks for the one-step tests -/

/-- A block of `extra + 1` words after reset. -/
def blank (extra : Fin 16) : State := State.resetOf { extraWords := extra }

/-- The block with the parameter file of m and g. -/
def derived (extra : Fin 16) (m g : Nat) : State :=
  (blank extra).loadParams (deriveParams (64 * (extra.val + 1)) m g)

/-- The next state of an outcome. -/
def nextOf (o : Host.Outcome State Fault Refusal) : Option State :=
  match o with
  | .next t => some t
  | .fault _ => none
  | .refused _ => none

/-- The register r and the error number after a command. -/
def result (i : Instr) (s : State) (r : Reg) : Option (Nat × Nat) :=
  (nextOf (exec i s)).map fun t => (t.reg r, t.status.ecode.num)

/-- The register r and FLAGS after a command. -/
def resultFlags (i : Instr) (s : State) (r : Reg) : Option (Nat × Word) :=
  (nextOf (exec i s)).map fun t => (t.reg r, t.flags.word)

/-- The one operand in E0 of a block with parameters. -/
def unary (extra : Fin 16) (m g x : Nat) : State := (derived extra m g).setE 0 x

/-- Operands in E0 and E1 of a block with parameters. -/
def binary (extra : Fin 16) (m g x y : Nat) : State := ((derived extra m g).setE 0 x).setE 1 y

/-- Operands in E1 and E2 of a block without parameters. -/
def words (extra : Fin 16) (x y : Nat) : State := ((blank extra).setE 1 x).setE 2 y

/-! ## WordVector (95_test_vectors.md section 3; section 3.2 for N = 2) -/

theorem test_wcmp_top_word_decides :
    resultFlags (.wcmp 1 2) (words 1 (2 ^ 64) 0xFFFFFFFFFFFFFFFF) 0 = some (0, 0x8) ∧
      resultFlags (.wcmp 1 2) (words 0 5 7) 0 = some (0, 0x4) ∧
      resultFlags (.wcmp 1 2) (words 0 7 7) 0 = some (0, 0x2) := by decide

theorem test_wadd_carry :
    resultFlags (.wadd 3 1 2) (words 0 0xFFFFFFFFFFFFFFFF 1) 3 = some (0, 1) ∧
      resultFlags (.wadd 3 1 2) (words 1 0xFFFFFFFFFFFFFFFF 1) 3 = some (2 ^ 64, 0) ∧
      resultFlags (.wadd 3 1 2) (words 1 (2 ^ 128 - 1) 1) 3 = some (0, 1) := by decide

theorem test_wsub_borrow :
    resultFlags (.wsub 3 1 2) (words 0 0 1) 3 = some (0xFFFFFFFFFFFFFFFF, 1) ∧
      resultFlags (.wsub 3 1 2) (words 1 (2 ^ 64) 1) 3 = some (0xFFFFFFFFFFFFFFFF, 0) ∧
      resultFlags (.wsub 3 1 2) (words 0 7 5) 3 = some (2, 0) := by decide

theorem test_wshr1_crosses_words :
    resultFlags (.wshr1 3 1) (words 1 0x30000000000000001 0) 3 = some (0x18000000000000000, 0) ∧
      resultFlags (.wshr1 3 1) (words 0 1 0) 3 = some (0, 0) := by decide

theorem test_wbitlen_ends :
    resultFlags (.wbitlen 3 1) (words 0 0 0) 3 = some (0, 0) ∧
      resultFlags (.wbitlen 3 1) (words 1 (2 ^ 64) 0) 3 = some (65, 0) ∧
      resultFlags (.wbitlen 3 1) (words 1 (2 ^ 128 - 1) 0) 3 = some (128, 0) := by decide

/-- Section 3.1, flag preservation: Z written as 0, C and LT kept. -/
theorem test_wisz_keeps_other_flags :
    resultFlags (.wisz 1) ((words 0 1 0).setFlags { c := true, z := true, lt := true, gt := false }) 3 =
        some (0, 0x5) ∧
      resultFlags (.wisz 1) (words 0 0 0) 3 = some (0, 0x2) := by decide

/-! ## Parameters (95_test_vectors.md section 4) -/

/-- Section 4.1, the column m = 97, g = 5, N = 1. -/
theorem test_derive_97 :
    nextOf (exec .derive (((blank 0).setModIn 97).setGenIn 5)) =
      some (((((blank 0).setModIn 97).setGenIn 5).loadParams
        { modulus := 0x61, r := 0x3D, r2 := 0x23, generator := 0xE, oddFactor := 3, oddFactorMinusOneHalf := 1,
          modulusMinusOneHalf := 0x30, twoAdicRoot := 0x3B, inv := 0x5C5F02A3A0FD5C5F, modulusBits := 7,
          capacity := 6, shaveBits := 57, twoAdicity := 5 }).succeed) := by decide +kernel

/-- Section 4.2: the failing pairs. -/
theorem test_derive_rejects :
    deriveAccepts 16 3 = false ∧ deriveAccepts 1 0 = false ∧ deriveAccepts 17 17 = false ∧
      deriveAccepts 17 0 = false ∧ deriveAccepts 17 1 = false ∧ deriveAccepts 17 16 = false ∧
      deriveAccepts 17 2 = false ∧ deriveAccepts 15 2 = false ∧ deriveAccepts 561 2 = false ∧
      deriveAccepts 561 5 = true := by decide +kernel

/-- Section 4.3: cofactor 32 passes for g = 5 and fails for g = 28; an exponent of 0 fails. -/
theorem test_genchk_97 :
    result (.genchk 9) ((derived 0 97 5).setE 9 32) 9 = some (32, 0) ∧
      result (.genchk 9) ((derived 0 97 28).setE 9 32) 9 = some (32, 1) ∧
      result (.genchk 9) (derived 0 97 5) 9 = some (0, 1) := by decide +kernel

/-! ## The modular adder and subtractor (95_test_vectors.md section 5) -/

theorem test_fadd_17 :
    result (.fadd 2 0 1) (binary 0 17 3 9 12) 2 = some (4, 0) ∧
      result (.fadd 2 0 1) (binary 0 17 3 8 9) 2 = some (0, 0) ∧
      result (.fadd 2 0 1) (binary 0 17 3 1 17) 2 = some (0, 6) := by decide +kernel

/-- m − 1 twice where the sum needs 65 bits. -/
theorem test_fadd_goldilocks :
    result (.fadd 2 0 1) (binary 0 0xFFFFFFFF00000001 7 0xFFFFFFFF00000000 0xFFFFFFFF00000000) 2 =
      some (0xFFFFFFFEFFFFFFFF, 0) := by decide +kernel

theorem test_fsub_17 :
    result (.fsub 2 0 1) (binary 0 17 3 3 5) 2 = some (15, 0) ∧
      result (.fsub 2 0 1) (binary 0 17 3 5 5) 2 = some (0, 0) := by decide +kernel

theorem test_fneg_17 :
    result (.fneg 1 0) (unary 0 17 3 3) 1 = some (14, 0) ∧
      result (.fneg 1 0) (unary 0 17 3 0) 1 = some (0, 0) := by decide +kernel

theorem test_fdbl_17 :
    result (.fdbl 1 0) (unary 0 17 3 9) 1 = some (1, 0) ∧
      result (.fdbl 1 0) (unary 0 17 3 8) 1 = some (16, 0) := by decide +kernel

/-! ## The Montgomery multiplier (95_test_vectors.md section 6) -/

theorem test_fmul_97 :
    result (.fmul 2 0 1) (binary 0 97 5 86 14) 2 = some (42, 0) ∧
      result (.fmul 2 0 1) (binary 0 97 5 86 61) 2 = some (86, 0) := by decide +kernel

/-- The vector that needs the accumulator's carry word. -/
theorem test_fmul_carry_word :
    result (.fmul 2 0 1) (binary 0 0xFFFFFFFF00000001 7 0xFFFFFFFEFFFFFFFF 0xFFFFFFFF00000000) 2 =
      some (0xFFFFFFFD00000001, 0) := by decide +kernel

theorem test_fsqr_97 : result (.fsqr 4 0) (unary 0 97 5 86) 4 = some (64, 0) := by decide +kernel

theorem test_tomont_97 :
    result (.tomont 4 0) (unary 0 97 5 3) 4 = some (86, 0) ∧
      result (.tomont 4 0) (unary 0 97 5 97) 4 = some (0, 6) := by decide +kernel

theorem test_frommont_97 :
    result (.frommont 3 0) (unary 0 97 5 42) 3 = some (15, 0) ∧
      result (.frommont 3 0) (unary 0 97 5 61) 3 = some (1, 0) := by decide +kernel

/-! ## Exponentiation (95_test_vectors.md section 7) -/

/-- Section 7.1: 0^0, an exponent of 64 ones, an unreduced base. -/
theorem test_fpow_17 :
    result (.fpow 2 0 1) (binary 0 17 3 0 0) 2 = some (1, 0) ∧
      result (.fpow 2 0 1) (binary 0 17 3 3 0xFFFFFFFFFFFFFFFF) 2 = some (6, 0) ∧
      result (.fpow 2 0 1) (binary 0 17 3 17 1) 2 = some (0, 6) := by decide +kernel

/-- Section 7.2. -/
theorem test_finv :
    result (.finv 1 0) (unary 0 97 5 86) 1 = some (85, 0) ∧
      result (.finv 1 0) (unary 0 17 3 0) 1 = some (0, 2) ∧
      result (.finv 1 0) (unary 0 17 3 17) 1 = some (0, 6) := by decide +kernel

/-- Section 7.3. -/
theorem test_fleg_97 :
    result (.fleg 1 0) (unary 0 97 5 14) 1 = some (36, 0) ∧
      result (.fleg 1 0) (unary 0 97 5 25) 1 = some (61, 0) := by decide +kernel

/-- Section 7.4: m = 17, three passes for 9; a non-residue. -/
theorem test_fsqrt_17 :
    result (.fsqrt 1 0) (unary 0 17 3 9) 1 = some (14, 0) ∧
      result (.fsqrt 1 0) (unary 0 17 3 3) 1 = some (0, 3) ∧
      result (.fsqrt 1 0) (unary 0 17 3 0) 1 = some (0, 0) := by decide +kernel

/-- Section 7.5: the composite modulus 561, where the order search reaches its bound, and √mont(25). -/
theorem test_fsqrt_561 :
    result (.fsqrt 1 0) (unary 0 561 5 (montForm 64 561 2)) 1 = some (0, 3) ∧
      result (.fsqrt 1 0) (unary 0 561 5 (montForm 64 561 25)) 1 = some (montForm 64 561 335, 0) := by decide +kernel

/-! ## Sampling, moves, NOP (95_test_vectors.md section 8) -/

/-- Section 8.1: 0x25 is masked to 5; for N = 2 word 1 is cleared entirely. -/
theorem test_frand_accepts :
    result (.frand 7) ((derived 0 17 3).setRng ⟨[0x25], 0⟩) 7 = some (5, 0) ∧
      result (.frand 7) ((derived 1 17 3).setRng ⟨[0x25, 0xFFFFFFFFFFFFFFFF], 0⟩) 7 = some (5, 0) ∧
      result (.frand 7) (blank 0) 7 = some (0, 5) := by decide +kernel

/-- Section 8.1: 0x31 is masked to 17 = m and rejected; the command stays in flight. -/
theorem test_frand_rejects :
    nextOf (exec (.frand 7) ((derived 0 17 3).setRng ⟨[0x31, 0x10], 0⟩)) =
      some ((derived 0 17 3).setRng ⟨[0x10], 1⟩) := by decide +kernel

/-- Section 8.2. -/
theorem test_ldc_97 :
    result (.ldc 3 2) (derived 0 97 5) 3 = some (0x23, 0) ∧
      result (.ldc 3 8) (derived 0 97 5) 3 = some (0x5C5F02A3A0FD5C5F, 0) ∧
      result (.ldc 3 12) (derived 0 97 5) 3 = some (5, 0) ∧
      result (.ldc 3 13) (blank 0) 3 = some (0, 5) := by decide +kernel

theorem test_mov_is_not_checked : result (.mov 6 5) ((derived 0 17 3).setE 5 200) 6 = some (200, 0) := by decide +kernel

theorem test_nop_counts :
    (nextOf (exec .nop (blank 0))).map (fun t => (t.cmdCount, t.status.word)) = some (1, 0) := by decide +kernel

/-! ## The HOST's port and errors (95_test_vectors.md sections 9.2 and 9.3, programs P4) -/

/-- Section 9.2: ILLEGAL before PARAMS_NOT_VALID, PARAMS_NOT_VALID before the command's own error. -/
theorem test_priority :
    (nextOf (step ((blank 0).withFetchWord 32 0x00100024))).map (fun t => t.status.word) = some 0x404 ∧
      result (.finv 1 0) (blank 0) 1 = some (0, 5) ∧
      result (.fadd 2 0 1) (binary 0 17 3 0 99) 2 = some (0, 6) := by decide +kernel

/-- Section 9.3: ID, a misaligned read, an unmapped word, CMD. -/
theorem test_host_reads :
    ((blank 0).hostRead 8 0x0000).readData = 0x004D464500011001 ∧
      ((blank 0).hostRead 8 0x0004).status.word = 0x010 ∧ ((blank 0).hostRead 8 0x1008).status.word = 0x010 ∧
      ((blank 0).hostRead 8 0x0018).readData = 0 ∧ ((blank 0).hostRead 8 0x0018).status.word = 0 := by decide +kernel

/-- Section 9.3: the busy window, then W1C of OVR. -/
theorem test_busy_window :
    ((((blank 0).hostWrite 8 0x0018 0x133).hostWrite 8 0x0018 0).hostWrite 8 0x1100 5).status.word = 0x9 ∧
      ((((blank 0).hostWrite 8 0x0018 0x133).hostWrite 8 0x1100 5).reg 2) = 0 ∧
      (((blank 0).hostWrite 8 0x0018 0x133).hostWrite 8 0x1100 5).pending = 0x133 ∧
      ((((blank 0).hostWrite 8 0x0018 0x133).hostWrite 8 0x1100 5).hostWrite 8 0x0008 8).status.word = 0x1 := by
  decide

/-- Section 10: E1 word 1 at offset 0x1088 of a block with N = 2. -/
theorem test_host_write_word : ((blank 1).hostWrite 8 0x1088 1).reg 1 = 2 ^ 64 := by decide +kernel

/-- The byte view: byte 9 of E1 is the low byte of its word 1 (20_memory.md R72). -/
theorem test_mapByte_little_endian :
    (((blank 1).setE 1 (0xAB * 2 ^ 64 + 0xCD)).mapByte 0x1088) = 0xAB ∧
      (((blank 1).setE 1 (0xAB * 2 ^ 64 + 0xCD)).mapByte 0x1080) = 0xCD := by decide +kernel

/-! ## Witnesses: for each obligation with hypotheses, a state and operands that meet all of them -/

/-- m = 97, N = 1, E0 = mont(3), E1 = mont(5). -/
def good : State := binary 0 97 5 86 14

theorem good_inv : good.Inv :=
  ⟨by decide +kernel, .inr ⟨rfl, 97, 5, by decide +kernel, by decide +kernel, by decide +kernel⟩⟩

/-- The widest block, N = 16, m = 17, with the largest reduced operand in E0 and zero in E1. -/
def wide : State := binary 15 17 3 16 0

theorem wide_inv : wide.Inv :=
  ⟨by decide +kernel, .inr ⟨rfl, 17, 3, by decide +kernel, by decide +kernel, by decide +kernel⟩⟩

/-- Setting E's registers keeps the invariant where the values are of the width. -/
theorem good_setE_inv (r : Reg) (x : Nat) (h : (good.setE r x).Wf) : (good.setE r x).Inv := ⟨h, good_inv.2⟩

theorem prime_97 : Nat.Prime 97 := by norm_num

/-- `good` with a command word in flight and the ENGINE next. -/
def inFlight (w : Nat) : State := good.withFetchWord 32 w

theorem witness_DecodeOfEncodeIsTheCommand : (Instr.ldc 15 13).wellFormed = true := by decide

theorem witness_DecodedWordsReencode : decode 0x000D0F03 = .ok (.ldc 15 13) := by decide

theorem witness_IllegalWordsAreThese :
    (inFlight 0x000F0303).agenda = .engine :: [] ∧ (inFlight 0x000F0303).status.busy = true ∧
      decode (inFlight 0x000F0303).pending = .error .illegalConstIndex := by decide +kernel

theorem witness_StepRunsTheCommandInFlight :
    (inFlight 0x00010224).status.busy = true ∧ decode (inFlight 0x00010224).pending = .ok (.fmul 2 0 1) ∧
      (inFlight 0x00010224).agenda = .engine :: [] ∧
      ((inFlight 0x00010224).setAgenda []).agenda = [] := by decide +kernel

theorem witness_StepTakesTheNextEvent :
    (good.setAgenda [.read 8 0x17F8]).agenda = .read 8 0x17F8 :: [] ∧
      (good.setAgenda [.write 4 0 1]).agenda = .write 4 0 1 :: [] ∧
      (good.setAgenda [.reset]).agenda = .reset :: [] ∧ (good.setAgenda [.engine]).agenda = .engine :: [] ∧
      good.status.busy = false ∧ good.agenda = [] := by decide +kernel

theorem witness_CommandsCompleteInOneStep : ∀ rd, Instr.fsqrt 1 0 ≠ .frand rd := by simp

/-- A completion without error, one with an error, and an attempt of FRAND that is no completion. -/
theorem witness_CompletionBookkeeping :
    (inFlight 0).status.busy = true ∧
      (∃ t, exec (.fmul 2 0 1) (inFlight 0) = .next t ∧ t.status.ecode = .none) ∧
      (∃ t, exec (.finv 2 15) (inFlight 0) = .next t ∧ t.status.ecode = .undefinedInverse) ∧
      ∃ t, exec (.frand 7) ((inFlight 0).setRng ⟨[0x7F], 0⟩) = .next t ∧ t.status.busy = true :=
  ⟨rfl, ⟨_, rfl, by decide +kernel⟩, ⟨_, rfl, by decide +kernel⟩, ⟨_, rfl, by decide +kernel⟩⟩

/-- A MOV and the last byte of another register; a DERIVE and the last byte of E15. -/
theorem witness_CommandFrame :
    (∃ t, exec (.mov 4 0) good = .next t) ∧ (∃ t, exec .derive good = .next t) ∧
      mapTarget good.cfg.n (0x1007 / 8 * 8) = some (.elem 0 0) ∧ (Instr.mov 4 0).dest ≠ some 0 ∧
      mapTarget good.cfg.n (0x1787 / 8 * 8) = some (.elem 15 0) ∧ Instr.derive.dest ≠ some 15 :=
  ⟨⟨_, rfl⟩, ⟨_, rfl⟩, by decide +kernel, by decide, by decide +kernel, by decide⟩

theorem witness_ErrorsArePrecise :
    (∃ t, (inFlight 0x00009002).status.busy = true ∧ engineStep (inFlight 0x00009002) = .next t ∧
        t.status.busy = false ∧ t.status.ecode = .invalidModulus) ∧
      (∃ t, engineStep (inFlight 0x0000F231) = .next t ∧ t.status.busy = false ∧
        t.status.ecode = .undefinedInverse) ∧
      ∃ t, engineStep (inFlight 0x000F0303) = .next t ∧ t.status.busy = false ∧
        t.status.ecode = .illegalCommand :=
  ⟨⟨_, rfl, rfl, by decide +kernel⟩, ⟨_, rfl, by decide +kernel⟩, ⟨_, rfl, by decide +kernel⟩⟩

theorem witness_ParamsNotValid :
    (Instr.ldc 3 13).wellFormed = true ∧ (Instr.ldc 3 13).needsParams = true ∧
      (blank 0).status.pv = false ∧ Instr.nop.needsParams = false ∧ (inFlight 0).status.busy = true ∧
      (∃ t, exec .nop (inFlight 0) = .next t ∧ t.status.busy = false) ∧ (inFlight 0).status.pv = true ∧
      ∃ t, exec (.fsqrt 1 0) (inFlight 0) = .next t ∧ t.status.busy = false :=
  ⟨by decide, by decide, by decide +kernel, by decide, rfl, ⟨_, rfl, by decide +kernel⟩, by decide +kernel,
    _, rfl, by decide +kernel⟩

/-- The operand m itself, the least unreduced value; and all operands reduced, the largest value among them. -/
theorem witness_UnreducedOperand :
    (good.setE 1 97).status.pv = true ∧ (1 : Reg) ∈ (Instr.fadd 2 0 1).fieldOperands ∧
      (good.setE 1 97).params.modulus ≤ (good.setE 1 97).reg 1 ∧
      (inFlight 0).status.busy = true ∧
      (∀ r ∈ (Instr.fpow 2 1 0).fieldOperands, ((inFlight 0).setE 1 96).reg r < 97) ∧
      (∃ t, exec (.fpow 2 1 0) ((inFlight 0).setE 1 96) = .next t ∧ t.status.busy = false) ∧
      (Instr.finv 1 0).fieldOperands ≠ [] ∧ (blank 0).status.pv = false :=
  ⟨by decide +kernel, by decide, by decide +kernel, rfl, by decide +kernel, ⟨_, rfl, by decide +kernel⟩,
    by decide, by decide +kernel⟩

/-- A write of all ones to the top word of the last register. -/
theorem witness_StepKeepsRegisterWidths :
    ((blank 1).setAgenda [.write 8 0x1788 0xFFFFFFFFFFFFFFFF]).Wf ∧
      ∃ t, step ((blank 1).setAgenda [.write 8 0x1788 0xFFFFFFFFFFFFFFFF]) = .next t :=
  ⟨by decide +kernel, _, rfl⟩

theorem witness_StepKeepsParameterFile :
    (inFlight 0x00000001).Inv ∧ ∃ t, step (inFlight 0x00000001) = .next t ∧ t.status.pv = false :=
  ⟨good_inv, _, rfl, by decide +kernel⟩

theorem witness_IdIsConstant : ∃ t, step (wide.setAgenda [.reset]) = .next t := ⟨_, rfl⟩

/-- Each clause of the first half: WADD, WCMP, WISZ, another command, a command that ends with an error. -/
theorem witness_FlagsWrittenOnlyByFour :
    (∃ t, exec (.wadd 2 0 1) good = .next t) ∧ (∃ t, exec (.wcmp 0 1) good = .next t) ∧
      (∃ t, exec (.wisz 0) good = .next t) ∧ (∃ t, exec (.mov 2 0) good = .next t) ∧
      ∃ t, exec (.finv 2 15) (inFlight 0) = .next t ∧ t.status.busy = false ∧ t.status.ecode ≠ .none :=
  ⟨⟨_, rfl⟩, ⟨_, rfl⟩, ⟨_, rfl⟩, ⟨_, rfl⟩, _, rfl, by decide +kernel⟩

/-- A DERIVE and a failing GENCHK that change the parameter file, a write that changes MOD_IN. -/
theorem witness_WhoWritesParametersAndStaging :
    (∃ t, step (((blank 0).setModIn 17).setGenIn 3 |>.withFetchWord 32 1) = .next t ∧ t.status.pv = true) ∧
      (∃ t, step (inFlight 0x00009002) = .next t ∧ t.status.pv = false) ∧
      ∃ t, step (good.setAgenda [.write 8 0x0800 5]) = .next t ∧ t.modIn = 5 :=
  ⟨⟨_, rfl, by decide +kernel⟩, ⟨_, rfl, by decide +kernel⟩, ⟨_, rfl, by decide +kernel⟩⟩

/-- BUSY and CMDCOUNT after a step. -/
def busyAfter (s : State) : Option (Bool × Word) := (nextOf (step s)).map fun t => (t.status.busy, t.cmdCount)

/-- From BUSY = 1: a HOST read, a completion, a reset. From BUSY = 0: an accepted command, a reset. -/
theorem witness_BusyUntilCompletion :
    (inFlight 0).status.busy = true ∧ busyAfter ((inFlight 0).setAgenda [.read 8 0x0008]) = some (true, 0) ∧
      busyAfter (inFlight 0) = some (false, 1) ∧ busyAfter ((inFlight 0).setAgenda [.reset]) = some (false, 0) ∧
      good.status.busy = false ∧ busyAfter (good.setAgenda [.write 8 0x0018 0]) = some (true, 0) ∧
      busyAfter ((good.setCmdCount 3).setAgenda [.reset]) = some (false, 0) := by decide +kernel

theorem witness_ResetInput : ((inFlight 0x00000133).setAgenda [.reset]).agenda = .reset :: [] := by decide +kernel

/-- The last aligned offset of every window of a block with N = 16. -/
theorem witness_RegisterMapLayout :
    mapTarget wide.cfg.n 0x0000 = some .id ∧ mapTarget wide.cfg.n 0x0008 = some .status ∧
      mapTarget wide.cfg.n 0x0010 = some .flags ∧ mapTarget wide.cfg.n 0x0018 = some .cmd ∧
      mapTarget wide.cfg.n 0x0020 = some .cmdCount ∧
      mapTarget wide.cfg.n 0x0048 = some (.scalar 4) ∧ mapTarget wide.cfg.n 0x07F8 = some (.wide 7 15) ∧
      mapTarget wide.cfg.n 0x0878 = some (.modIn 15) ∧ mapTarget wide.cfg.n 0x08F8 = some (.genIn 15) ∧
      mapTarget wide.cfg.n 0x17F8 = some (.elem 15 15) ∧ mapTarget wide.cfg.n 0x0050 = none ∧
      mapTarget wide.cfg.n 0x03F8 = none ∧ mapTarget wide.cfg.n 0x0900 = none ∧
      mapTarget wide.cfg.n 0x0FF8 = none ∧ mapTarget wide.cfg.n 0x1800 = none := by decide +kernel

/-- The offset of each clause at the end of its range, N = 16; each names one register. -/
theorem witness_HostReadsReturnTheRegister :
    (∀ o, (wide.setAgenda [.read 8 o]).agenda = .read 8 o :: []) ∧ wide.status.busy = false ∧
      15 < wide.cfg.n ∧ (0x17F8 : Offset).toNat = 0x1000 + 0x80 * 15 + 8 * 15 ∧
      (0x1000 : Offset).toNat = 0x1000 + 0x80 * 0 + 8 * 0 ∧ (0x0878 : Offset).toNat = 0x0800 + 8 * 15 ∧
      (0x08F8 : Offset).toNat = 0x0880 + 8 * 15 ∧ (0x07F8 : Offset).toNat = 0x0400 + 0x80 * 7 + 8 * 15 ∧
      (0x0048 : Offset).toNat = 0x0028 + 8 * 4 ∧ (0x0028 : Offset).toNat = 0x0028 + 8 * 0 :=
  ⟨fun _ => rfl, by decide +kernel⟩

theorem witness_HostWritesReplaceOneWord :
    (∀ o v, (wide.setAgenda [.write 8 o v]).agenda = .write 8 o v :: []) ∧ wide.status.busy = false ∧
      15 < wide.cfg.n ∧ (0x17F8 : Offset).toNat = 0x1000 + 0x80 * 15 + 8 * 15 ∧
      (0x0878 : Offset).toNat = 0x0800 + 8 * 15 ∧ (0x08F8 : Offset).toNat = 0x0880 + 8 * 15 :=
  ⟨fun _ _ => rfl, by decide +kernel⟩

/-- Reads: a wrong width, a misaligned offset, unmapped offsets. Writes: these and every read-only range's ends. -/
theorem witness_BadAccessesSetBadaccOnly :
    (∀ w o, (good.setAgenda [.read w o]).agenda = .read w o :: []) ∧
      (∀ w o v, (good.setAgenda [.write w o v]).agenda = .write w o v :: []) ∧ (4 : Nat) ≠ 8 ∧
      (0x0004 : Offset).toNat % 8 ≠ 0 ∧ mapTarget good.cfg.n (0x1008 : Offset).toNat = none ∧
      mapTarget good.cfg.n (0xFFF8 : Offset).toNat = none ∧ (0x0028 : Offset).toNat = 0x0028 ∧
      (0x0048 : Offset).toNat < 0x0050 ∧ (0x0400 : Offset).toNat = 0x0400 ∧
      (0x07F8 : Offset).toNat < 0x0800 :=
  ⟨fun _ _ => rfl, fun _ _ _ => rfl, by decide +kernel⟩

/-- What the aligned offsets of a list name. -/
def targetsAt (n : Nat) (offsets : List Offset) : List (Option Target) := offsets.map fun o => mapTarget n o.toNat

/-- With any access next, a target of each clause: CMD, MOD_IN, GEN_IN and E15 for discarded writes; STATUS; the
registers with a value to read; the hidden ones, which with ID and CMDCOUNT are also the read-only ones; an
unmapped word. -/
theorem witness_BusyWindow :
    (∀ w o, ((inFlight 0x133).setAgenda [.read w o]).agenda = .read w o :: []) ∧
      (∀ w o v, ((inFlight 0x133).setAgenda [.write w o v]).agenda = .write w o v :: []) ∧
      (inFlight 0x133).status.busy = true ∧
      targetsAt (inFlight 0x133).cfg.n [0x0018, 0x0800, 0x0880, 0x1780] =
        [some .cmd, some (.modIn 0), some (.genIn 0), some (.elem 15 0)] ∧
      targetsAt (inFlight 0x133).cfg.n [0x0008, 0x0000, 0x0020] = [some .status, some .id, some .cmdCount] ∧
      targetsAt (inFlight 0x133).cfg.n [0x0010, 0x0780, 0x0048, 0x1008] =
        [some .flags, some (.wide 7 0), some (.scalar 4), none] :=
  ⟨fun _ _ => rfl, fun _ _ _ => rfl, by decide +kernel⟩

theorem witness_StatusAndFlagsBits :
    ((inFlight 0).setAgenda [.write 8 0x0008 0x1C]).agenda = .write 8 0x0008 0x1C :: [] := by decide +kernel

theorem witness_CommandAcceptance :
    (good.setAgenda [.write 8 0x0018 0x133]).agenda = .write 8 0x0018 0x133 :: [] ∧ good.status.busy = false ∧
      (inFlight 0).status.busy = true ∧ (good.setAgenda [.read 8 0x0018]).agenda = .read 8 0x0018 :: [] := by
  decide +kernel

/-- Two reads in a row: STATUS, or any other offset, with BUSY = 0; STATUS, and a bad access, with BUSY = 1. -/
theorem witness_ReadsHaveNoSideEffects :
    (∀ w o, (wide.setAgenda [.read w o, .read w o]).agenda = .read w o :: .read w o :: []) ∧
      (∀ w o, ((inFlight 0).setAgenda [.read w o, .read w o]).agenda = .read w o :: .read w o :: []) ∧
      wide.status.busy = false ∧ (inFlight 0).status.busy = true ∧
      accessTarget (inFlight 0).cfg.n 8 0x0008 = some .status ∧ Target.hiddenWhileBusy .status = false ∧
      accessTarget (inFlight 0).cfg.n 8 0x0004 = none :=
  ⟨fun _ _ => rfl, fun _ _ => rfl, by decide +kernel⟩

/-- The widths, with the largest value of the widest block in both operands. -/
theorem witness_WaddResult : ((wide.setE 0 (2 ^ 1024 - 1)).setE 1 (2 ^ 1024 - 1)).Wf := by decide +kernel

theorem witness_Wshr1AndWbitlenResult : (wide.setE 0 (2 ^ 1024 - 1)).Wf := by decide +kernel

theorem witness_CarryAndBorrowChains : ((wide.setE 0 (2 ^ 1024 - 1)).setE 1 1).Wf := by decide +kernel

theorem witness_CompareFromTheTopWord : ((wide.setE 0 (2 ^ 64)).setE 1 (2 ^ 64 - 1)).Wf := by decide +kernel

theorem witness_WsubUndoesWadd : ((wide.setE 0 (2 ^ 1024 - 1)).setE 1 1).Wf ∧ (2 : Reg) ≠ 1 := by decide +kernel

/-- Two blocks with the same N and sources and different everything else that a command could read. -/
theorem witness_WordVectorReadsItsSourcesOnly :
    good.cfg = (words 0 0 0).cfg ∧ good.reg 0 = ((words 0 0 0).setE 0 86).reg 0 ∧
      good.reg 1 = (words 0 14 0).reg 1 ∧ good.params ≠ (words 0 0 0).params := by decide +kernel

theorem witness_ModularAddResults :
    wide.status.pv = true ∧ wide.reg 0 < wide.params.modulus ∧ wide.reg 1 < wide.params.modulus := by
  decide +kernel

theorem witness_FaddLaws :
    good.status.pv = true ∧ good.reg 0 < good.params.modulus ∧ good.reg 1 < good.params.modulus ∧
      good.reg 2 < good.params.modulus ∧ good.reg 2 = 0 ∧ (3 : Reg) ≠ 0 ∧ (3 : Reg) ≠ 2 := by decide +kernel

theorem witness_ModularAddRealised :
    wide.Wf ∧ wide.status.pv = true ∧ wide.reg 0 < wide.params.modulus ∧ wide.reg 1 < wide.params.modulus := by
  decide +kernel

theorem witness_FmulAndFsqrResult :
    good.Inv ∧ good.status.pv = true ∧ good.reg 0 < good.params.modulus ∧ good.reg 1 < good.params.modulus :=
  ⟨good_inv, by decide +kernel⟩

theorem witness_TomontAndFrommontResult :
    wide.Inv ∧ wide.status.pv = true ∧ wide.reg 0 < wide.params.modulus := ⟨wide_inv, by decide +kernel⟩

/-- Each clause: Montgomery forms of 3 and 5, the operand `one` (P.R = 61), the operand zero. -/
theorem witness_MontgomeryLaws :
    good.Inv ∧ (good.setE 1 61).Inv ∧ good.status.pv = true ∧ good.reg 0 < good.params.modulus ∧
      good.reg 1 < good.params.modulus ∧ good.reg 0 = montForm good.cfg.w good.params.modulus 3 ∧
      good.reg 1 = montForm good.cfg.w good.params.modulus 5 ∧ good.reg 2 = 0 ∧
      (good.setE 1 61).status.pv = true ∧ (good.setE 1 61).reg 1 = (good.setE 1 61).params.r ∧
      (good.setE 1 61).reg 1 < (good.setE 1 61).params.modulus :=
  ⟨good_inv, good_setE_inv 1 61 (by decide +kernel), by decide +kernel⟩

/-- Also FlegResult's. -/
theorem witness_FpowResult :
    wide.Inv ∧ wide.status.pv = true ∧ wide.reg 1 < wide.params.modulus := ⟨wide_inv, by decide +kernel⟩

/-- Both clauses: a zero and a nonzero operand. -/
theorem witness_FinvResult :
    good.Inv ∧ good.status.pv = true ∧ good.reg 0 < good.params.modulus ∧ good.reg 0 ≠ 0 ∧ good.reg 2 = 0 :=
  ⟨good_inv, by decide +kernel⟩

theorem witness_FinvIsTheInverse :
    good.Inv ∧ good.status.pv = true ∧ good.params.modulus.Prime ∧ good.reg 0 < good.params.modulus ∧
      good.reg 0 ≠ 0 ∧ (1 : Reg) ≠ 0 := ⟨good_inv, by decide +kernel, prime_97, by decide +kernel⟩

theorem witness_FlegResult :
    good.Inv ∧ good.status.pv = true ∧ good.reg 1 < good.params.modulus := ⟨good_inv, by decide +kernel⟩

theorem witness_FlegTellsSquares :
    good.Inv ∧ good.status.pv = true ∧ good.params.modulus.Prime ∧ good.reg 1 < good.params.modulus :=
  ⟨good_inv, by decide +kernel, prime_97, by decide +kernel⟩

/-- Zero; and mont(5), whose power (m − 1)/2 is not 1. -/
theorem witness_FsqrtZeroAndNonResidue :
    good.Inv ∧ good.status.pv = true ∧ good.reg 1 < good.params.modulus ∧ good.reg 2 = 0 ∧ good.reg 1 ≠ 0 ∧
      good.reg 1 = montForm good.cfg.w good.params.modulus 5 ∧
      5 ^ ((good.params.modulus - 1) / 2) % good.params.modulus ≠ 1 := ⟨good_inv, by decide +kernel⟩

/-- mont(3) has the root 0x45 (95_test_vectors.md section 7.4); mont(5) has none. -/
theorem witness_FsqrtSquaresBack :
    good.Inv ∧ good.status.pv = true ∧ good.params.modulus.Prime ∧ good.reg 0 < good.params.modulus ∧
      good.reg 0 ≠ 0 ∧ (0x45 < good.params.modulus ∧ good.mont 0x45 0x45 = good.reg 0) ∧
      good.reg 1 < good.params.modulus ∧ good.reg 1 ≠ 0 ∧ ∀ y < 97, good.mont y y ≠ good.reg 1 :=
  ⟨good_inv, by decide +kernel, prime_97, by decide +kernel⟩

/-- Settled answers: an accepted one, and then a rejected one, the modulus itself. -/
theorem witness_FrandAttempt :
    (good.setRng ⟨[0x60, 0x61], 0⟩).Inv ∧ (good.setRng ⟨[0x61], 1⟩).Inv ∧
      (good.setRng ⟨[0x60, 0x61], 0⟩).status.pv = true ∧ (good.setRng ⟨[0x61], 1⟩).status.pv = true ∧
      ([0x60] : List Word).length = good.cfg.n ∧ ([0x61] : List Word).length = good.cfg.n ∧
      (good.setRng ⟨[0x60, 0x61], 0⟩).rng.answers = [0x60] ++ [0x61] ∧
      (good.setRng ⟨[0x61], 1⟩).rng.answers = [0x61] ++ [] ∧
      valOfWords [0x60] % 2 ^ bitlen good.params.modulus < good.params.modulus ∧
      good.params.modulus ≤ valOfWords [0x61] % 2 ^ bitlen good.params.modulus :=
  ⟨good_inv, good_inv, by decide +kernel⟩

/-- FRAND in flight, no event left, two settled attempts that are rejected. -/
def hanging : State := ((inFlight 0x00000738).setAgenda []).setRng ⟨[0x7F, 0x61], 0⟩

theorem witness_FrandCanHang :
    hanging.Inv ∧ hanging.status.pv = true ∧ hanging.status.busy = true ∧
      decode hanging.pending = .ok (.frand 7) ∧ hanging.agenda = [] ∧
      ([[0x7F], [0x61]] : List (List Word)).length = 2 ∧
      hanging.rng.answers = ([[0x7F], [0x61]] : List (List Word)).flatten ∧
      ∀ l ∈ ([[0x7F], [0x61]] : List (List Word)), l.length = hanging.cfg.n ∧
        hanging.params.modulus ≤ valOfWords l % 2 ^ bitlen hanging.params.modulus := ⟨good_inv, by decide +kernel⟩

theorem witness_MovLdcNopResult :
    good.status.pv = true ∧ (blank 0).status.pv = false ∧ (13 : ConstIndex).val < 14 ∧
      14 ≤ (14 : ConstIndex).val := by decide +kernel

/-- A pair that DERIVE accepts, the smallest modulus; and one it refuses, an even modulus. -/
theorem witness_DeriveResult :
    (((blank 0).setModIn 3).setGenIn 2).Wf ∧ 3 % 2 = 1 ∧ 2 ^ (3 - 1) % 3 = 1 ∧ 2 ^ ((3 - 1) / 2) % 3 ≠ 1 ∧
      (((blank 0).setModIn 16).setGenIn 3).Wf ∧ ¬16 % 2 = 1 := by decide +kernel

/-- Both clauses, g = 5: the cofactor 32, and 0. -/
theorem witness_GenchkResult :
    (good.setE 9 32).Inv ∧ good.Inv ∧ (good.setE 9 32).status.pv = true ∧ good.status.pv = true ∧
      good.params.generator = 5 * 2 ^ good.cfg.w % good.params.modulus ∧
      5 ^ (good.setE 9 32).reg 9 % (good.setE 9 32).params.modulus ≠ 1 ∧
      5 ^ good.reg 9 % good.params.modulus = 1 :=
  ⟨good_setE_inv 9 32 (by decide +kernel), good_inv, by decide +kernel⟩

theorem witness_DerivedParametersAreReduced : wide.Inv ∧ wide.status.pv = true := ⟨wide_inv, by decide +kernel⟩

/-- `good` with the root of unity 0x3B of m = 97 in E0 and the exponent e in E1. -/
def root (e : Nat) : State := (good.setE 0 0x3B).setE 1 e

/-- The exponents 2^5 and 2^4, each in its own state, which meets every premise. -/
theorem witness_TwoAdicRootHasFullOrder :
    (root 32).Inv ∧ (root 16).Inv ∧ (root 32).params.modulus.Prime ∧ (root 16).params.modulus.Prime ∧
      (root 32).status.pv = true ∧ (root 16).status.pv = true ∧
      (root 32).reg 0 = (root 32).params.twoAdicRoot ∧ (root 16).reg 0 = (root 16).params.twoAdicRoot ∧
      (root 32).reg 1 = 2 ^ (root 32).params.twoAdicity.toNat ∧
      (root 16).reg 1 = 2 ^ ((root 16).params.twoAdicity.toNat - 1) :=
  ⟨⟨by decide +kernel, good_inv.2⟩, ⟨by decide +kernel, good_inv.2⟩, prime_97, prime_97, by decide +kernel⟩

end Sys2Proof.Tests
end

section
/-! PROOFS. Every step keeps every register within its width (00_scope.md R10): one rule per update of the state,
then everything a HOST access, a command and a step can do, read off `hostRead_effect`, `WriteEffect`,
`CommandEffect` and `StepEffect`. -/

namespace Sys2Proof.Machine

namespace State.Wf

variable {s : State} (h : s.Wf)
include h

/-! ## Updates of a register that has a width -/

theorem setE (r : Reg) {v : Nat} (hv : v < 2 ^ s.cfg.w) : (s.setE r v).Wf := by
  obtain ⟨he, hmod, hgen, hpar⟩ := h
  refine ⟨fun q => ?_, hmod, hgen, hpar⟩
  rw [setE_reg]
  split
  · exact hv
  · exact he q

theorem setModIn {v : Nat} (hv : v < 2 ^ s.cfg.w) : (s.setModIn v).Wf := by
  obtain ⟨he, -, hgen, hpar⟩ := h
  exact ⟨he, hv, hgen, hpar⟩

theorem setGenIn {v : Nat} (hv : v < 2 ^ s.cfg.w) : (s.setGenIn v).Wf := by
  obtain ⟨he, hmod, -, hpar⟩ := h
  exact ⟨he, hmod, hv, hpar⟩

theorem setParams {p : Params} (hp : ∀ k, p.wide k < 2 ^ s.cfg.w) : (s.setParams p).Wf := by
  obtain ⟨he, hmod, hgen, -⟩ := h
  exact ⟨he, hmod, hgen, hp⟩

/-! ## Updates of a field without one -/

theorem setFlags (f : Flags) : (s.setFlags f).Wf := h
theorem setStatus (st : Status) : (s.setStatus st).Wf := h
theorem setCmdCount (v : Word) : (s.setCmdCount v).Wf := h
theorem setPending (c : CmdWord) : (s.setPending c).Wf := h
theorem setAgenda (l : List Event) : (s.setAgenda l).Wf := h
theorem setRng (r : Rng) : (s.setRng r).Wf := h
theorem setBusyReads (n : Nat) : (s.setBusyReads n).Wf := h
theorem setReadData (v : Word) : (s.setReadData v).Wf := h

/-! ## The parameter file and the completions -/

theorem loadParams {p : Params} (hp : ∀ k, p.wide k < 2 ^ s.cfg.w) : (s.loadParams p).Wf :=
  (h.setParams hp).setStatus _

theorem clearParams : s.clearParams.Wf := by
  refine (h.setParams fun k => ?_).setStatus _
  rw [wide_zero]
  positivity

theorem succeed : s.succeed.Wf := (h.setStatus _).setCmdCount _

/-- The error INVALID_MODULUS zeroes the parameter file (60_exceptions.md R307); the others leave it. -/
theorem fail (c : ErrorCode) : (s.fail c).Wf := by
  unfold State.fail
  split
  · exact (h.clearParams.setStatus _).setCmdCount _
  · exact (h.setStatus _).setCmdCount _

end State.Wf

/-- The reset values are within every width (70_reset_and_hazards.md R340). -/
theorem State.afterReset_wf (c : Config) (l : List Event) (g : Rng) (k : Nat) (v : Word) :
    (State.afterReset c l g k v).Wf := by
  have hpos : 0 < 2 ^ c.w := by positivity
  refine ⟨fun q => ?_, hpos, hpos, fun i => ?_⟩
  · rw [State.afterReset_reg]
    exact hpos
  · show Params.zero.wide i < 2 ^ c.w
    rw [State.wide_zero]
    exact hpos

/-! ## What the HOST, a command and a step can do -/

theorem State.Wf.hostRead {s : State} (h : s.Wf) (width : Nat) (o : Offset) : (s.hostRead width o).Wf := by
  obtain ⟨v, n, b, e⟩ := hostRead_effect s width o
  rw [e]
  exact ((h.setReadData v).setBusyReads n).setStatus _

/-- A write replaces one of the N words of a register (20_memory.md R75), so it stays within W = 64·N bits. -/
theorem WriteEffect.wf {s t : State} (he : WriteEffect s t) (h : s.Wf) : t.Wf := by
  cases he with
  | sticky => exact h.setStatus _
  | element r j v _ hj => exact h.setE r (withWord_lt v hj (h.1 r))
  | modIn j v _ hj => exact h.setModIn (withWord_lt v hj h.2.1)
  | genIn j v _ hj => exact h.setGenIn (withWord_lt v hj h.2.2.1)
  | command v => exact (h.setPending _).setStatus _

/-- What DERIVE writes: its checks make the modulus at least 3, and MOD_IN has the width (41_parameters.md R162). -/
theorem State.Wf.derived_wide_lt {s : State} (h : s.Wf) (ha : deriveAccepts s.modIn s.genIn = true) (k : Fin 8) :
    (deriveParams s.cfg.w s.modIn s.genIn).wide k < 2 ^ s.cfg.w := by
  obtain ⟨-, hmod, -, -⟩ := h
  obtain ⟨-, h3, -⟩ := (deriveAccepts_iff _ _).1 ha
  exact deriveParams_wide_lt_two_pow h3 hmod k

theorem CommandEffect.wf {i : Instr} {s t : State} (he : CommandEffect i s t) (h : s.Wf) : t.Wf := by
  cases he with
  | error c => exact h.fail c
  | nothing => exact h.succeed
  | register rd v _ hv => exact (h.setE rd (hv h)).succeed
  | carry rd _ _ v b _ hv => exact ((h.setE rd hv).setFlags _).succeed
  | compare => exact (h.setFlags _).succeed
  | isZero => exact (h.setFlags _).succeed
  | derived _ ha => exact (h.loadParams (h.derived_wide_lt ha)).succeed
  | sampled rd v _ hv => exact ((h.setRng _).setE rd (hv h)).succeed
  | rejected => exact h.setRng _

theorem StepEffect.wf {s t : State} (he : StepEffect s t) (h : s.Wf) : t.Wf := by
  cases he with
  | idle l => exact h.setAgenda l
  | command l i t _ _ hc => exact hc.wf (h.setAgenda l)
  | illegal l => exact (h.setAgenda l).fail _
  | read l width o => exact (h.setAgenda l).hostRead width o
  | write l width o v => exact (hostWrite_effect _ width o v).wf (h.setAgenda l)
  | reset l => exact State.afterReset_wf _ _ _ _ _

/-- Settles O14: each of the ways a step can go keeps the widths (10_state.md R31, R35, R38). -/
theorem stepKeepsRegisterWidths : Obligations.StepKeepsRegisterWidths := by
  unfold Obligations.StepKeepsRegisterWidths
  intro s t h hst
  exact (effect_of_step hst).wf h

end Sys2Proof.Machine
end

section
/-! PROOFS. Who writes what of the state (10_state.md): the frame of every command and the bookkeeping of every step,
read off `CommandEffect`, `WriteEffect` and `StepEffect`; that no command reads FLAGS, by a relation between states
that every operation keeps; the words of ID, STATUS and FLAGS bit by bit; the accesses to STATUS and CMD. -/

namespace Sys2Proof.Machine

/-! ## The frame of a command, field by field -/

namespace CommandEffect

variable {i : Instr} {s t : State} (he : CommandEffect i s t)
include he

/-- A register that is no destination keeps its value (10_state.md R32). -/
theorem reg_eq {q : Reg} (hq : i.dest ≠ some q) : t.reg q = s.reg q := by
  have hne {rd : Reg} (hd : i.dest = some rd) : rd ≠ q := fun h => hq (h ▸ hd)
  cases he with
  | error | nothing | compare | isZero | derived | rejected => simp
  | register rd v hd => simp [hne hd]
  | carry rd rs1 rs2 v b hi =>
    have hd : i.dest = some rd := by rcases hi with rfl | rfl <;> rfl
    simp [hne hd]
  | sampled rd v hi =>
    have hd : i.dest = some rd := by rw [hi]; rfl
    simp [hne hd]

/-- No effect reaches the configuration, the staging registers, PENDING or the model's own fields but RNG's. -/
theorem surroundings_eq :
    t.cfg = s.cfg ∧ t.modIn = s.modIn ∧ t.genIn = s.genIn ∧ t.pending = s.pending ∧ t.agenda = s.agenda ∧
      t.busyReads = s.busyReads ∧ t.readData = s.readData := by
  cases he <;> simp

theorem rng_eq (hi : ∀ rd, i ≠ .frand rd) : t.rng = s.rng := by
  cases he with
  | sampled rd _ h => exact absurd h (hi rd)
  | rejected rd h => exact absurd h (hi rd)
  | _ => simp

/-- OVR and BADACC are the HOST's; ERR is set and never cleared (60_exceptions.md R302). -/
theorem sticky_eq :
    t.status.ovr = s.status.ovr ∧ t.status.badacc = s.status.badacc ∧
      (s.status.err = true → t.status.err = true) := by
  cases he <;> simp

/-- The parameter file and PV change only with the completion of DERIVE, or of a GENCHK with INVALID_MODULUS
(10_state.md R36). -/
theorem params_cases :
    (t.params = s.params ∧ t.status.pv = s.status.pv) ∨
      (t.status.busy = false ∧ (i = .derive ∨ ∃ r, i = .genchk r ∧ t.status.ecode = .invalidModulus)) := by
  cases he with
  | derived hi => exact .inr ⟨by simp, .inl hi⟩
  | error c _ hi =>
    by_cases hc : c = .invalidModulus
    · refine .inr ⟨by simp, ?_⟩
      simpa [hc] using hi hc
    · simp [hc]
  | _ => simp

theorem params_eq (hd : i ≠ .derive) (hg : ∀ r, i ≠ .genchk r) :
    t.params = s.params ∧ t.status.pv = s.status.pv := by
  rcases he.params_cases with h | ⟨-, h | ⟨r, h, -⟩⟩
  · exact h
  · exact absurd h hd
  · exact absurd h (hg r)

/-- A completion clears BUSY and counts; the one other effect, FRAND's rejected attempt, touches neither
(60_exceptions.md R302). -/
theorem busy_cases :
    (t.status.busy = false ∧ t.cmdCount = s.cmdCount + 1) ∨
      (t.status.busy = s.status.busy ∧ t.cmdCount = s.cmdCount) := by
  cases he with
  | rejected => exact .inr ⟨rfl, rfl⟩
  | _ => exact .inl (by simp)

/-- The word of a target that the command has no way to write. -/
theorem peek_eq {x : Target} (hd : ∀ r j, x = .elem r j → i.dest ≠ some r) (hst : x ≠ .status)
    (hcc : x ≠ .cmdCount) (hfl : x ≠ .flags)
    (hp : (i = .derive ∨ ∃ r, i = .genchk r) → (∀ k j, x ≠ .wide k j) ∧ ∀ k, x ≠ .scalar k) :
    t.peek x = s.peek x := by
  obtain ⟨hcfg, hmod, hgen, -⟩ := he.surroundings_eq
  have hparams (h : ¬(i = .derive ∨ ∃ r, i = .genchk r)) : t.params = s.params :=
    (he.params_eq (fun e => h (.inl e)) fun r e => h (.inr ⟨r, e⟩)).1
  cases x with
  | status => exact absurd rfl hst
  | flags => exact absurd rfl hfl
  | cmdCount => exact absurd rfl hcc
  | id => simp only [State.peek, hcfg]
  | cmd => rfl
  | scalar k => simp only [State.peek, hparams fun h => (hp h).2 k rfl]
  | wide k j => simp only [State.peek, hparams fun h => (hp h).1 k j rfl]
  | modIn j => simp only [State.peek, hmod]
  | genIn j => simp only [State.peek, hgen]
  | elem r j => simp only [State.peek, he.reg_eq (hd r j rfl)]

end CommandEffect

/-- A byte of the map is a function of N and of the word its offset names (20_memory.md R72). -/
theorem State.mapByte_congr {s t : State} (hcfg : t.cfg = s.cfg) {a : Nat}
    (h : ∀ x, mapTarget s.cfg.n (a / 8 * 8) = some x → t.peek x = s.peek x) : t.mapByte a = s.mapByte a := by
  unfold State.mapByte
  rw [hcfg]
  cases hx : mapTarget s.cfg.n (a / 8 * 8) with
  | none => rfl
  | some x => simp only [h x hx]

/-- Settles O10: each clause of the frame is read off the command's effect (10_state.md R32, R35, R36). -/
theorem commandFrame : Obligations.CommandFrame := by
  unfold Obligations.CommandFrame
  intro i s t h
  have he := effect_of_exec h
  obtain ⟨hcfg, hmod, hgen, hpend, hag, hreads, hdata⟩ := he.surroundings_eq
  obtain ⟨hovr, hbad, herr⟩ := he.sticky_eq
  refine ⟨fun r => he.reg_eq, hcfg, hmod, hgen, hpend, hag, hreads, hdata, he.rng_eq, he.params_eq, hovr, hbad, herr,
    fun a hd hst hcc hfl hp => State.mapByte_congr hcfg fun x hx => ?_⟩
  rw [hx] at hd hst hcc hfl hp
  exact he.peek_eq (fun r j e => hd r j (congrArg some e)) (fun e => hst (congrArg some e))
    (fun e => hcc (congrArg some e)) (fun e => hfl (congrArg some e))
    fun h => ⟨fun k j e => (hp h).1 k j (congrArg some e), fun k e => (hp h).2 k (congrArg some e)⟩

/-! ## What a HOST access leaves unchanged -/

theorem State.hostRead_eqs (s : State) (width : Nat) (o : Offset) :
    (s.hostRead width o).cfg = s.cfg ∧ (s.hostRead width o).params = s.params ∧
      (s.hostRead width o).modIn = s.modIn ∧ (s.hostRead width o).genIn = s.genIn ∧
      (s.hostRead width o).cmdCount = s.cmdCount ∧ (s.hostRead width o).status.pv = s.status.pv ∧
      (s.hostRead width o).status.busy = s.status.busy := by
  obtain ⟨v, n, b, e⟩ := hostRead_effect s width o
  simp [e]

namespace WriteEffect

variable {s t : State} (he : WriteEffect s t)
include he

theorem fields_eq :
    t.cfg = s.cfg ∧ t.params = s.params ∧ t.cmdCount = s.cmdCount ∧ t.status.pv = s.status.pv := by
  cases he <;> simp

/-- In the busy window a write leaves BUSY (20_memory.md R84). -/
theorem busy_of_busy (hb : s.status.busy = true) : t.status.busy = true := by
  cases he with
  | sticky => exact hb
  | element | modIn | genIn => simpa using hb
  | command => rfl

end WriteEffect

/-! ## ID (10_state.md R47) -/

/-- The fields of ID do not overlap, since N is at most 16. -/
theorem idWord_toNat (c : Config) :
    (idWord c.n).toNat = 0x004D4645 * 2 ^ 32 + 0x0001 * 2 ^ 16 + 0x10 * 2 ^ 8 + c.n := by
  have hn := n_le c
  rw [idWord, BitVec.toNat_ofNat]
  exact Nat.mod_eq_of_lt (by omega)

theorem StepEffect.cfg_eq {s t : State} (he : StepEffect s t) : t.cfg = s.cfg := by
  cases he with
  | idle => rfl
  | command l i t _ _ hc => exact hc.surroundings_eq.1
  | illegal => simp
  | read l width o => exact ((s.setAgenda l).hostRead_eqs width o).1
  | write l width o v => exact (hostWrite_effect (s.setAgenda l) width o v).fields_eq.1
  | reset => rfl

/-- Settles O17: ID is a function of the configuration, and no step writes that (10_state.md R47). -/
theorem idIsConstant : Obligations.IdIsConstant := by
  unfold Obligations.IdIsConstant
  refine ⟨fun c => rfl, rfl, fun s => ?_, fun s t h => ?_⟩
  · have hn := n_le s.cfg
    have hid : (s.peek .id).toNat = _ := idWord_toNat s.cfg
    omega
  · have hcfg := (effect_of_step h).cfg_eq
    exact ⟨hcfg, by simp only [State.peek, hcfg]⟩

/-! ## The parameter file and the staging registers (10_state.md R35, R36, R40) -/

namespace StepEffect

variable {s t : State} (he : StepEffect s t)
include he

theorem params_cases :
    (t.params = s.params ∧ t.status.pv = s.status.pv) ∨ (∃ l, s.agenda = .reset :: l) ∨
      (s.status.busy = true ∧ t.status.busy = false ∧
        (decode s.pending = .ok .derive ∨
          ∃ r, decode s.pending = .ok (.genchk r) ∧ t.status.ecode = .invalidModulus)) := by
  cases he with
  | idle => exact .inl ⟨rfl, rfl⟩
  | command l i t hb hd hc =>
    rcases hc.params_cases with h | ⟨hbusy, rfl | ⟨r, rfl, hcode⟩⟩
    · exact .inl h
    · exact .inr (.inr ⟨hb, hbusy, .inl hd⟩)
    · exact .inr (.inr ⟨hb, hbusy, .inr ⟨r, hd, hcode⟩⟩)
  | illegal => exact .inl (by simp)
  | read l width o =>
    obtain ⟨-, hpar, -, -, -, hpv, -⟩ := (s.setAgenda l).hostRead_eqs width o
    exact .inl ⟨hpar, hpv⟩
  | write l width o v =>
    obtain ⟨-, hpar, -, hpv⟩ := (hostWrite_effect (s.setAgenda l) width o v).fields_eq
    exact .inl ⟨hpar, hpv⟩
  | reset l ha => exact .inr (.inl ⟨l, ha⟩)

theorem staging_cases :
    (t.modIn = s.modIn ∧ t.genIn = s.genIn) ∨ (∃ l, s.agenda = .reset :: l) ∨
      ∃ w o v l, s.agenda = .write w o v :: l := by
  cases he with
  | idle => exact .inl ⟨rfl, rfl⟩
  | command l i t _ _ hc =>
    obtain ⟨-, hmod, hgen, -⟩ := hc.surroundings_eq
    exact .inl ⟨hmod, hgen⟩
  | illegal => exact .inl (by simp)
  | read l width o =>
    obtain ⟨-, -, hmod, hgen, -⟩ := (s.setAgenda l).hostRead_eqs width o
    exact .inl ⟨hmod, hgen⟩
  | write l width o v ha => exact .inr (.inr ⟨width, o, v, l, ha⟩)
  | reset l ha => exact .inr (.inl ⟨l, ha⟩)

end StepEffect

/-- Settles O19: a step that is none of those named leaves the registers as they were (10_state.md R35, R36, R40). -/
theorem whoWritesParametersAndStaging : Obligations.WhoWritesParametersAndStaging := by
  unfold Obligations.WhoWritesParametersAndStaging
  intro s t h
  have he := effect_of_step h
  refine ⟨fun hne => he.params_cases.resolve_left fun ⟨hpar, hpv⟩ => ?_,
    fun hne => he.staging_cases.resolve_left fun ⟨hmod, hgen⟩ => ?_⟩
  · exact hne.elim (· hpar) (· hpv)
  · exact hne.elim (· hmod) (· hgen)

/-! ## BUSY and CMDCOUNT (10_state.md R48, R50) -/

namespace StepEffect

variable {s t : State} (he : StepEffect s t)
include he

/-- A command in flight stays, completes, or is abandoned by a reset (60_exceptions.md R301). -/
theorem of_busy (hb : s.status.busy = true) :
    (t.status.busy = true ∧ t.cmdCount = s.cmdCount) ∨
      (t.status.busy = false ∧ t.cmdCount = s.cmdCount + 1) ∨
      ((∃ l, s.agenda = .reset :: l) ∧ t.status.busy = false ∧ t.cmdCount = 0) := by
  cases he with
  | idle l h => simp [h] at hb
  | command l i t _ _ hc =>
    rcases hc.busy_cases with h | ⟨hbusy, hcount⟩
    · exact .inr (.inl h)
    · exact .inl ⟨hbusy.trans hb, hcount⟩
  | illegal => exact .inr (.inl (by simp))
  | read l width o =>
    obtain ⟨-, -, -, -, hcount, -, hbusy⟩ := (s.setAgenda l).hostRead_eqs width o
    exact .inl ⟨hbusy.trans hb, hcount⟩
  | write l width o v =>
    have hw := hostWrite_effect (s.setAgenda l) width o v
    obtain ⟨-, -, hcount, -⟩ := hw.fields_eq
    exact .inl ⟨hw.busy_of_busy hb, hcount⟩
  | reset l ha => exact .inr (.inr ⟨⟨l, ha⟩, rfl, rfl⟩)

/-- An idle block counts nothing, and turns busy only at an accepted command (10_state.md R49). -/
theorem of_idle (hb : s.status.busy = false) :
    (t.cmdCount = s.cmdCount ∨ (∃ l, s.agenda = .reset :: l) ∧ t.cmdCount = 0) ∧
      (t.status.busy = true → ∃ v l, s.agenda = .write 8 0x0018 v :: l) := by
  cases he with
  | idle => exact ⟨.inl rfl, by simp [hb]⟩
  | command _ _ _ h => simp [h] at hb
  | illegal _ _ h => simp [h] at hb
  | read l width o =>
    obtain ⟨-, -, -, -, hcount, -, hbusy⟩ := (s.setAgenda l).hostRead_eqs width o
    exact ⟨.inl hcount, by simp [hbusy, hb]⟩
  | write l width o v ha =>
    obtain ⟨-, -, hcount, -⟩ := (hostWrite_effect (s.setAgenda l) width o v).fields_eq
    refine ⟨.inl hcount, fun h => ?_⟩
    obtain ⟨rfl, rfl⟩ := busy_of_hostWrite (s := s.setAgenda l) hb h
    exact ⟨v, l, ha⟩
  | reset l ha => exact ⟨.inr ⟨⟨l, ha⟩, rfl⟩, nofun⟩

end StepEffect

/-- Settles O20: the two halves are the steps of a busy and of an idle block (10_state.md R48, R50). -/
theorem busyUntilCompletion : Obligations.BusyUntilCompletion := by
  unfold Obligations.BusyUntilCompletion
  intro s t h
  exact ⟨(effect_of_step h).of_busy, (effect_of_step h).of_idle⟩

/-! ## Which commands write FLAGS (10_state.md R43) -/

namespace CommandEffect

variable {i : Instr} {s t : State} (he : CommandEffect i s t)
include he

/-- A completion that writes FLAGS is without error, and writes the flags of its command only. -/
theorem flags_cases :
    t.flags = s.flags ∨ t.status.ecode = .none ∧
      (((∃ a b c, i = .wadd a b c ∨ i = .wsub a b c) ∧ ∃ x, t.flags = { s.flags with c := x }) ∨
        ((∃ a b, i = .wcmp a b) ∧ ∃ x y z, t.flags = { s.flags with z := x, lt := y, gt := z }) ∨
        ((∃ a, i = .wisz a) ∧ ∃ x, t.flags = { s.flags with z := x })) := by
  cases he with
  | carry rd rs1 rs2 v b hi => exact .inr ⟨rfl, .inl ⟨⟨rd, rs1, rs2, hi⟩, b, rfl⟩⟩
  | compare rs1 rs2 z lt gt hi => exact .inr ⟨rfl, .inr (.inl ⟨⟨rs1, rs2, hi⟩, z, lt, gt, rfl⟩)⟩
  | isZero rs1 z hi => exact .inr ⟨rfl, .inr (.inr ⟨⟨rs1, hi⟩, z, rfl⟩)⟩
  | _ => exact .inl (by simp)

end CommandEffect

/-! ## No command reads FLAGS (10_state.md R43) -/

/-- `t` is `u` with other FLAGS. -/
def State.EqButFlags (u t : State) : Prop := u.setFlags t.flags = t

/-- Two results of a command's body that differ at most in FLAGS. -/
inductive ResultEqButFlags : Except ErrorCode State → Except ErrorCode State → Prop
  | ok {u t : State} (h : u.EqButFlags t) : ResultEqButFlags (.ok u) (.ok t)
  | error (c : ErrorCode) : ResultEqButFlags (.error c) (.error c)

/-- Two outcomes with a next state that differ at most in FLAGS. -/
inductive OutcomeEqButFlags : Host.Outcome State Fault Refusal → Host.Outcome State Fault Refusal → Prop
  | next {u t : State} (h : u.EqButFlags t) : OutcomeEqButFlags (.next u) (.next t)

/-- Two branchings on one condition are related where their branches are. -/
theorem rel_ite {α : Type} {R : α → α → Prop} (p : Prop) [Decidable p] {a a' b b' : α} (ha : R a a')
    (hb : R b b') : R (if p then a else b) (if p then a' else b') := by
  split
  · exact ha
  · exact hb

namespace State.EqButFlags

/-- Every update that does not look at FLAGS keeps the relation. -/
theorem map {u t : State} (h : u.EqButFlags t) (op : State → State)
    (hop : ∀ (s : State) (f : Flags), op (s.setFlags f) = (op s).setFlags f) : (op u).EqButFlags (op t) := by
  unfold EqButFlags at h ⊢
  rw [← h, hop]
  rfl

variable {u t : State} (h : u.EqButFlags t)
include h

theorem setE (r : Reg) (v : Nat) : (u.setE r v).EqButFlags (t.setE r v) :=
  h.map (·.setE r v) fun _ _ => rfl

theorem setFlags (f g : Flags) : (u.setFlags f).EqButFlags (t.setFlags g) := by
  unfold EqButFlags at h
  rw [← h]
  rfl

theorem finish {a b : Except ErrorCode State} (hab : ResultEqButFlags a b) :
    (u.finish a).EqButFlags (t.finish b) := by
  cases hab with
  | ok hr => exact hr.map (·.succeed) fun _ _ => rfl
  | error c => exact h.map (·.fail c) fun s f => by unfold State.fail; split <;> rfl

end State.EqButFlags

theorem State.checkReduced_setFlags (s : State) (f : Flags) (l : List Reg) :
    (s.setFlags f).checkReduced l = s.checkReduced l := by
  induction l with
  | nil => rfl
  | cons r l ih => simp only [checkReduced, setFlags_params, setFlags_reg, ih]

namespace ResultEqButFlags

variable {s : State} {f : Flags} {a b : Except ErrorCode State} (h : ResultEqButFlags a b)
include h

theorem withParams : ResultEqButFlags ((s.setFlags f).withParams a) (s.withParams b) :=
  rel_ite (s.status.pv = true) h (.error _)

/-- The field prologue looks at PV, the modulus and the operands only (60_exceptions.md R309, R310). -/
theorem withField (l : List Reg) : ResultEqButFlags ((s.setFlags f).withField l a) (s.withField l b) := by
  unfold State.withField
  rw [State.checkReduced_setFlags]
  refine withParams ?_
  cases s.checkReduced l with
  | none => exact h
  | some c => exact .error c

end ResultEqButFlags

/-- Each command, run with other FLAGS, gives the same state up to FLAGS: its checks and its values are functions of
the other fields. -/
theorem exec_eqButFlags (i : Instr) (s : State) (f : Flags) :
    OutcomeEqButFlags (exec i (s.setFlags f)) (exec i s) := by
  have h : (s.setFlags f).EqButFlags s := rfl
  have hreg (rd : Reg) (v : Nat) : ResultEqButFlags (.ok ((s.setFlags f).setE rd v)) (.ok (s.setE rd v)) :=
    .ok (h.setE rd v)
  cases i with
  | nop => exact .next (h.finish (.ok h))
  | derive => exact .next (h.finish (rel_ite _ (.ok (h.map (·.loadParams _) fun _ _ => rfl)) (.error _)))
  | genchk rs1 => exact .next (h.finish (.withParams (rel_ite _ (.error _) (.ok h))))
  | ldc rd k =>
    refine .next (h.finish ?_)
    rw [State.setFlags_params]
    cases s.params.const k with
    | none => exact .error _
    | some v => exact (hreg rd v).withParams
  | mov rd _ | wshr1 rd _ | wbitlen rd _ => exact .next (h.finish (hreg rd _))
  | wadd rd _ _ | wsub rd _ _ => exact .next (h.finish (.ok ((h.setE rd _).setFlags _ _)))
  | wcmp | wisz => exact .next (h.finish (.ok (h.setFlags _ _)))
  | fadd rd _ _ | fsub rd _ _ | fmul rd _ _ | fpow rd _ _ => exact .next (h.finish ((hreg rd _).withField _))
  | fneg rd _ | fdbl rd _ | fsqr rd _ | tomont rd _ | frommont rd _ | fleg rd _ =>
    exact .next (h.finish ((hreg rd _).withField _))
  | finv rd rs1 => exact .next (h.finish (.withField (rel_ite _ (.error _) (hreg rd _)) _))
  | fsqrt rd rs1 =>
    refine .next (h.finish (.withField (rel_ite _ (hreg rd 0) (rel_ite _ (.error _) ?_)) _))
    have htonelli : (s.setFlags f).tonelli ((s.setFlags f).reg rs1) = s.tonelli (s.reg rs1) := rfl
    rw [htonelli]
    cases s.tonelli (s.reg rs1) with
    | none => exact .error _
    | some y => exact hreg rd y
  | frand rd =>
    have hdraws : (s.setFlags f).afterDraws.EqButFlags s.afterDraws := h.map (·.setRng _) fun _ _ => rfl
    show OutcomeEqButFlags (execFrand rd (s.setFlags f)) (execFrand rd s)
    unfold execFrand
    refine rel_ite (s.status.pv = true) (rel_ite (s.candidate < s.params.modulus) ?_ (.next hdraws)) ?_
    · exact .next (hdraws.finish (.ok (hdraws.setE rd _)))
    · exact .next (h.finish (.error _))

/-- Settles O18: the flags a command can write stand in its effect, and the value of none is looked at
(10_state.md R43). -/
theorem flagsWrittenOnlyByFour : Obligations.FlagsWrittenOnlyByFour := by
  unfold Obligations.FlagsWrittenOnlyByFour
  refine ⟨fun i s t h => ?_, fun i s t f h => ?_⟩
  · rcases (effect_of_exec h).flags_cases with hf | ⟨hcode, hf⟩
    · simp [hf]
    · rcases hf with ⟨⟨a, b, c, rfl | rfl⟩, x, hf⟩ | ⟨⟨a, b, rfl⟩, x, y, z, hf⟩ | ⟨⟨a, rfl⟩, x, hf⟩ <;>
        simp [hf, hcode]
  · have hrel := exec_eqButFlags i s f
    rw [h] at hrel
    generalize exec i (s.setFlags f) = o at hrel
    cases hrel with
    | next hut => exact ⟨_, rfl, hut⟩

/-! ## The bits of STATUS and FLAGS (10_state.md R42, R45) -/

theorem bit_eq_toNat (b : Bool) : bit b = b.toNat := by
  cases b <;> rfl

theorem ErrorCode.num_lt (c : ErrorCode) : c.num < 7 := by
  cases c <;> decide

/-- STATUS as a binary number, from bit 0 up; ECODE stands above three reserved bits. -/
theorem Status.toNat_word (st : Status) :
    st.word.toNat =
      Nat.bit st.busy (Nat.bit st.pv (Nat.bit st.err (Nat.bit st.ovr (Nat.bit st.badacc (8 * st.ecode.num))))) := by
  have hcode := st.ecode.num_lt
  have h0 := Bool.toNat_le st.busy
  have h1 := Bool.toNat_le st.pv
  have h2 := Bool.toNat_le st.err
  have h3 := Bool.toNat_le st.ovr
  have h4 := Bool.toNat_le st.badacc
  simp only [Status.word, BitVec.toNat_ofNat, bit_eq_toNat, Nat.bit_val]
  omega

/-- FLAGS as a binary number, from bit 0 up. -/
theorem Flags.toNat_word (f : Flags) :
    f.word.toNat = Nat.bit f.c (Nat.bit f.z (Nat.bit f.lt (Nat.bit f.gt 0))) := by
  have h0 := Bool.toNat_le f.c
  have h1 := Bool.toNat_le f.z
  have h2 := Bool.toNat_le f.lt
  have h3 := Bool.toNat_le f.gt
  simp only [Flags.word, BitVec.toNat_ofNat, bit_eq_toNat, Nat.bit_val]
  omega

theorem Status.word_bits (st : Status) :
    st.word.getLsbD 0 = st.busy ∧ st.word.getLsbD 1 = st.pv ∧ st.word.getLsbD 2 = st.err ∧
      st.word.getLsbD 3 = st.ovr ∧ st.word.getLsbD 4 = st.badacc := by
  simp only [← BitVec.testBit_toNat, Status.toNat_word, Nat.testBit_bit_zero, Nat.testBit_bit_succ, and_self]

theorem Flags.word_bits (f : Flags) :
    f.word.getLsbD 0 = f.c ∧ f.word.getLsbD 1 = f.z ∧ f.word.getLsbD 2 = f.lt ∧ f.word.getLsbD 3 = f.gt := by
  simp only [← BitVec.testBit_toNat, Flags.toNat_word, Nat.testBit_bit_zero, Nat.testBit_bit_succ, and_self]

/-- The fields of STATUS above its flags: reserved bits, ECODE, reserved bits. -/
theorem Status.word_fields (st : Status) :
    st.word.toNat / 2 ^ 5 % 2 ^ 3 = 0 ∧ st.word.toNat / 2 ^ 8 % 2 ^ 4 = st.ecode.num ∧
      st.word.toNat / 2 ^ 12 = 0 := by
  have hcode := st.ecode.num_lt
  have h5 : st.word.toNat / 2 / 2 / 2 / 2 / 2 = 8 * st.ecode.num := by
    simp only [Status.toNat_word, Nat.bit_div_two]
  omega

theorem Flags.word_reserved (f : Flags) : f.word.toNat / 2 ^ 4 = 0 := by
  have h4 : f.word.toNat / 2 / 2 / 2 / 2 = 0 := by
    simp only [Flags.toNat_word, Nat.bit_div_two]
  omega

/-! ## Accesses to STATUS and CMD (10_state.md R45, R49) -/

theorem step_of_write {s : State} {l : List Event} {width : Nat} {o : Offset} {v : Word}
    (ha : s.agenda = .write width o v :: l) : step s = .next ((s.setAgenda l).hostWrite width o v) := by
  unfold step
  rw [ha]

theorem step_of_read {s : State} {l : List Event} {width : Nat} {o : Offset}
    (ha : s.agenda = .read width o :: l) : step s = .next ((s.setAgenda l).hostRead width o) := by
  unfold step
  rw [ha]

theorem accessTarget_status (n : Nat) : accessTarget n 8 0x0008 = some .status := rfl

theorem accessTarget_cmd (n : Nat) : accessTarget n 8 0x0018 = some .cmd := rfl

namespace State

variable (s : State) (v : Word)

/-- A write to STATUS acknowledges, busy or not (20_memory.md R84). -/
theorem hostWrite_status : s.hostWrite 8 0x0008 v = s.ackStatus v := by
  unfold hostWrite
  rw [accessTarget_status]
  simp [Target.readOnly, poke]

theorem hostWrite_cmd_of_idle (hb : s.status.busy = false) : s.hostWrite 8 0x0018 v = s.acceptCommand v := by
  unfold hostWrite
  rw [accessTarget_cmd]
  simp [Target.readOnly, poke, hb]

theorem hostWrite_cmd_of_busy (hb : s.status.busy = true) : s.hostWrite 8 0x0018 v = s.noteOverrun := by
  unfold hostWrite
  rw [accessTarget_cmd]
  simp [Target.readOnly, hb]

theorem hostRead_cmd : s.hostRead 8 0x0018 = s.setReadData 0 := by
  unfold hostRead
  rw [accessTarget_cmd]
  simp [Target.hiddenWhileBusy, peek]

/-- W1C: a bit of the value clears, and a zero keeps. -/
theorem ackStatus_eq :
    s.ackStatus v = s.setStatus { s.status with
      err := if v.getLsbD 2 then false else s.status.err
      ovr := if v.getLsbD 3 then false else s.status.ovr
      badacc := if v.getLsbD 4 then false else s.status.badacc } := by
  have hclear (b c : Bool) : (b && !c) = if c then false else b := by cases c <;> simp
  simp only [ackStatus, hclear]

end State

/-- Settles O27: the two words as binary numbers, and the W1C write (10_state.md R42, R45). -/
theorem statusAndFlagsBits : Obligations.StatusAndFlagsBits := by
  unfold Obligations.StatusAndFlagsBits
  refine ⟨fun st => ?_, fun f => ?_, fun s l v ha => ?_⟩
  · obtain ⟨hbusy, hpv, herr, hovr, hbad⟩ := st.word_bits
    exact ⟨hbusy, hpv, herr, hovr, hbad, st.word_fields⟩
  · obtain ⟨hc, hz, hlt, hgt⟩ := f.word_bits
    exact ⟨hc, hz, hlt, hgt, f.word_reserved⟩
  · rw [step_of_write ha, State.hostWrite_status, State.ackStatus_eq]
    rfl

/-- Settles O28: each access to CMD as the whole next state (10_state.md R49). -/
theorem commandAcceptance : Obligations.CommandAcceptance := by
  unfold Obligations.CommandAcceptance
  intro s l v
  refine ⟨fun ha hb => ?_, fun ha hb => ?_, fun ha => ?_⟩
  · rw [step_of_write ha, (s.setAgenda l).hostWrite_cmd_of_idle v hb]
    rfl
  · rw [step_of_write ha, (s.setAgenda l).hostWrite_cmd_of_busy v hb]
    rfl
  · rw [step_of_read ha, State.hostRead_cmd]

end Sys2Proof.Machine
end

section
/-! PROOFS. The HOST's port (20_memory.md): the register map read both ways (a target's offset is mapped to it
where its word lies in the block, and a mapped offset is that of its target), then what one read and one write do
by the target they name, and the accesses of R75, R80 and R84 as uses of these rules. -/

namespace Sys2Proof.Machine

/-! ## The register map (20_memory.md R73, R74) -/

/-- The word of its register that a target names: word 0 where the register has only one. -/
def Target.word : Target → Nat
  | .id => 0
  | .status => 0
  | .flags => 0
  | .cmd => 0
  | .cmdCount => 0
  | .scalar _ => 0
  | .wide _ j => j
  | .modIn j => j
  | .genIn j => j
  | .elem _ j => j

theorem Target.offset_aligned (t : Target) : t.offset % 8 = 0 := by
  cases t <;> simp only [Target.offset] <;> omega

/-- A mapped offset lies in the word that its target names, and the block has that word. -/
theorem word_lt_and_offset_of_mapTarget {n o : Nat} {t : Target} (hn : 0 < n) (h : mapTarget n o = some t) :
    t.word < n ∧ t.offset = o / 8 * 8 := by
  unfold mapTarget at h
  simp only at h
  repeat' split at h
  all_goals cases h
  all_goals simp only [Target.word, Target.offset]; omega

/-- A window starts at a multiple of 0x80, so that the word is what lies above it. -/
theorem word_in_window {base j : Nat} (hb : base % 0x80 = 0) (hj : j < 16) : (base + 8 * j) % 0x80 / 8 = j := by
  omega

/-- The windows of a bank of `m` registers follow each other at a distance of 0x80. -/
theorem window_of_offset {base k j m : Nat} (hk : k < m) (hj : j < 16) :
    (base + 0x80 * k + 8 * j - base) / 0x80 % m = k := by
  have hdiv : (base + 0x80 * k + 8 * j - base) / 0x80 = k := by omega
  rw [hdiv, Nat.mod_eq_of_lt hk]

/-- The offset of a target is mapped to it where the block has its word; the windows are 16 words wide. -/
theorem mapTarget_offset_of_word_lt {n : Nat} (hn : n ≤ 16) {t : Target} (h : t.word < n) :
    mapTarget n t.offset = some t := by
  cases t with
  | id | status | flags | cmd | cmdCount => rfl
  | scalar i => fin_cases i <;> rfl
  | wide k j | modIn j | genIn j | elem r j =>
    simp only [Target.word] at h
    simp (disch := omega) only [mapTarget, Target.offset, if_neg, if_pos, word_in_window, window_of_offset]

/-- The offset of any word that a block could have is mapped where this block has it, and to no other target. -/
theorem mapTarget_offset {n : Nat} (h0 : 0 < n) (hn : n ≤ 16) {t : Target} (ht : t.word < 16) :
    mapTarget n t.offset = if t.word < n then some t else none := by
  split
  · exact mapTarget_offset_of_word_lt hn ‹_›
  · rename_i hw
    refine Option.eq_none_iff_forall_ne_some.2 fun u hu => hw ?_
    obtain ⟨huw, huo⟩ := word_lt_and_offset_of_mapTarget h0 hu
    have hut : u.offset = t.offset := by have := t.offset_aligned; omega
    have hsame : some u = some t := by
      rw [← mapTarget_offset_of_word_lt le_rfl ht, ← hut, mapTarget_offset_of_word_lt le_rfl (huw.trans_le hn)]
    exact Option.some.inj hsame ▸ huw

/-- The gaps of the map (20_memory.md R74). -/
theorem mapTarget_gap {n o : Nat} (h0 : 0 < n) (hn : n ≤ 16)
    (ho : 0x0050 ≤ o ∧ o < 0x0400 ∨ 0x0900 ≤ o ∧ o < 0x1000 ∨ 0x1800 ≤ o) : mapTarget n o = none := by
  refine Option.eq_none_iff_forall_ne_some.2 fun t ht => ?_
  obtain ⟨hw, hto⟩ := word_lt_and_offset_of_mapTarget h0 ht
  cases t <;> simp only [Target.word, Target.offset] at hw hto <;> omega

/-- Settles O22: each window is `mapTarget_offset` at its target (20_memory.md R73, R74). -/
theorem registerMapLayout : Obligations.RegisterMapLayout := by
  unfold Obligations.RegisterMapLayout
  intro c
  have h0 := n_pos c
  have hn := n_le c
  refine ⟨fun o t ho ht => ?_, rfl, rfl, rfl, rfl, rfl, fun k => ?_, fun k j hj => ?_, fun j hj => ?_, fun j hj => ?_,
    fun r j hj => ?_, fun o ho => mapTarget_gap h0 hn ho⟩
  · have hto := (word_lt_and_offset_of_mapTarget h0 ht).2
    omega
  · exact mapTarget_offset_of_word_lt (t := .scalar k) hn h0
  · exact mapTarget_offset (t := .wide k j) h0 hn hj
  · exact mapTarget_offset (t := .modIn j) h0 hn hj
  · exact mapTarget_offset (t := .genIn j) h0 hn hj
  · exact mapTarget_offset (t := .elem r j) h0 hn hj

/-! ## What an access names (20_memory.md R71, R80) -/

theorem accessTarget_eq_some_iff {n width : Nat} {o : Offset} {t : Target} :
    accessTarget n width o = some t ↔ width = 8 ∧ o.toNat % 8 = 0 ∧ mapTarget n o.toNat = some t := by
  unfold accessTarget
  split
  · simp only [reduceCtorEq, false_iff]
    omega
  · have hw : width = 8 ∧ o.toNat % 8 = 0 := by omega
    simp only [hw, true_and]

theorem accessTarget_eq_none_iff {n width : Nat} {o : Offset} :
    accessTarget n width o = none ↔ width ≠ 8 ∨ o.toNat % 8 ≠ 0 ∨ mapTarget n o.toNat = none := by
  unfold accessTarget
  rw [← or_assoc]
  split
  · simp only [*, true_or]
  · simp only [*, false_or]

/-- Where an access names a register, only the last case `p` can make it a bad one. -/
theorem mapTarget_and_of_accessTarget {n width : Nat} {o : Offset} {t : Target} {p : Prop}
    (ht : accessTarget n width o = some t)
    (h : width ≠ 8 ∨ o.toNat % 8 ≠ 0 ∨ mapTarget n o.toNat = none ∨ p) : mapTarget n o.toNat = some t ∧ p := by
  obtain ⟨hw, haligned, hmap⟩ := accessTarget_eq_some_iff.1 ht
  simpa [hw, haligned, hmap] using h

/-- An 8-byte access at the offset of a word of the block names that word. -/
theorem accessTarget_of_offset {c : Config} {o : Offset} {t : Target} (hw : t.word < c.n) (ho : o.toNat = t.offset) :
    accessTarget c.n 8 o = some t :=
  accessTarget_eq_some_iff.2 ⟨rfl, ho ▸ t.offset_aligned, ho ▸ mapTarget_offset_of_word_lt (n_le c) hw⟩

/-- The offsets of ID, FLAGS, CMDCOUNT and the parameters are those of read-only registers. -/
theorem Target.readOnly_of_offset {t : Target}
    (h : t.offset = 0x0000 ∨ t.offset = 0x0010 ∨ t.offset = 0x0020 ∨ (0x0028 ≤ t.offset ∧ t.offset < 0x0050) ∨
      (0x0400 ≤ t.offset ∧ t.offset < 0x0800)) : t.readOnly = true := by
  cases t with
  | id | flags | cmdCount | scalar | wide => rfl
  | status | cmd | modIn | genIn | elem => simp only [Target.offset] at h; omega

/-! ## What one access does, by the target it names (20_memory.md R75, R80, R84) -/

namespace State

variable {s : State} {width : Nat} {o : Offset} {t : Target}

theorem hostRead_of_visible (ht : accessTarget s.cfg.n width o = some t)
    (hv : s.status.busy = false ∨ t.hiddenWhileBusy = false) : s.hostRead width o = s.setReadData (s.peek t) := by
  unfold hostRead
  rcases hv with hv | hv <;> simp [ht, hv]

theorem hostRead_of_hidden (ht : accessTarget s.cfg.n width o = some t) (hb : s.status.busy = true)
    (hv : t.hiddenWhileBusy = true) :
    s.hostRead width o = (s.setReadData (Config.busyRead s.busyReads)).setBusyReads (s.busyReads + 1) := by
  unfold hostRead
  simp [ht, hb, hv]

theorem hostRead_of_bad (ht : accessTarget s.cfg.n width o = none) :
    s.hostRead width o = s.noteBadAccess.setReadData 0 := by
  unfold hostRead
  rw [ht]

variable {v : Word}

theorem hostWrite_of_effective (ht : accessTarget s.cfg.n width o = some t) (hw : t.readOnly = false)
    (hb : s.status.busy = false ∨ t = .status) : s.hostWrite width o v = s.poke t v := by
  unfold hostWrite
  rcases hb with hb | rfl
  · simp [ht, hw, hb]
  · simp [ht, hw]

theorem hostWrite_of_discarded (ht : accessTarget s.cfg.n width o = some t) (hw : t.readOnly = false)
    (hb : s.status.busy = true) (hst : t ≠ .status) : s.hostWrite width o v = s.noteOverrun := by
  unfold hostWrite
  simp [ht, hw, hb, hst]

/-- A write that names no register, or a read-only one, is a bad access, busy or not. -/
theorem hostWrite_of_bad (h : ∀ t, accessTarget s.cfg.n width o = some t → t.readOnly = true) :
    s.hostWrite width o v = s.noteBadAccess := by
  unfold hostWrite
  cases ht : accessTarget s.cfg.n width o with
  | none => rfl
  | some t => simp [h t ht]

end State

/-- The 64-bit word read is cut from the register, whatever its words above hold. -/
theorem ofNat_wordOf (x j : Nat) : BitVec.ofNat 64 (wordOf x j) = BitVec.ofNat 64 (x / 2 ^ (64 * j)) :=
  BitVec.eq_of_toNat_eq (by simp [wordOf])

/-- Writing a word makes it the value written and keeps every bit outside it. -/
theorem withWord_replaces (x j : Nat) (v : Word) :
    withWord x j v / 2 ^ (64 * j) % 2 ^ 64 = v.toNat ∧
      ∀ i, i < 64 * j ∨ 64 * j + 64 ≤ i → (withWord x j v).testBit i = x.testBit i := by
  refine ⟨wordOf_withWord x j v, fun i hi => ?_⟩
  rw [testBit_withWord]
  split
  · rfl
  · rw [if_neg (by omega)]

/-! ## The steps of the HOST -/

section Step

variable {s : State} {l : List Event} {width : Nat} {o : Offset} {t : Target} {v : Word}

theorem step_read_of_visible (ha : s.agenda = .read width o :: l) (ht : accessTarget s.cfg.n width o = some t)
    (hv : s.status.busy = false ∨ t.hiddenWhileBusy = false) :
    step s = .next ((s.setAgenda l).setReadData (s.peek t)) := by
  rw [step_of_read ha, State.hostRead_of_visible (s := s.setAgenda l) ht hv]
  rfl

theorem step_read_of_bad (ha : s.agenda = .read width o :: l)
    (h : width ≠ 8 ∨ o.toNat % 8 ≠ 0 ∨ mapTarget s.cfg.n o.toNat = none) :
    step s = .next (((s.setAgenda l).setStatus { s.status with badacc := true }).setReadData 0) := by
  rw [step_of_read ha, State.hostRead_of_bad (s := s.setAgenda l) (accessTarget_eq_none_iff.2 h)]
  rfl

theorem step_write_of_effective (ha : s.agenda = .write width o v :: l) (ht : accessTarget s.cfg.n width o = some t)
    (hw : t.readOnly = false) (hb : s.status.busy = false ∨ t = .status) :
    step s = .next ((s.setAgenda l).poke t v) := by
  rw [step_of_write ha, State.hostWrite_of_effective (s := s.setAgenda l) ht hw hb]

theorem step_write_of_bad (ha : s.agenda = .write width o v :: l)
    (h : ∀ t, accessTarget s.cfg.n width o = some t → t.readOnly = true) :
    step s = .next ((s.setAgenda l).setStatus { s.status with badacc := true }) := by
  rw [step_of_write ha, State.hostWrite_of_bad (s := s.setAgenda l) h]
  rfl

end Step

/-- Settles O23: each clause is `step_read_of_visible` at its target (20_memory.md R75, R76). -/
theorem hostReadsReturnTheRegister : Obligations.HostReadsReturnTheRegister := by
  unfold Obligations.HostReadsReturnTheRegister
  intro s l o ha hb
  have read {t : Target} (hw : t.word < s.cfg.n) (ho : o.toNat = t.offset) :
      step s = .next ((s.setAgenda l).setReadData (s.peek t)) :=
    step_read_of_visible ha (accessTarget_of_offset hw ho) (.inl hb)
  have h0 := n_pos s.cfg
  simp only [← ofNat_wordOf]
  exact ⟨fun r j hj ho => read (t := .elem r j) hj ho, fun j hj ho => read (t := .modIn j) hj ho,
    fun j hj ho => read (t := .genIn j) hj ho, fun k j hj ho => read (t := .wide k j) hj ho,
    fun k ho => read (t := .scalar k) h0 ho, fun ho => read (t := .id) h0 ho, fun ho => read (t := .status) h0 ho,
    fun ho => read (t := .flags) h0 ho, fun ho => read (t := .cmd) h0 ho, fun ho => read (t := .cmdCount) h0 ho⟩

/-- Settles O24: the register gets `withWord` of what it held (20_memory.md R75). -/
theorem hostWritesReplaceOneWord : Obligations.HostWritesReplaceOneWord := by
  unfold Obligations.HostWritesReplaceOneWord
  intro s l o v j ha hb hj
  have write {t : Target} (hw : t.word < s.cfg.n) (ho : o.toNat = t.offset) (hro : t.readOnly = false) :
      step s = .next ((s.setAgenda l).poke t v) :=
    step_write_of_effective ha (accessTarget_of_offset hw ho) hro (.inl hb)
  exact ⟨fun r ho => ⟨_, write (t := .elem r j) hj ho rfl, withWord_replaces _ j v⟩,
    fun ho => ⟨_, write (t := .modIn j) hj ho rfl, withWord_replaces _ j v⟩,
    fun ho => ⟨_, write (t := .genIn j) hj ho rfl, withWord_replaces _ j v⟩⟩

/-- Settles O25: a bad read names no register, a bad write none or a read-only one (20_memory.md R80). -/
theorem badAccessesSetBadaccOnly : Obligations.BadAccessesSetBadaccOnly := by
  unfold Obligations.BadAccessesSetBadaccOnly
  refine fun s l w o => ⟨step_read_of_bad, fun v ha hbad => step_write_of_bad ha fun t ht => ?_⟩
  obtain ⟨hmap, ho⟩ := mapTarget_and_of_accessTarget ht hbad
  have hto := (word_lt_and_offset_of_mapTarget (n_pos s.cfg) hmap).2
  exact Target.readOnly_of_offset (by omega)

/-- Settles O26: a write is discarded, acts or is bad, and a read is visible, hidden or bad, by the target it names
(20_memory.md R84). -/
theorem busyWindow : Obligations.BusyWindow := by
  unfold Obligations.BusyWindow
  refine ⟨fun s l o t hb haligned hmap => ?_, fun s l w o hb => ⟨step_read_of_bad, fun v ha hbad => ?_⟩⟩
  · have ht : accessTarget s.cfg.n 8 o = some t := accessTarget_eq_some_iff.2 ⟨rfl, haligned, hmap⟩
    refine ⟨fun v ha hdata => ?_, fun v ha hst => ?_, fun ha => ?_, fun ha hhidden => ?_⟩
    · obtain ⟨hro, hst⟩ : t.readOnly = false ∧ t ≠ .status := by
        rcases hdata with rfl | ⟨j, rfl | rfl⟩ | ⟨r, j, rfl⟩ <;> exact ⟨rfl, nofun⟩
      rw [step_of_write ha, State.hostWrite_of_discarded (s := s.setAgenda l) ht hro hb hst]
      rfl
    · subst hst
      exact step_write_of_effective ha ht rfl (.inr rfl)
    · have read (hv : t.hiddenWhileBusy = false) := step_read_of_visible ha ht (.inr hv)
      refine ⟨?_, ?_, ?_, ?_⟩ <;> rintro rfl <;> exact read rfl
    · have hv : t.hiddenWhileBusy = true := by
        rcases hhidden with rfl | ⟨j, rfl | rfl⟩ | ⟨r, j, rfl⟩ | ⟨k, j, rfl⟩ | ⟨k, rfl⟩ <;> rfl
      exact ⟨_, _, by rw [step_of_read ha, State.hostRead_of_hidden (s := s.setAgenda l) ht hb hv]⟩
  · refine step_write_of_bad ha fun t ht => ?_
    obtain ⟨hmap, u, hu, hro⟩ := mapTarget_and_of_accessTarget ht hbad
    obtain rfl : u = t := Option.some.inj (hu.symm.trans hmap)
    rcases hro with rfl | rfl | rfl | ⟨k, rfl⟩ | ⟨k, j, rfl⟩ <;> rfl

end Sys2Proof.Machine
end

section
/-! PROOFS. The decoder and the encoder (30_encoding.md R100 to R112): which words decode and to what, said once as
`decode_eq_ok_iff`; the rows of the opcode map against the commands, both ways; what an illegal word does. -/

namespace Sys2Proof

/-! ## What the decoder accepts (30_encoding.md R107, R109) -/

/-- The fields a format allows: one it does not use is 0, and the K of LDC is at most 13 (30_encoding.md R107). -/
def Format.Allows (f : Format) (rd rs1 rs2 : Reg) : Prop :=
  (f.hasRd = false → rd = 0) ∧ (f.hasRs1 = false → rs1 = 0) ∧ (f.hasRs2 = false → rs2 = 0) ∧
    (f = .DK → rs2.val < 14)

/-- What a format refuses, field by field. -/
theorem Format.not_allows_iff {f : Format} {rd rs1 rs2 : Reg} :
    ¬ f.Allows rd rs1 rs2 ↔ (f.hasRd = false ∧ rd ≠ 0) ∨ (f.hasRs1 = false ∧ rs1 ≠ 0) ∨
      (f.hasRs2 = false ∧ rs2 ≠ 0) ∨ (f = .DK ∧ 14 ≤ rs2.val) := by
  simp only [Format.Allows, not_and_or, Classical.not_imp, not_lt, ne_eq]

/-- A word is legal exactly when its reserved field is 0, its OP has a row and the row's format allows its fields; it
decodes to the row's command. -/
theorem decode_eq_ok_iff {c : CmdWord} {i : Instr} :
    decode c = .ok i ↔ resField c = 0 ∧ ∃ row, findOp (opField c) = some row ∧
      row.format.Allows (rdField c) (rs1Field c) (rs2Field c) ∧
      row.make (rdField c) (rs1Field c) (rs2Field c) = i := by
  unfold decode
  by_cases hres : resField c = 0
  · cases hrow : findOp (opField c) with
    | none => simp [hres]
    | some row =>
      simp only [hres, ne_eq, not_true_eq_false, if_false, true_and, Option.some.injEq, exists_eq_left',
        Format.Allows]
      -- each of the decoder's four tests refuses what one part of `Allows` excludes
      split_ifs <;> simp_all
  · simp [hres]

/-- The three ways a word is illegal. -/
theorem exists_decode_eq_error_iff {c : CmdWord} :
    (∃ e, decode c = .error e) ↔ resField c ≠ 0 ∨ findOp (opField c) = none ∨
      ∃ row, findOp (opField c) = some row ∧ ¬ row.format.Allows (rdField c) (rs1Field c) (rs2Field c) := by
  have hok : (∃ e, decode c = .error e) ↔ ¬ ∃ i, decode c = .ok i := by cases decode c <;> simp
  simp only [hok, decode_eq_ok_iff]
  cases findOp (opField c) with
  | none => simp
  | some row => simp [imp_iff_not_or]

/-! ## The rows of the opcode map (30_encoding.md R106) -/

theorem mem_of_findOp {op : Nat} {row : OpRow} (h : findOp op = some row) : row ∈ opMap ∧ row.op = op :=
  ⟨List.mem_of_find?_eq_some h, by simpa using List.find?_some h⟩

theorem op_lt_of_findOp {op : Nat} {row : OpRow} (h : findOp op = some row) : op < 256 := by
  obtain ⟨hmem, rfl⟩ := mem_of_findOp h
  have hall : ∀ r ∈ opMap, r.op < 256 := by decide
  exact hall row hmem

theorem findOp_eq_none_iff {op : Nat} : findOp op = none ↔ op ∉ opMap.map OpRow.op := by
  simp [findOp]

/-- A row's command encodes to the row's OP and the fields its format uses, the others 0. -/
theorem encode_make {row : OpRow} (h : row ∈ opMap) (rd rs1 rs2 : Reg) :
    encode (row.make rd rs1 rs2) = assemble row.op (if row.format.hasRd then rd else 0)
      (if row.format.hasRs1 then rs1 else 0) (if row.format.hasRs2 then rs2 else 0) := by
  fin_cases h <;> rfl

/-- LDC is the one row whose command may be ill-formed. -/
theorem wellFormed_make {row : OpRow} (h : row ∈ opMap) (rd rs1 rs2 : Reg) :
    (row.make rd rs1 rs2).wellFormed = true ↔ (row.format = .DK → rs2.val < 14) := by
  fin_cases h <;> simp [Instr.wellFormed]

/-- A row's command on fields the format allows is well-formed, and its word holds just these fields. -/
theorem encode_make_of_allows {op : Nat} {row : OpRow} {rd rs1 rs2 : Reg} (h : findOp op = some row)
    (hf : row.format.Allows rd rs1 rs2) :
    (row.make rd rs1 rs2).wellFormed = true ∧ encode (row.make rd rs1 rs2) = assemble op rd rs1 rs2 := by
  obtain ⟨hmem, rfl⟩ := mem_of_findOp h
  obtain ⟨hrd, hrs1, hrs2, hk⟩ := hf
  refine ⟨(wellFormed_make hmem rd rs1 rs2).2 hk, ?_⟩
  rw [encode_make hmem, ite_eq_left_iff.2 fun hu => (hrd (by simpa using hu)).symm,
    ite_eq_left_iff.2 fun hu => (hrs1 (by simpa using hu)).symm,
    ite_eq_left_iff.2 fun hu => (hrs2 (by simpa using hu)).symm]

/-- Every well-formed command is a row's command on fields the row's format allows, and its word is put together from
that OP and these fields: one case for each format (30_encoding.md R102). -/
theorem exists_row_of_wellFormed {i : Instr} (h : i.wellFormed = true) :
    ∃ op rd rs1 rs2 row, encode i = assemble op rd rs1 rs2 ∧ findOp op = some row ∧ row.make rd rs1 rs2 = i ∧
      row.format.Allows rd rs1 rs2 := by
  cases i with
  | nop | derive => exact ⟨_, _, _, _, _, rfl, rfl, rfl, fun _ => rfl, fun _ => rfl, fun _ => rfl, nofun⟩
  | frand => exact ⟨_, _, _, _, _, rfl, rfl, rfl, nofun, fun _ => rfl, fun _ => rfl, nofun⟩
  | genchk | wisz => exact ⟨_, _, _, _, _, rfl, rfl, rfl, fun _ => rfl, nofun, fun _ => rfl, nofun⟩
  | wcmp => exact ⟨_, _, _, _, _, rfl, rfl, rfl, fun _ => rfl, nofun, nofun, nofun⟩
  | mov | wshr1 | wbitlen | fneg | fdbl | fsqr | tomont | frommont | finv | fleg | fsqrt =>
    exact ⟨_, _, _, _, _, rfl, rfl, rfl, nofun, nofun, fun _ => rfl, nofun⟩
  | wadd | wsub | fadd | fsub | fmul | fpow => exact ⟨_, _, _, _, _, rfl, rfl, rfl, nofun, nofun, nofun, nofun⟩
  | ldc rd k =>
    exact ⟨_, _, _, _, _, rfl, rfl, rfl, nofun, fun _ => rfl, nofun, fun _ => of_decide_eq_true h⟩

/-- Settles O1: a command's word reads back as its row's OP and fields, and these decode to the row's command. -/
theorem decodeOfEncodeIsTheCommand : Obligations.DecodeOfEncodeIsTheCommand := by
  unfold Obligations.DecodeOfEncodeIsTheCommand
  intro i hi
  obtain ⟨op, rd, rs1, rs2, row, henc, hrow, hmake, hallows⟩ := exists_row_of_wellFormed hi
  obtain ⟨hop, hrd, hrs1, hrs2, hres⟩ := assemble_fields (op_lt_of_findOp hrow) rd rs1 rs2
  rw [decode_eq_ok_iff, henc, hop, hrd, hrs1, hrs2]
  exact ⟨hres, row, hrow, hallows, hmake⟩

/-- Settles O2: the row that decodes a word encodes its command from the word's own fields. -/
theorem decodedWordsReencode : Obligations.DecodedWordsReencode := by
  unfold Obligations.DecodedWordsReencode
  intro c i h
  obtain ⟨hres, row, hrow, hallows, rfl⟩ := decode_eq_ok_iff.1 h
  obtain ⟨hwf, henc⟩ := encode_make_of_allows hrow hallows
  exact ⟨hwf, henc.trans (assemble_of_fields hres)⟩

/-! ## The illegal words (30_encoding.md R107) -/

/-- The rows whose format leaves a field unused, field by field, and the one row with an index. -/
theorem unused_fields_of_row : ∀ row ∈ opMap,
    (row.format.hasRd = false ↔ row.op ∈ [0x00, 0x01, 0x02, 0x15, 0x10]) ∧
    (row.format.hasRs1 = false ↔ row.op ∈ [0x00, 0x01, 0x38, 0x03]) ∧
    (row.format.hasRs2 = false ↔ row.op ∈ [0x00, 0x01, 0x38, 0x02, 0x15, 0x04, 0x13, 0x14, 0x22, 0x23, 0x25, 0x26,
      0x27, 0x31, 0x32, 0x33]) ∧
    (row.format = .DK ↔ row.op = 0x03) := by
  decide

namespace Machine

theorem step_of_engine {s : State} {l : List Event} (ha : s.agenda = .engine :: l) :
    step s = engineStep (s.setAgenda l) := by
  unfold step
  rw [ha]

theorem engineStep_of_illegal {s : State} {e : DecodeError} (hb : s.status.busy = true)
    (hd : decode s.pending = .error e) : engineStep s = .next (s.fail .illegalCommand) := by
  simp [engineStep, State.fetch, hb, hd]

end Machine

/-- Settles O3: the decoder's three refusals against the rows of the map, the OPs without a row, and the ENGINE's
completion of an illegal word. -/
theorem illegalWordsAreThese : Obligations.IllegalWordsAreThese := by
  unfold Obligations.IllegalWordsAreThese
  refine ⟨fun c => ?_, fun op hop => ?_, fun s l e ha hb hd => ?_⟩
  · rw [exists_decode_eq_error_iff]
    cases hrow : findOp (opField c) with
    | none => exact iff_of_true (.inr (.inl rfl)) (.inr (.inl (findOp_eq_none_iff.1 hrow)))
    | some row =>
      obtain ⟨hmem, hop⟩ := mem_of_findOp hrow
      obtain ⟨hrd, hrs1, hrs2, hk⟩ := unused_fields_of_row row hmem
      rw [hop] at hrd hrs1 hrs2 hk
      have hmap : opField c ∈ opMap.map OpRow.op := hop ▸ List.mem_map_of_mem hmem
      rw [← hrd, ← hrs1, ← hrs2, ← hk]
      refine or_congr Iff.rfl (or_congr (iff_of_false nofun (not_not_intro hmap)) ?_)
      simp only [Option.some.injEq, exists_eq_left', Format.not_allows_iff]
  · rw [findOp_eq_none_iff]
    simp only [opMap, List.cons_append, List.nil_append, List.map_cons, List.map_nil, List.mem_cons, List.not_mem_nil,
      or_false]
    omega
  · rw [Machine.step_of_engine ha, Machine.engineStep_of_illegal (s := s.setAgenda l) hb hd]
    rfl

end Sys2Proof
end

section
/-! PROOFS. The WordVector commands (40_wordvector.md R131 to R136): the one next state of each, since none of them
checks anything; then what the values and the flags in it are, as facts about integers. -/

namespace Sys2Proof.Machine

/-! ## The next state of each command -/

section Exec

variable (s : State) (rd rs1 rs2 : Reg)

theorem exec_wcmp : exec (.wcmp rs1 rs2) s =
    .next (s.setFlags (s.flags.afterCompare (s.reg rs1) (s.reg rs2))).succeed := rfl

theorem exec_wadd : exec (.wadd rd rs1 rs2) s =
    .next ((s.setE rd ((s.reg rs1 + s.reg rs2) % 2 ^ s.cfg.w)).setFlags
      (s.flags.afterAdd s.cfg.w (s.reg rs1) (s.reg rs2))).succeed := rfl

theorem exec_wsub : exec (.wsub rd rs1 rs2) s =
    .next ((s.setE rd (wrappedSub s.cfg.w (s.reg rs1) (s.reg rs2))).setFlags
      (s.flags.afterSub (s.reg rs1) (s.reg rs2))).succeed := rfl

theorem exec_wshr1 : exec (.wshr1 rd rs1) s = .next (s.setE rd (s.reg rs1 >>> 1)).succeed := rfl

theorem exec_wbitlen : exec (.wbitlen rd rs1) s = .next (s.setE rd (bitlen (s.reg rs1))).succeed := rfl

theorem exec_wisz : exec (.wisz rs1) s = .next (s.setFlags (s.flags.afterIsZero (s.reg rs1))).succeed := rfl

end Exec

/-! ## The carry of a sum (40_wordvector.md R132) -/

section Carry

variable {w a b : Nat} (ha : a < 2 ^ w) (hb : b < 2 ^ w)
include ha hb

/-- Two W-bit integers have a sum below 2^(W+1). -/
theorem shiftRight_add_le_one : (a + b) >>> w ≤ 1 := by
  have hsum : a + b < 2 ^ w * 2 := by omega
  rw [Nat.shiftRight_eq_div_pow]
  exact Nat.le_of_lt_succ (Nat.div_lt_of_lt_mul hsum)

theorem shiftRight_add_eq_one_iff : (a + b) >>> w = 1 ↔ 2 ^ w ≤ a + b := by
  have hle := shiftRight_add_le_one ha hb
  have hpos : 1 ≤ (a + b) >>> w ↔ 2 ^ w ≤ a + b := by
    rw [Nat.shiftRight_eq_div_pow, Nat.one_le_div_iff (by positivity)]
  rw [← hpos]
  omega

/-- The model's C, a comparison, is the carry bit. -/
theorem Flags.afterAdd_eq_carry (f : Flags) : f.afterAdd w a b = { f with c := decide ((a + b) >>> w = 1) } := by
  simp only [Flags.afterAdd, shiftRight_add_eq_one_iff ha hb]

end Carry

/-- Settles O30: C is the bit of weight 2^W of the sum, which is at most 1 under the register widths. -/
theorem waddResult : Obligations.WaddResult := by
  unfold Obligations.WaddResult
  refine fun s rd rs1 rs2 => ⟨rfl, fun hwf => ?_⟩
  obtain ⟨hreg, -⟩ := hwf
  rw [exec_wadd, Flags.afterAdd_eq_carry (hreg rs1) (hreg rs2)]
  exact ⟨rfl, shiftRight_add_le_one (hreg rs1) (hreg rs2)⟩

/-! ## The difference (40_wordvector.md R133) -/

/-- Settles O31: the wrapped difference is the integer difference modulo 2^W. -/
theorem wsubResult : Obligations.WsubResult := by
  unfold Obligations.WsubResult
  exact fun s rd rs1 rs2 => ⟨rfl, _, wrappedSub_int _ _ _, exec_wsub s rd rs1 rs2⟩

/-! ## The flags of a comparison (40_wordvector.md R131) -/

/-- Exactly one of equal, below and above holds. -/
theorem compare_exactly_one (a b : Nat) :
    ((decide (a = b) && !decide (a < b) && !decide (b < a)) || (!decide (a = b) && decide (a < b) && !decide (b < a)) ||
      (!decide (a = b) && !decide (a < b) && decide (b < a))) = true := by
  rcases lt_trichotomy a b with h | rfl | h
  · simp [h, h.ne, h.not_gt]
  · simp
  · simp [h, h.ne', h.not_gt]

/-- Settles O32: the flags are the three comparisons of the two integers, and the test for 0. -/
theorem wcmpAndWiszResult : Obligations.WcmpAndWiszResult := by
  unfold Obligations.WcmpAndWiszResult
  exact fun s rs1 rs2 => ⟨rfl, rfl,
    ⟨_, _, _, exec_wcmp s rs1 rs2, decide_eq_true_iff, decide_eq_true_iff, decide_eq_true_iff,
      compare_exactly_one _ _⟩, exec_wisz s rs1⟩

/-! ## The shift and the bit length (40_wordvector.md R134, R135) -/

/-- A shift by one bit makes a W-bit integer one of W − 1 bits. -/
theorem shiftRight_one_lt {w a : Nat} (hw : 0 < w) (ha : a < 2 ^ w) : a >>> 1 < 2 ^ (w - 1) := by
  rw [Nat.shiftRight_eq_div_pow, pow_one]
  apply Nat.div_lt_of_lt_mul
  rwa [mul_pow_sub_one hw.ne']

/-- Settles O33: a shift by one moves bit i + 1 to bit i, and `bitlen_le_iff` makes the bit length the least k. -/
theorem wshr1AndWbitlenResult : Obligations.Wshr1AndWbitlenResult := by
  unfold Obligations.Wshr1AndWbitlenResult
  refine fun s rd rs1 => ⟨rfl, rfl, ⟨_, exec_wshr1 s rd rs1, fun i => ?_, fun ⟨hreg, _⟩ => ?_⟩,
    ⟨_, exec_wbitlen s rd rs1, lt_two_pow_bitlen _, fun j => (bitlen_le_iff _ j).2, fun ⟨hreg, _⟩ => ?_⟩⟩
  · rw [Nat.testBit_shiftRight, Nat.add_comm]
  · have hw : 0 < s.cfg.w := lt_of_lt_of_le (by decide) (w_ge s.cfg)
    exact shiftRight_one_lt hw (hreg rs1)
  · exact (bitlen_le_iff _ _).2 (hreg rs1)

end Sys2Proof.Machine
end

section
/-! PROOFS. The parameters family (41_parameters.md R161 to R171): the completions of DERIVE and GENCHK, the fields of
a derived set that DERIVE computes as 64-bit words, and the generator's powers against 1. -/

namespace Sys2Proof.Machine

/-! ## The next state of each command -/

section Exec

variable {s : State}

theorem exec_derive_of_accepts (ha : deriveAccepts s.modIn s.genIn = true) :
    exec .derive s = .next (s.loadParams (deriveParams s.cfg.w s.modIn s.genIn)).succeed := by
  simp [exec, execDerive, ha]

theorem exec_derive_of_refuses (ha : ¬ deriveAccepts s.modIn s.genIn = true) :
    exec .derive s = .next (s.fail .invalidModulus) := by
  simp [exec, execDerive, ha]

variable {rs1 : Reg} (hpv : s.status.pv = true)
include hpv

theorem exec_genchk_of_one (h : s.montPow s.params.generator (s.reg rs1) = s.params.r) :
    exec (.genchk rs1) s = .next (s.fail .invalidModulus) := by
  simp [exec, execGenchk, State.withParams_ok hpv, h]

theorem exec_genchk_of_not_one (h : s.montPow s.params.generator (s.reg rs1) ≠ s.params.r) :
    exec (.genchk rs1) s = .next s.succeed := by
  simp [exec, execGenchk, State.withParams_ok hpv, h]

end Exec

/-! ## What holds of a derived parameter file (41_parameters.md R161, R162) -/

/-- A count of bits is at most W, so a 64-bit register holds it whole. -/
theorem toNat_ofNat_of_le_w {c : Config} {k : Nat} (hk : k ≤ c.w) : (BitVec.ofNat 64 k).toNat = k := by
  have hw := w_le c
  rw [BitVec.toNat_ofNat, Nat.mod_eq_of_lt (by omega)]

/-- DERIVE leaves a derived parameter file: its modulus has the width of MOD_IN. -/
theorem State.Wf.loadParams_derived {s : State} (h : s.Wf) (ha : deriveAccepts s.modIn s.genIn = true) :
    (s.loadParams (deriveParams s.cfg.w s.modIn s.genIn)).Derived s.genIn := by
  obtain ⟨-, hmod, -, -⟩ := h
  exact ⟨rfl, hmod, ha, rfl⟩

namespace State.Derived

variable {s : State} {g : Nat} (h : s.Derived g)
include h

theorem inv_spec : (s.params.modulus % 2 ^ 64 * s.params.inv.toNat + 1) % 2 ^ 64 = 0 := by
  rw [Nat.add_mod, Nat.mod_mul_mod, ← Nat.add_mod]
  exact h.goodInv

theorem modulusMinusOne_pos : 0 < s.params.modulus - 1 := by
  obtain ⟨-, h3, -⟩ := h.checks
  omega

theorem two_pow_twoAdicity_mul_oddFactor :
    2 ^ s.params.twoAdicity.toNat * s.params.oddFactor = s.params.modulus - 1 := by
  rw [h.twoAdicity_eq, h.oddFactor_eq, two_pow_v2_mul h.modulusMinusOne_pos]

theorem oddFactor_odd : s.params.oddFactor % 2 = 1 := by
  rw [h.oddFactor_eq, div_v2_odd h.modulusMinusOne_pos]

theorem modulusBits_pos : 0 < s.params.modulusBits.toNat := by
  rw [h.modulusBits_eq]
  exact bitlen_pos h.pos

/-- MODULUS_BITS is the bit length: the modulus has its top bit there. -/
theorem modulus_bounds : 2 ^ (s.params.modulusBits.toNat - 1) ≤ s.params.modulus ∧
    s.params.modulus < 2 ^ s.params.modulusBits.toNat := by
  have hpos := h.modulusBits_pos
  rw [h.modulusBits_eq] at hpos ⊢
  exact ⟨two_pow_le_of_lt_bitlen (by omega), lt_two_pow_bitlen _⟩

theorem modulusBits_le : s.params.modulusBits.toNat ≤ s.cfg.w := by
  rw [h.modulusBits_eq]
  exact (bitlen_le_iff _ _).2 h.lt

theorem capacity_add_one : s.params.capacity.toNat + 1 = s.params.modulusBits.toNat := by
  have hpos := h.modulusBits_pos
  have hle := h.modulusBits_le
  have e : s.params.capacity = BitVec.ofNat 64 (s.params.modulusBits.toNat - 1) := by
    rw [h.modulusBits_eq, h.eq, deriveParams_capacity, deriveParams_modulus]
  rw [e, toNat_ofNat_of_le_w (c := s.cfg) (by omega)]
  omega

theorem shaveBits_add_modulusBits : s.params.shaveBits.toNat + s.params.modulusBits.toNat = s.cfg.w := by
  have hle := h.modulusBits_le
  have e : s.params.shaveBits = BitVec.ofNat 64 (s.cfg.w - s.params.modulusBits.toNat) := by
    rw [h.modulusBits_eq, h.eq, deriveParams_shaveBits, deriveParams_modulus]
  rw [e, toNat_ofNat_of_le_w (c := s.cfg) (by omega)]
  omega

/-- A reduced value's Montgomery form is R exactly where the value is 1. -/
theorem montForm_eq_r_iff {c : Nat} (hc : c < s.params.modulus) :
    montForm s.cfg.w s.params.modulus c = s.params.r ↔ c = 1 := by
  obtain ⟨-, h3, -⟩ := h.checks
  rw [h.unmont_eq_one_iff (h.montForm_lt c), unmont_montForm h.goodInv, ← Nat.cast_one,
    ZMod.natCast_eq_natCast_iff', Nat.mod_eq_of_lt hc, Nat.mod_eq_of_lt (by omega)]

/-- GENCHK's comparison is of the canonical power with 1 (41_parameters.md R170). -/
theorem montPow_generator_eq_r_iff {e : Nat} (he : e < 2 ^ s.cfg.w) :
    s.montPow s.params.generator e = s.params.r ↔ g ^ e % s.params.modulus = 1 := by
  rw [h.generator_eq, h.montPow_montForm g he]
  exact h.montForm_eq_r_iff (Nat.mod_lt _ h.pos)

end State.Derived

/-! ## DERIVE and GENCHK -/

/-- Settles O54: `deriveAccepts_iff` gives the accepted pairs; DERIVE then leaves a derived parameter file, whose
fields are the stated ones. -/
theorem deriveResult : Obligations.DeriveResult := by
  unfold Obligations.DeriveResult
  intro s hwf
  rw [← deriveAccepts_iff]
  refine ⟨fun ha => ?_, fun ha => ⟨exec_derive_of_refuses ha, by simp, by simp⟩⟩
  have hd := hwf.loadParams_derived ha
  obtain ⟨hlow, hhigh⟩ := hd.modulus_bounds
  have hfactor := hd.two_pow_twoAdicity_mul_oddFactor.symm
  have hroot := hd.twoAdicRoot_eq
  exact ⟨_, exec_derive_of_accepts ha, rfl, rfl, rfl, rfl, ⟨_, hfactor, hd.oddFactor_odd, rfl⟩, rfl, rfl, hroot,
    hd.inv_spec, hlow, hhigh, hd.capacity_add_one, hd.shaveBits_add_modulusBits⟩

/-- Settles O55: the canonical generator of the derived parameter file is the g. -/
theorem genchkResult : Obligations.GenchkResult := by
  unfold Obligations.GenchkResult
  intro s rs1 hinv hpv
  obtain ⟨⟨hreg, -⟩, hpar⟩ := hinv
  obtain ⟨g, hd⟩ := hpar.derived hpv
  obtain ⟨-, -, hg, -⟩ := hd.checks
  have hone := hd.montPow_generator_eq_r_iff (hreg rs1)
  exact ⟨g, hg, hd.generator_eq, fun h => exec_genchk_of_not_one hpv (mt hone.1 h),
    fun h => exec_genchk_of_one hpv (hone.2 h)⟩

end Sys2Proof.Machine
end

section
/-! PROOFS. The modular adder and subtractor (42_modular_add.md R191 to R194): the next state of each command on
reduced operands, and what the values in it are over the integers modulo m. -/

namespace Sys2Proof.Machine

/-! ## The values over the integers (42_modular_add.md R192, R193) -/

/-- The subtractor gives the integer difference modulo m. -/
theorem subMod_int {m a b : Nat} (ha : a < m) (hb : b < m) : (subMod m a b : Int) = ((a : Int) - b) % m := by
  rw [subMod_eq ha hb, Int.natCast_emod, Nat.cast_add, Nat.cast_sub hb.le, add_sub_left_comm, add_comm,
    Int.add_emod_right]

/-- Negation gives the integer −x modulo m. -/
theorem negMod_int {m x : Nat} (hx : x < m) : (negMod m x : Int) = (-(x : Int)) % m := by
  rw [negMod_eq hx, Int.natCast_emod, Nat.cast_sub hx.le, sub_eq_neg_add, Int.add_emod_right]

/-! ## The next state of each command -/

section Exec

variable {s : State} {rs1 rs2 : Reg} (rd : Reg) (hpv : s.status.pv = true)
  (h1 : s.reg rs1 < s.params.modulus)
include hpv h1

theorem exec_fneg : exec (.fneg rd rs1) s =
    .next (s.setE rd (negMod s.params.modulus (s.reg rs1))).succeed := by
  simp [exec, execFneg, State.withField_ok hpv, h1]

theorem exec_fdbl : exec (.fdbl rd rs1) s = .next (s.setE rd (2 * s.reg rs1 % s.params.modulus)).succeed := by
  simp [exec, execFdbl, State.withField_ok hpv, h1, dblMod_eq]

variable (h2 : s.reg rs2 < s.params.modulus)
include h2

theorem exec_fadd : exec (.fadd rd rs1 rs2) s =
    .next (s.setE rd ((s.reg rs1 + s.reg rs2) % s.params.modulus)).succeed := by
  simp [exec, execFadd, State.withField_ok hpv, h1, h2, addMod_eq]

theorem exec_fsub : exec (.fsub rd rs1 rs2) s =
    .next (s.setE rd (subMod s.params.modulus (s.reg rs1) (s.reg rs2))).succeed := by
  simp [exec, execFsub, State.withField_ok hpv, h1, h2]

end Exec

/-! ## Doubling is adding the operand to itself (42_modular_add.md R194) -/

/-- The prologue's check of one operand twice is its check once. -/
theorem State.checkReduced_pair_self (s : State) (r : Reg) : s.checkReduced [r, r] = s.checkReduced [r] := by
  by_cases h : s.params.modulus ≤ s.reg r <;> simp [State.checkReduced, h]

/-- On every state: the two prologues fail alike, and the two values are equal whether reduced or not. -/
theorem exec_fdbl_eq_fadd (s : State) (rd rs1 : Reg) : exec (.fdbl rd rs1) s = exec (.fadd rd rs1 rs1) s := by
  simp only [exec, execFdbl, execFadd, dblMod_eq_addMod, State.withField, State.checkReduced_pair_self]

/-- Settles O38: with PV = 1 and reduced operands the prologue passes, and the conditional subtraction or addition
of m is the reduction modulo m. -/
theorem modularAddResults : Obligations.ModularAddResults := by
  unfold Obligations.ModularAddResults
  exact ⟨fun s rd rs1 rs2 hpv h1 h2 => ⟨exec_fadd rd hpv h1 h2,
      ⟨_, subMod_int h1 h2, exec_fsub rd hpv h1 h2⟩, ⟨_, negMod_int h1, exec_fneg rd hpv h1⟩,
      exec_fdbl rd hpv h1⟩,
    exec_fdbl_eq_fadd⟩

end Sys2Proof.Machine
end

section
/-! PROOFS. The Montgomery multiplier (43_montgomery.md R213 to R216): the next state of each command on reduced
operands, and the values of its product. -/

namespace Sys2Proof.Machine

/-! ## The next state of each command -/

section Exec

variable {s : State} {rs1 rs2 : Reg} (rd : Reg) (hpv : s.status.pv = true)
  (h1 : s.reg rs1 < s.params.modulus)
include hpv h1

theorem exec_fsqr : exec (.fsqr rd rs1) s = .next (s.setE rd (s.mont (s.reg rs1) (s.reg rs1))).succeed := by
  simp [exec, execFsqr, State.withField_ok hpv, h1]

theorem exec_tomont : exec (.tomont rd rs1) s = .next (s.setE rd (s.mont (s.reg rs1) s.params.r2)).succeed := by
  simp [exec, execTomont, State.withField_ok hpv, h1]

theorem exec_frommont : exec (.frommont rd rs1) s = .next (s.setE rd (s.mont (s.reg rs1) 1)).succeed := by
  simp [exec, execFrommont, State.withField_ok hpv, h1]

theorem exec_fmul (h2 : s.reg rs2 < s.params.modulus) :
    exec (.fmul rd rs1 rs2) s = .next (s.setE rd (s.mont (s.reg rs1) (s.reg rs2))).succeed := by
  simp [exec, execFmul, State.withField_ok hpv, h1, h2]

end Exec

/-! ## Squaring is multiplying the operand by itself (43_montgomery.md R214) -/

/-- On every state: the two prologues fail alike, and the product is the same one. -/
theorem exec_fsqr_eq_fmul (s : State) (rd rs1 : Reg) : exec (.fsqr rd rs1) s = exec (.fmul rd rs1 rs1) s := by
  simp only [exec, execFsqr, execFmul, State.withField, State.checkReduced_pair_self]

/-! ## The product with 1 (43_montgomery.md R216) -/

/-- A modulus that DERIVE accepts is above 1 (41_parameters.md R162), so the operand 1 is reduced. -/
theorem State.Derived.one_lt {s : State} {g : Nat} (h : s.Derived g) : 1 < s.params.modulus := by
  obtain ⟨-, h3, -⟩ := h.checks
  omega

/-- The product of any reduced v with 1 is congruent to v after multiplication by R. -/
theorem State.Derived.mont_one_mul_pow {s : State} {g v : Nat} (h : s.Derived g) (hv : v < s.params.modulus) :
    s.mont v 1 * 2 ^ s.cfg.w % s.params.modulus = v := by
  rw [h.mont_mul_pow hv h.one_lt, mul_one, Nat.mod_eq_of_lt hv]

/-! ## The four commands -/

/-- Settles O41: with PV = 1 the parameter file is a derived set, and there the product of two reduced operands is
reduced and congruent to a·b after multiplication by R. -/
theorem fmulAndFsqrResult : Obligations.FmulAndFsqrResult := by
  unfold Obligations.FmulAndFsqrResult
  refine ⟨fun s rd rs1 rs2 hinv hpv h1 h2 => ?_, exec_fsqr_eq_fmul⟩
  obtain ⟨-, hpar⟩ := hinv
  obtain ⟨g, hd⟩ := hpar.derived hpv
  exact ⟨⟨_, hd.mont_lt h1 h2, hd.mont_mul_pow h1 h2, exec_fmul rd hpv h1 h2⟩,
    ⟨_, hd.mont_lt h1 h1, hd.mont_mul_pow h1 h1, exec_fsqr rd hpv h1⟩⟩

/-- Settles O42: the product with P.R2 is the Montgomery form of the operand, and the product with 1 takes R off
it. -/
theorem tomontAndFrommontResult : Obligations.TomontAndFrommontResult := by
  unfold Obligations.TomontAndFrommontResult
  intro s rd rs1 hinv hpv h1
  obtain ⟨-, hpar⟩ := hinv
  obtain ⟨g, hd⟩ := hpar.derived hpv
  have htomont : s.mont (s.reg rs1) s.params.r2 = s.reg rs1 * 2 ^ s.cfg.w % s.params.modulus := hd.mont_r2 h1
  rw [← htomont]
  exact ⟨exec_tomont rd hpv h1, _, hd.mont_lt h1 hd.one_lt, hd.mont_one_mul_pow h1, exec_frommont rd hpv h1⟩

end Sys2Proof.Machine
end

section
/-! PROOFS. Exponentiation, inversion, the Legendre test and the square root (44_exp_inv_sqrt.md R243 to R252): the
next state of each command on a reduced operand, and the canonical values of their powers. -/

namespace Sys2Proof.Machine

/-! ## The next state of each command -/

section Exec

variable {s : State} {rs1 : Reg} (rd : Reg) (hpv : s.status.pv = true)
  (h1 : s.reg rs1 < s.params.modulus)
include hpv h1

theorem exec_fpow (rs2 : Reg) : exec (.fpow rd rs1 rs2) s =
    .next (s.setE rd (s.montPow (s.reg rs1) (s.reg rs2))).succeed := by
  simp [exec, execFpow, State.withField_ok hpv, h1]

theorem exec_finv_of_zero (h0 : s.reg rs1 = 0) : exec (.finv rd rs1) s = .next (s.fail .undefinedInverse) := by
  rw [h0] at h1
  simp [exec, execFinv, State.withField_ok hpv, h1, h0]

theorem exec_finv_of_ne_zero (h0 : s.reg rs1 ≠ 0) : exec (.finv rd rs1) s =
    .next (s.setE rd (s.montPow (s.reg rs1) (s.params.modulus - 2))).succeed := by
  simp [exec, execFinv, State.withField_ok hpv, h1, h0]

theorem exec_fleg : exec (.fleg rd rs1) s =
    .next (s.setE rd (s.montPow (s.reg rs1) s.params.modulusMinusOneHalf)).succeed := by
  simp [exec, execFleg, State.withField_ok hpv, h1]

theorem exec_fsqrt_of_zero (h0 : s.reg rs1 = 0) : exec (.fsqrt rd rs1) s = .next (s.setE rd 0).succeed := by
  rw [h0] at h1
  simp [exec, execFsqrt, State.withField_ok hpv, h1, h0]

variable (h0 : s.reg rs1 ≠ 0)
include h0

theorem exec_fsqrt_of_legendre_ne_one
    (hleg : s.montPow (s.reg rs1) s.params.modulusMinusOneHalf ≠ s.params.r) :
    exec (.fsqrt rd rs1) s = .next (s.fail .noSquareRoot) := by
  simp [exec, execFsqrt, State.withField_ok hpv, h1, h0, hleg]

variable (hleg : s.montPow (s.reg rs1) s.params.modulusMinusOneHalf = s.params.r)
include hleg

theorem exec_fsqrt_of_tonelli_none (hroot : s.tonelli (s.reg rs1) = none) :
    exec (.fsqrt rd rs1) s = .next (s.fail .noSquareRoot) := by
  simp [exec, execFsqrt, State.withField_ok hpv, h1, h0, hleg, hroot]

theorem exec_fsqrt_of_tonelli_some {y : Nat} (hroot : s.tonelli (s.reg rs1) = some y) :
    exec (.fsqrt rd rs1) s = .next (s.setE rd y).succeed := by
  simp [exec, execFsqrt, State.withField_ok hpv, h1, h0, hleg, hroot]

end Exec

/-! ## Powers and roots over a derived parameter file (44_exp_inv_sqrt.md R241, R252) -/

namespace State.Derived

variable {s : State} {g : Nat} (h : s.Derived g)
include h

theorem modulusMinusOneHalf_lt : s.params.modulusMinusOneHalf < 2 ^ s.cfg.w := by
  have hlt := h.lt
  rw [h.modulusMinusOneHalf_eq]
  omega

/-- MontPow on a reduced value, through the canonical value it is the Montgomery form of. -/
theorem exists_montPow_eq {x e : Nat} (hx : x < s.params.modulus) (he : e < 2 ^ s.cfg.w) :
    ∃ c, c < s.params.modulus ∧ x = montForm s.cfg.w s.params.modulus c ∧
      s.montPow x e = montForm s.cfg.w s.params.modulus (c ^ e % s.params.modulus) := by
  obtain ⟨c, hc, hxc⟩ := exists_montForm h.goodInv s.cfg.w hx
  have hpow := h.montPow_montForm c he
  rw [← hxc] at hpow
  exact ⟨c, hc, hxc, hpow⟩

/-- The Legendre test's comparison with R is of the canonical power with 1. -/
theorem montPow_montForm_eq_r_iff (c : Nat) {e : Nat} (he : e < 2 ^ s.cfg.w) :
    s.montPow (montForm s.cfg.w s.params.modulus c) e = s.params.r ↔ c ^ e % s.params.modulus = 1 := by
  rw [h.montPow_montForm c he]
  exact h.montForm_eq_r_iff (Nat.mod_lt _ h.pos)

/-- Tonelli-Shanks forms products of reduced values only, so a root it finds is reduced, prime modulus or not. -/
theorem tonelli_lt {x y : Nat} (hx : x < s.params.modulus) (hroot : s.tonelli x = some y) :
    y < s.params.modulus := by
  have hw := h.montPow_lt hx s.params.oddFactorMinusOneHalf
  have hy := h.mont_lt hx hw
  exact sqrtLoop_mem (· < s.params.modulus) (fun _ _ ha hb => h.mont_lt ha hb) _ _ _ _ _ _ _
    h.twoAdicRoot_lt hy (h.mont_lt hy hw) hroot

/-- FSQRT of a reduced operand ends with NO_SQUARE_ROOT or with a reduced value. -/
theorem exec_fsqrt_cases {rs1 : Reg} (rd : Reg) (h1 : s.reg rs1 < s.params.modulus) :
    exec (.fsqrt rd rs1) s = .next (s.fail .noSquareRoot) ∨
      ∃ y, y < s.params.modulus ∧ exec (.fsqrt rd rs1) s = .next (s.setE rd y).succeed := by
  by_cases h0 : s.reg rs1 = 0
  · exact .inr ⟨0, h.pos, exec_fsqrt_of_zero rd h.pv h1 h0⟩
  by_cases hleg : s.montPow (s.reg rs1) s.params.modulusMinusOneHalf = s.params.r
  · cases hroot : s.tonelli (s.reg rs1) with
    | none => exact .inl (exec_fsqrt_of_tonelli_none rd h.pv h1 h0 hleg hroot)
    | some y => exact .inr ⟨y, h.tonelli_lt h1 hroot, exec_fsqrt_of_tonelli_some rd h.pv h1 h0 hleg hroot⟩
  · exact .inl (exec_fsqrt_of_legendre_ne_one rd h.pv h1 h0 hleg)

end State.Derived

/-! ## The four commands -/

/-- Settles O44: the exponent is a W-bit register, so the scan of W bits reads all of it. -/
theorem fpowResult : Obligations.FpowResult := by
  unfold Obligations.FpowResult
  intro s rd rs1 rs2 hinv hpv h1
  obtain ⟨⟨hreg, -⟩, hpar⟩ := hinv
  obtain ⟨g, hd⟩ := hpar.derived hpv
  obtain ⟨c, hc, hx, hpow⟩ := hd.exists_montPow_eq h1 (hreg rs2)
  rw [exec_fpow rd hpv h1, hpow]
  exact ⟨c, hc, hx, rfl⟩

/-- Settles O45: zero is tested before the power, whose exponent m − 2 is below 2^W as m is. -/
theorem finvResult : Obligations.FinvResult := by
  unfold Obligations.FinvResult
  intro s rd rs1 hinv hpv h1
  obtain ⟨-, hpar⟩ := hinv
  obtain ⟨g, hd⟩ := hpar.derived hpv
  refine ⟨exec_finv_of_zero rd hpv h1, fun h0 => ?_⟩
  obtain ⟨c, hc, hx, hpow⟩ := hd.exists_montPow_eq h1 ((Nat.sub_le _ 2).trans_lt hd.lt)
  rw [exec_finv_of_ne_zero rd hpv h1 h0, hpow]
  exact ⟨c, hc, hx, rfl⟩

/-- Settles O47: the parameter FLEG takes as its exponent is (m − 1)/2 in a derived file. -/
theorem flegResult : Obligations.FlegResult := by
  unfold Obligations.FlegResult
  intro s rd rs1 hinv hpv h1
  obtain ⟨-, hpar⟩ := hinv
  obtain ⟨g, hd⟩ := hpar.derived hpv
  obtain ⟨c, hc, hx, hpow⟩ := hd.exists_montPow_eq h1 hd.modulusMinusOneHalf_lt
  rw [exec_fleg rd hpv h1, hpow, hd.modulusMinusOneHalf_eq]
  exact ⟨c, hc, hx, rfl⟩

/-- Settles O49: the Legendre value is `one` exactly where the canonical power is 1, and every exit of FSQRT is an
error or a reduced value. -/
theorem fsqrtZeroAndNonResidue : Obligations.FsqrtZeroAndNonResidue := by
  unfold Obligations.FsqrtZeroAndNonResidue
  intro s rd rs1 hinv hpv h1
  obtain ⟨-, hpar⟩ := hinv
  obtain ⟨g, hd⟩ := hpar.derived hpv
  refine ⟨exec_fsqrt_of_zero rd hpv h1, fun c h0 hx hpow => ?_, hd.exec_fsqrt_cases rd h1⟩
  apply exec_fsqrt_of_legendre_ne_one rd hpv h1 h0
  rw [hx, Ne, hd.montPow_montForm_eq_r_iff c hd.modulusMinusOneHalf_lt, hd.modulusMinusOneHalf_eq]
  exact hpow

end Sys2Proof.Machine
end

section
/-! PROOFS. Sampling and moves (45_sampling_and_moves.md R271 to R280): one attempt of FRAND on the answers RNG gives,
a run of rejected attempts, and the next states of MOV, LDC and NOP. -/

namespace Sys2Proof

/-- LDC's word with an index of 14 or more passes every other check of the decoder and fails that one (30_encoding.md
R107). -/
theorem decode_ldc_of_index_ge {k : ConstIndex} (rd : Reg) (hk : 14 ≤ k.val) :
    decode (assemble 0x03 rd 0 k) = .error .illegalConstIndex := by
  obtain ⟨hop, hrd, hrs1, hrs2, hres⟩ := assemble_fields (op := 0x03) (by decide) rd 0 k
  have hrow : findOp 0x03 = some ⟨0x03, .DK, fun rd _ k => .ldc rd k⟩ := rfl
  simp [decode, hop, hrd, hrs1, hrs2, hres, hrow, Format.hasRd, Format.hasRs2, hk]

namespace Machine

/-- The legal indices of LDC are those with a parameter or zero (45_sampling_and_moves.md R278). -/
theorem Params.exists_const (p : Params) {k : ConstIndex} (hk : k.val < 14) : ∃ v, p.const k = some v := by
  unfold Params.const
  split_ifs with h8 h13 h14
  · exact ⟨_, rfl⟩
  · exact ⟨_, rfl⟩
  · exact ⟨_, rfl⟩
  · omega

/-! ## The next state of each command -/

section Exec

variable (s : State) (rd : Reg)

theorem exec_nop : exec .nop s = .next s.succeed := rfl

theorem exec_mov (rs1 : Reg) : exec (.mov rd rs1) s = .next (s.setE rd (s.reg rs1)).succeed := rfl

variable {s}

theorem exec_ldc_of_const (hpv : s.status.pv = true) {k : ConstIndex} {v : Nat} (hk : s.params.const k = some v) :
    exec (.ldc rd k) s = .next (s.setE rd v).succeed := by
  simp [exec, execLdc, hk, State.withParams_ok hpv]

theorem exec_ldc_of_no_params (hpv : s.status.pv = false) {k : ConstIndex} (hk : k.val < 14) :
    exec (.ldc rd k) s = .next (s.fail .paramsNotValid) := by
  obtain ⟨v, hv⟩ := s.params.exists_const hk
  simp [exec, execLdc, hv, State.withParams_error hpv]

theorem exec_frand_of_accepted (hpv : s.status.pv = true) (h : s.candidate < s.params.modulus) :
    exec (.frand rd) s = .next (s.afterDraws.setE rd (s.mont s.candidate s.params.r2)).succeed := by
  simp [exec, execFrand, hpv, h]

theorem exec_frand_of_rejected (hpv : s.status.pv = true) (h : s.params.modulus ≤ s.candidate) :
    exec (.frand rd) s = .next s.afterDraws := by
  simp [exec, execFrand, hpv, h.not_gt]

end Exec

/-! ## MOV, LDC and NOP -/

/-- Settles O53: each index of LDC has its constant by R278's table, and the decoder refuses 14 and 15. -/
theorem movLdcNopResult : Obligations.MovLdcNopResult := by
  unfold Obligations.MovLdcNopResult
  intro s rd rs1
  refine ⟨rfl, rfl, fun k => ⟨rfl, decode_ldc_of_index_ge rd, fun hk hpv => exec_ldc_of_no_params rd hpv hk⟩,
    exec_mov s rd rs1, exec_nop s, fun hpv => ?_⟩
  have ldc {k : ConstIndex} {v : Nat} (hk : s.params.const k = some v) := exec_ldc_of_const rd hpv hk
  exact ⟨ldc rfl, ldc rfl, ldc rfl, ldc rfl, ldc rfl, ldc rfl, ldc rfl, ldc rfl, ldc rfl, ldc rfl, ldc rfl, ldc rfl,
    ldc rfl, ldc rfl⟩

/-! ## One attempt of FRAND (45_sampling_and_moves.md R272, R273) -/

/-- Where N answers are settled, one attempt takes them and no other. -/
theorem drawMany_of_settled {s : State} {l rest : List Word} (hl : l.length = s.cfg.n)
    (hr : s.rng.answers = l ++ rest) : s.rng.drawMany s.cfg.n = (l, ⟨rest, s.rng.drawn + s.cfg.n⟩) := by
  have hrng : s.rng = ⟨l ++ rest, s.rng.drawn⟩ := by rw [← hr]
  rw [hrng, ← hl, State.drawMany_settled]

namespace State.Derived

variable {s : State} {g : Nat} (h : s.Derived g) (rd : Reg) {l : List Word} {r : Rng}
  (hd : s.rng.drawMany s.cfg.n = (l, r))
include h hd

/-- The mask's width, MODULUS_BITS, is the modulus's bit length in a derived file. -/
theorem candidate_eq : s.candidate = valOfWords l % 2 ^ bitlen s.params.modulus := by
  rw [State.candidate, hd, h.modulusBits_eq]

/-- An accepted value is reduced, so its product with R2 is its Montgomery form. -/
theorem exec_frand_of_lt (hv : valOfWords l % 2 ^ bitlen s.params.modulus < s.params.modulus) :
    exec (.frand rd) s = .next ((s.setRng r).setE rd
      (montForm s.cfg.w s.params.modulus (valOfWords l % 2 ^ bitlen s.params.modulus))).succeed := by
  rw [← h.candidate_eq hd] at hv ⊢
  rw [exec_frand_of_accepted rd h.pv hv, h.mont_r2 hv, State.afterDraws_eq, hd]

theorem exec_frand_of_ge (hv : s.params.modulus ≤ valOfWords l % 2 ^ bitlen s.params.modulus) :
    exec (.frand rd) s = .next (s.setRng r) := by
  rw [← h.candidate_eq hd] at hv
  rw [exec_frand_of_rejected rd h.pv hv, State.afterDraws_eq, hd]

end State.Derived

/-- Settles O51: the answers are what N draws give, and settled ones come out in order. -/
theorem frandAttempt : Obligations.FrandAttempt := by
  unfold Obligations.FrandAttempt
  intro s rd hinv hpv
  obtain ⟨-, hpar⟩ := hinv
  obtain ⟨g, h⟩ := hpar.derived hpv
  refine ⟨⟨_, _, State.drawMany_length s.cfg.n s.rng, h.exec_frand_of_lt rd rfl, h.exec_frand_of_ge rd rfl⟩,
    fun l rest hl hr => ?_⟩
  have hdraw := drawMany_of_settled hl hr
  exact ⟨h.exec_frand_of_lt rd hdraw, h.exec_frand_of_ge rd hdraw⟩

/-! ## A run of rejected attempts (45_sampling_and_moves.md R275) -/

theorem step_of_no_event {s : State} (ha : s.agenda = []) : step s = engineStep s := by
  unfold step
  rw [ha]

theorem engineStep_of_decoded {s : State} {i : Instr} (hb : s.status.busy = true) (hd : decode s.pending = .ok i) :
    engineStep s = exec i s := by
  simp [engineStep, State.fetch, hb, hd]

theorem run_succ_of_step {M : Host.Core} {s t : M.State} (h : M.step s = .next t) (k : Nat) :
    M.run (k + 1) s = M.run k t := by
  simp only [Host.Core.run, h]

/-- No check reads RNG, so other answers leave the parameter file derived. -/
theorem State.Derived.setRng {s : State} {g : Nat} (h : s.Derived g) (r : Rng) : (s.setRng r).Derived g := by
  obtain ⟨hpv, hlt, haccepts, heq⟩ := h
  exact ⟨hpv, hlt, haccepts, heq⟩

/-- A block with FRAND in flight, no event left, and a derived parameter file. -/
structure State.Sampling (s : State) (g : Nat) (rd : Reg) : Prop where
  derived : s.Derived g
  busy : s.status.busy = true
  pending : decode s.pending = .ok (.frand rd)
  agenda : s.agenda = []

namespace State.Sampling

variable {s : State} {g : Nat} {rd : Reg}

/-- Other answers of RNG leave FRAND in flight. -/
theorem setRng (h : s.Sampling g rd) (r : Rng) : (s.setRng r).Sampling g rd := by
  obtain ⟨hd, hb, hp, ha⟩ := h
  exact ⟨hd.setRng r, hb, hp, ha⟩

/-- One step on a settled attempt that is rejected consumes it and changes nothing else. -/
theorem step_of_rejected (h : s.Sampling g rd) {l rest : List Word} (hl : l.length = s.cfg.n)
    (hr : s.rng.answers = l ++ rest) (hv : s.params.modulus ≤ valOfWords l % 2 ^ bitlen s.params.modulus) :
    step s = .next (s.setRng ⟨rest, s.rng.drawn + s.cfg.n⟩) := by
  rw [step_of_no_event h.agenda, engineStep_of_decoded h.busy h.pending]
  exact h.derived.exec_frand_of_ge rd (drawMany_of_settled hl hr) hv

/-- As many steps as rejected attempts consume them all, by induction on the attempts: each leaves a state that samples
on the rest of them. -/
theorem run_of_rejected (h : s.Sampling g rd) (attempts : List (List Word))
    (hr : s.rng.answers = attempts.flatten)
    (hv : ∀ l ∈ attempts, l.length = s.cfg.n ∧ s.params.modulus ≤ valOfWords l % 2 ^ bitlen s.params.modulus) :
    Sys2Proof.core.run attempts.length s = .next (s.setRng ⟨[], s.rng.drawn + attempts.length * s.cfg.n⟩) := by
  induction attempts generalizing s with
  | nil =>
    have hrng : s.rng = ⟨[], s.rng.drawn⟩ := by rw [← List.flatten_nil, ← hr]
    rw [List.length_nil, Nat.zero_mul, Nat.add_zero, ← hrng]
    rfl
  | cons l attempts ih =>
    rw [List.forall_mem_cons] at hv
    obtain ⟨⟨hl, hge⟩, hrest⟩ := hv
    have hstep : Sys2Proof.core.step s = _ := h.step_of_rejected hl hr hge
    have hrun := ih (h.setRng ⟨attempts.flatten, s.rng.drawn + s.cfg.n⟩) rfl hrest
    have hcount : s.rng.drawn + (attempts.length + 1) * s.cfg.n =
        s.rng.drawn + s.cfg.n + attempts.length * s.cfg.n := by ring
    rw [List.length_cons, hcount]
    exact (run_succ_of_step hstep attempts.length).trans hrun

end State.Sampling

/-- Settles O52: the end state is the first one with every settled attempt consumed. -/
theorem frandCanHang : Obligations.FrandCanHang := by
  unfold Obligations.FrandCanHang
  intro k s rd attempts hinv hpv hb hp ha hk hr hv
  obtain ⟨-, hpar⟩ := hinv
  obtain ⟨g, hd⟩ := hpar.derived hpv
  have h : s.Sampling g rd := ⟨hd, hb, hp, ha⟩
  subst hk
  exact ⟨_, h.run_of_rejected attempts hr hv, rfl, rfl, rfl⟩

end Machine

end Sys2Proof
end

section
/-! PROOFS. Completions and errors (60_exceptions.md R300 to R314): what the ENGINE's step does with the command in
flight, the bookkeeping of a completion and what an error changes, read off `CommandEffect`; then which check of the
field prologue a command ends at, through the one shape of every command behind that prologue. -/

namespace Sys2Proof.Machine

/-! ## The command in flight (60_exceptions.md R300) -/

/-- A command word has the 32 bits of PENDING, so it goes there whole. -/
theorem State.withFetchWord_eq (s : State) (c : CmdWord) : s.withFetchWord 32 c.toNat =
    ((s.setPending c).setStatus { s.status with busy := true }).setAgenda (.engine :: s.agenda) := by
  rw [State.withFetchWord, Nat.mod_eq_of_lt c.isLt, BitVec.ofNat_toNat, BitVec.setWidth_eq]

/-- Settles O5: the event, or the lack of one, makes the step the ENGINE's, which decodes PENDING. -/
theorem stepRunsTheCommandInFlight : Obligations.StepRunsTheCommandInFlight := by
  unfold Obligations.StepRunsTheCommandInFlight
  refine ⟨fun s l i hb hd ha => ?_, fun s c i hd => ?_⟩
  · rcases ha with ha | ⟨ha, rfl⟩
    · rw [step_of_engine ha, engineStep_of_decoded (s := s.setAgenda l) hb hd]
    · have hself := setAgenda_self s
      rw [ha] at hself
      rw [step_of_no_event ha, engineStep_of_decoded hb hd, hself]
  · rw [State.withFetchWord_eq, step_of_engine rfl, engineStep_of_decoded rfl hd]
    rfl

/-! ## Completion (60_exceptions.md R302) -/

namespace CommandEffect

variable {i : Instr} {s t : State} (he : CommandEffect i s t)
include he

/-- A command completes, with ERR kept or set as its code says, or is a rejected attempt of FRAND. -/
theorem completes_or_rejected :
    (t.status.busy = false ∧ t.cmdCount = s.cmdCount + 1 ∧
      (t.status.ecode = .none → t.status.err = s.status.err) ∧ (t.status.ecode ≠ .none → t.status.err = true)) ∨
    ∃ rd, i = .frand rd ∧ t = s.setRng t.rng := by
  cases he with
  | error c hc => exact .inl (by simp [hc])
  | rejected rd hi => exact .inr ⟨rd, hi, rfl⟩
  | _ => exact .inl (by simp)

/-- Of the effects that end the command in flight, the one with a code is the shared taking of an error. -/
theorem eq_fail_of_code (hb : s.status.busy = true) (ht : t.status.busy = false) (hc : t.status.ecode ≠ .none) :
    t = s.fail t.status.ecode := by
  cases he with
  | error c => simp
  | rejected => simp [hb] at ht
  | _ => exact absurd rfl hc

end CommandEffect

/-- Settles O9: each effect of a command is one of the two cases. -/
theorem completionBookkeeping : Obligations.CompletionBookkeeping := by
  unfold Obligations.CompletionBookkeeping
  intro i s t _ h
  exact (effect_of_exec h).completes_or_rejected

/-- Settles O8: a rejected attempt, the one effect that is no completion, is FRAND's. -/
theorem commandsCompleteInOneStep : Obligations.CommandsCompleteInOneStep := by
  unfold Obligations.CommandsCompleteInOneStep
  intro i s hi
  obtain ⟨t, ht, he⟩ := exec_effect i s
  rcases he.completes_or_rejected with ⟨hbusy, hcount, -⟩ | ⟨rd, h, -⟩
  · exact ⟨t, ht, hbusy, hcount⟩
  · exact absurd h (hi rd)

/-! ## What an error changes (60_exceptions.md R307) -/

theorem State.fail_invalidModulus (s : State) : s.fail .invalidModulus =
    ((s.setParams Params.zero).setStatus
      { s.status with busy := false, pv := false, err := true, ecode := .invalidModulus }).setCmdCount
        (s.cmdCount + 1) := rfl

theorem State.fail_of_ne_invalidModulus (s : State) {c : ErrorCode} (hc : c ≠ .invalidModulus) : s.fail c =
    (s.setStatus { s.status with busy := false, err := true, ecode := c }).setCmdCount (s.cmdCount + 1) := by
  rw [State.fail, if_neg hc]

/-- The ENGINE takes every error in the one way, that of an illegal word included (60_exceptions.md R308). -/
theorem eq_fail_of_engineStep {s t : State} (hb : s.status.busy = true) (h : engineStep s = .next t)
    (ht : t.status.busy = false) (hc : t.status.ecode ≠ .none) : t = s.fail t.status.ecode := by
  cases hd : decode s.pending with
  | ok i =>
    rw [engineStep_of_decoded hb hd] at h
    exact (effect_of_exec h).eq_fail_of_code hb ht hc
  | error e =>
    rw [engineStep_of_illegal hb hd] at h
    obtain rfl := Host.Outcome.next.inj h
    simp

/-- Settles O11: a completion with a code is the shared taking of an error, which has these two forms. -/
theorem errorsArePrecise : Obligations.ErrorsArePrecise := by
  unfold Obligations.ErrorsArePrecise
  intro s t hb h ht
  refine ⟨fun hcode => ?_, fun hnone hcode => ?_⟩
  · have hfail := eq_fail_of_engineStep hb h ht (by simp [hcode])
    rwa [hcode, State.fail_invalidModulus] at hfail
  · have hfail := eq_fail_of_engineStep hb h ht hnone
    rwa [State.fail_of_ne_invalidModulus s hcode] at hfail

/-! ## The shape of a command behind its prologue (60_exceptions.md R309, R310, R314) -/

/-- A result of a command's own body: success, or a code that is not the prologue's. -/
def OwnResult (body : Except ErrorCode State) : Prop :=
  ∀ c, body = .error c → c ≠ .paramsNotValid ∧ c ≠ .unreducedOperand

theorem ownResult_ok (t : State) : OwnResult (.ok t) := nofun

theorem ownResult_error {c : ErrorCode} (hp : c ≠ .paramsNotValid) (hu : c ≠ .unreducedOperand) :
    OwnResult (.error c) := by
  rintro _ ⟨⟩
  exact ⟨hp, hu⟩

theorem ownResult_ite {p : Prop} [Decidable p] {a b : Except ErrorCode State} (ha : OwnResult a)
    (hb : OwnResult b) : OwnResult (if p then a else b) := by
  split
  · exact ha
  · exact hb

/-- How `exec i s` comes out of the checks: a body without them, a body behind them, LDC of an index without a
constant, or an attempt of FRAND, whose check of PV passed. -/
inductive BehindPrologue (i : Instr) (s : State) : Host.Outcome State Fault Refusal → Prop
  | unchecked (body : Except ErrorCode State) (hn : i.needsParams = false) (hl : i.fieldOperands = [])
      (hb : OwnResult body) : BehindPrologue i s (.next (s.finish body))
  | checked (body : Except ErrorCode State) (hn : i.needsParams = true) (hb : OwnResult body) :
      BehindPrologue i s (.next (s.finish (s.withField i.fieldOperands body)))
  | illegalIndex (hl : i.fieldOperands = []) (hw : i.wellFormed = false) :
      BehindPrologue i s (.next (s.fail .illegalCommand))
  | attempt (t : State) (hl : i.fieldOperands = []) (hpv : s.status.pv = true)
      (ht : t.status.ecode = .none ∨ t.status.busy = s.status.busy) : BehindPrologue i s (.next t)

theorem behindPrologue_frand (rd : Reg) (s : State) : BehindPrologue (.frand rd) s (exec (.frand rd) s) := by
  cases hpv : s.status.pv with
  | false =>
    have h : exec (.frand rd) s = .next (s.finish (s.withField [] (.ok s))) := by
      simp [exec, execFrand, hpv, State.withField_no_params]
    rw [h]
    exact .checked _ rfl (ownResult_ok s)
  | true =>
    by_cases hc : s.candidate < s.params.modulus
    · rw [exec_frand_of_accepted rd hpv hc]
      exact .attempt _ rfl hpv (.inl rfl)
    · rw [exec_frand_of_rejected rd hpv (Nat.le_of_not_lt hc)]
      exact .attempt _ rfl hpv (.inr rfl)

theorem behindPrologue_ldc (rd : Reg) (k : ConstIndex) (s : State) :
    BehindPrologue (.ldc rd k) s (exec (.ldc rd k) s) := by
  show BehindPrologue (.ldc rd k) s (execLdc rd k s)
  unfold execLdc
  cases hk : s.params.const k with
  | some v => exact .checked _ rfl (ownResult_ok _)
  | none =>
    refine .illegalIndex rfl (decide_eq_false fun hlt => ?_)
    obtain ⟨v, hv⟩ := s.params.exists_const hlt
    simp [hk] at hv

theorem exec_behindPrologue (i : Instr) (s : State) : BehindPrologue i s (exec i s) := by
  have hund : OwnResult (.error .undefinedInverse) := ownResult_error nofun nofun
  have hinv : OwnResult (.error .invalidModulus) := ownResult_error nofun nofun
  have hroot : OwnResult (.error .noSquareRoot) := ownResult_error nofun nofun
  cases i with
  | nop | mov | wcmp | wadd | wsub | wshr1 | wbitlen | wisz => exact .unchecked _ rfl rfl (ownResult_ok _)
  | derive => exact .unchecked _ rfl rfl (ownResult_ite (ownResult_ok _) hinv)
  | genchk rs1 => exact .checked _ rfl (ownResult_ite hinv (ownResult_ok _))
  | ldc rd k => exact behindPrologue_ldc rd k s
  | fadd | fsub | fneg | fdbl | fmul | fsqr | tomont | frommont | fpow | fleg =>
    exact .checked _ rfl (ownResult_ok _)
  | finv rd rs1 => exact .checked _ rfl (ownResult_ite hund (ownResult_ok _))
  | fsqrt rd rs1 =>
    refine .checked _ rfl (ownResult_ite (ownResult_ok _) (ownResult_ite hroot ?_))
    cases s.tonelli (s.reg rs1) with
    | none => exact hroot
    | some y => exact ownResult_ok _
  | frand rd => exact behindPrologue_frand rd s

/-! ## The check a command ends at (60_exceptions.md R309, R310) -/

theorem State.cases_of_withField_error {s : State} {l : List Reg} {body : Except ErrorCode State} {c : ErrorCode}
    (h : s.withField l body = .error c) :
    (c = .paramsNotValid ∧ s.status.pv = false) ∨
      (c = .unreducedOperand ∧ ∃ r ∈ l, s.params.modulus ≤ s.reg r) ∨ body = .error c := by
  cases hpv : s.status.pv with
  | false =>
    rw [State.withField_no_params hpv] at h
    exact .inl ⟨(Except.error.inj h).symm, rfl⟩
  | true =>
    by_cases hl : ∃ r ∈ l, s.params.modulus ≤ s.reg r
    · obtain ⟨r, hr, hm⟩ := hl
      rw [State.withField_unreduced hpv hr hm] at h
      exact .inr (.inl ⟨(Except.error.inj h).symm, r, hr, hm⟩)
    · push Not at hl
      rw [State.withField_ok hpv hl] at h
      exact .inr (.inr h)

theorem OwnResult.finish_code {body : Except ErrorCode State} (hb : OwnResult body) (s : State) :
    (s.finish body).status.ecode ≠ .paramsNotValid ∧ (s.finish body).status.ecode ≠ .unreducedOperand := by
  cases body with
  | ok t => simp
  | error c => simpa using hb c rfl

namespace BehindPrologue

variable {i : Instr} {s : State}

theorem eq_paramsNotValid {o : Host.Outcome State Fault Refusal} (h : BehindPrologue i s o)
    (hpv : s.status.pv = false) (hn : i.needsParams = true) (hw : i.wellFormed = true) :
    o = .next (s.fail .paramsNotValid) := by
  cases h with
  | unchecked _ hn' => simp [hn] at hn'
  | checked body => rw [State.withField_no_params hpv, State.finish_error]
  | illegalIndex _ hw' => simp [hw] at hw'
  | attempt _ _ hpv' => simp [hpv] at hpv'

/-- A command with field operands is behind the whole prologue. -/
theorem eq_checked {o : Host.Outcome State Fault Refusal} (h : BehindPrologue i s o) (hl : i.fieldOperands ≠ []) :
    ∃ body, o = .next (s.finish (s.withField i.fieldOperands body)) := by
  cases h with
  | checked body => exact ⟨body, rfl⟩
  | unchecked _ _ hl' => exact absurd hl' hl
  | illegalIndex hl' => exact absurd hl' hl
  | attempt _ hl' => exact absurd hl' hl

/-- A command that completes with a code of the prologue failed that check. -/
theorem code_cases {t : State} (h : BehindPrologue i s (.next t)) (hb : s.status.busy = true)
    (ht : t.status.busy = false) :
    (t.status.ecode = .paramsNotValid → i.needsParams = true ∧ s.status.pv = false) ∧
      (t.status.ecode = .unreducedOperand → ∃ r ∈ i.fieldOperands, s.params.modulus ≤ s.reg r) := by
  cases h with
  | unchecked body _ _ hown =>
    obtain ⟨hp, hu⟩ := hown.finish_code s
    exact ⟨fun e => absurd e hp, fun e => absurd e hu⟩
  | illegalIndex => simp
  | attempt _ _ _ hcode =>
    rcases hcode with hcode | hbusy
    · simp [hcode]
    · simp [hbusy, hb] at ht
  | checked body hn hown =>
    cases hres : s.withField i.fieldOperands body with
    | ok u => simp
    | error c =>
      rcases State.cases_of_withField_error hres with ⟨rfl, hpv⟩ | ⟨rfl, hr⟩ | hbody
      · simp [hn, hpv]
      · simpa using hr
      · simp [hown c hbody]

end BehindPrologue

/-- Settles O12: PV is the first check of the commands that need the parameter file, and its code has no other
source. -/
theorem paramsNotValid : Obligations.ParamsNotValid := by
  unfold Obligations.ParamsNotValid
  refine ⟨fun i => ?_, fun i s hw hn hpv => (exec_behindPrologue i s).eq_paramsNotValid hpv hn hw, fun s => by simp,
    fun i s t hok hb h ht hcode => ?_⟩
  · cases i <;> simp [Instr.needsParams]
  · have hshape := exec_behindPrologue i s
    rw [h] at hshape
    obtain ⟨hn, hpv⟩ := (hshape.code_cases hb ht).1 hcode
    simp [hn, hpv] at hok

/-- Settles O13: the operands stand in the check that follows PV's, and its code has no other source. -/
theorem unreducedOperand : Obligations.UnreducedOperand := by
  unfold Obligations.UnreducedOperand
  refine ⟨fun a b c => by simp [Instr.fieldOperands], fun i s r hpv hr hm => ?_, fun i s t hb hl h ht hcode => ?_,
    fun i s hl hpv => ?_⟩
  · obtain ⟨body, h⟩ := (exec_behindPrologue i s).eq_checked (List.ne_nil_of_mem hr)
    rw [h, State.withField_unreduced hpv hr hm, State.finish_error]
  · have hshape := exec_behindPrologue i s
    rw [h] at hshape
    obtain ⟨r, hr, hm⟩ := (hshape.code_cases hb ht).2 hcode
    exact absurd (hl r hr) hm.not_gt
  · obtain ⟨body, h⟩ := (exec_behindPrologue i s).eq_checked hl
    rw [h, State.withField_no_params hpv, State.finish_error]

end Sys2Proof.Machine
end

section
/-! PROOFS. The invariant of the block (10_state.md R37, 70_reset_and_hazards.md R340): every step keeps the parameter
file whole, read off `CommandEffect` and `StepEffect`, and reset starts with it. Then the step by the event it takes,
the reset input and two reads in a row; twelve words of the spec. -/

namespace Sys2Proof.Machine

/-! ## The parameter file is derived whole or zero (10_state.md R37) -/

/-- The condition speaks of N, the parameter file and PV only. -/
theorem State.ParamsOk.congr {s t : State} (h : s.ParamsOk) (hcfg : t.cfg = s.cfg) (hpar : t.params = s.params)
    (hpv : t.status.pv = s.status.pv) : t.ParamsOk := by
  unfold State.ParamsOk at h ⊢
  rwa [hcfg, hpar, hpv]

/-- DERIVE writes a derived set whole, the error INVALID_MODULUS clears the file, and every other effect leaves the
file and PV (41_parameters.md R166, R167). -/
theorem CommandEffect.paramsOk {i : Instr} {s t : State} (he : CommandEffect i s t) (h : s.Inv) : t.ParamsOk := by
  obtain ⟨⟨-, hmod, -, -⟩, hpar⟩ := h
  cases he with
  | derived _ ha => exact .inr ⟨rfl, s.modIn, s.genIn, hmod, ha, rfl⟩
  | error c =>
    by_cases hc : c = .invalidModulus
    · exact .inl (by simp [hc])
    · exact hpar.congr (by simp) (by simp [hc]) (by simp [hc])
  | nothing | register | carry | compare | isZero | sampled | rejected => exact hpar.congr rfl rfl rfl

theorem StepEffect.paramsOk {s t : State} (he : StepEffect s t) (h : s.Inv) : t.ParamsOk := by
  have hpar : s.ParamsOk := h.2
  cases he with
  | idle => exact hpar
  | command l i t _ _ hc => exact hc.paramsOk (s := s.setAgenda l) h
  | illegal => exact hpar.congr (by simp) (by simp) (by simp)
  | read l width o =>
    obtain ⟨hcfg, hparams, -, -, -, hpv, -⟩ := (s.setAgenda l).hostRead_eqs width o
    exact hpar.congr hcfg hparams hpv
  | write l width o v =>
    obtain ⟨hcfg, hparams, -, hpv⟩ := (hostWrite_effect (s.setAgenda l) width o v).fields_eq
    exact hpar.congr hcfg hparams hpv
  | reset => exact .inl ⟨rfl, rfl⟩

/-- Settles O15: each of the ways a step can go keeps the widths, and with them the parameter file: DERIVE derives
from MOD_IN, whose width bounds the modulus (10_state.md R36, R37). -/
theorem stepKeepsParameterFile : Obligations.StepKeepsParameterFile := by
  unfold Obligations.StepKeepsParameterFile
  intro s t h hst
  have hwf : s.Wf := h.1
  have he := effect_of_step hst
  exact ⟨he.wf hwf, he.paramsOk h⟩

/-- The reset values meet the invariant with any world around the block (70_reset_and_hazards.md R340, R343). -/
theorem State.afterReset_inv (c : Config) (l : List Event) (g : Rng) (k : Nat) (v : Word) :
    (State.afterReset c l g k v).Inv :=
  ⟨State.afterReset_wf c l g k v, .inl ⟨rfl, rfl⟩⟩

/-- Settles O16: zero is within every width, and the parameter file is the zero one with PV = 0. -/
theorem resetMeetsTheInvariant : Obligations.ResetMeetsTheInvariant := by
  unfold Obligations.ResetMeetsTheInvariant
  exact ⟨fun c => State.afterReset_inv c _ _ _ _, State.afterReset_inv _ _ _ _ _⟩

/-! ## The step, by the event it takes (60_exceptions.md R300, R303, 70_reset_and_hazards.md R341) -/

/-- Settles O7: every step has an effect, and every effect a next state (60_exceptions.md R303, R317). -/
theorem stepNeverStops : Obligations.StepNeverStops := by
  unfold Obligations.StepNeverStops
  intro s
  obtain ⟨t, ht, -⟩ := step_effect s
  exact ⟨t, ht⟩

theorem step_of_reset {s : State} {l : List Event} (ha : s.agenda = .reset :: l) :
    step s = .next (s.setAgenda l).takeReset := by
  unfold step
  rw [ha]

/-- An idle ENGINE has no step (60_exceptions.md R300). -/
theorem engineStep_of_idle {s : State} (hb : s.status.busy = false) : engineStep s = .next s := by
  simp [engineStep, hb]

/-- Settles O6: one equation of the step for each kind of event, and for none left. -/
theorem stepTakesTheNextEvent : Obligations.StepTakesTheNextEvent := by
  unfold Obligations.StepTakesTheNextEvent
  refine fun s l => ⟨fun w o => step_of_read, fun w o v => step_of_write, step_of_reset, fun hb ha => ?_,
    fun hb ha => ?_⟩
  · rw [step_of_engine ha, engineStep_of_idle (s := s.setAgenda l) hb]
  · rw [step_of_no_event ha, engineStep_of_idle hb]

/-- Settles O21: the step is `takeReset`, whatever BUSY is (70_reset_and_hazards.md R340, R341, R343). -/
theorem resetInput : Obligations.ResetInput := by
  unfold Obligations.ResetInput
  intro s l ha
  exact ⟨_, step_of_reset ha, fun r => State.afterReset_reg _ _ _ _ _ r, rfl, rfl, rfl, rfl, rfl, rfl, rfl, rfl, rfl⟩

/-! ## Two reads in a row (20_memory.md R79) -/

/-- Settles O29: a bad access reads zero each time, and a visible register is no part of what a read changes
(20_memory.md R79, R80, R84). -/
theorem readsHaveNoSideEffects : Obligations.ReadsHaveNoSideEffects := by
  unfold Obligations.ReadsHaveNoSideEffects
  refine ⟨hostRead_effect, fun s l w o ha hv => ?_⟩
  cases ht : accessTarget s.cfg.n w o with
  | none =>
    have hbad := accessTarget_eq_none_iff.1 ht
    exact ⟨_, _, step_read_of_bad ha hbad, step_read_of_bad rfl hbad, rfl⟩
  | some x =>
    have hvis : s.status.busy = false ∨ x.hiddenWhileBusy = false := hv.imp_right fun h => h x ht
    exact ⟨_, _, step_read_of_visible ha ht hvis, step_read_of_visible rfl ht hvis, rfl⟩

end Sys2Proof.Machine

namespace Sys2Proof

/-! ## The words the spec writes out (30_encoding.md R112, 95_test_vectors.md section 2) -/

/-- A word put together as its command's word decodes to it, since decoding inverts encoding. -/
theorem decode_eq_ok_of_encode_eq {c : CmdWord} {i : Instr} (hwf : i.wellFormed = true) (h : encode i = c) :
    decode c = .ok i := by
  subst h
  exact decodeOfEncodeIsTheCommand i hwf

/-- Settles O4: each of the twelve numbers is its command's word. -/
theorem specWordsDecode : Obligations.SpecWordsDecode := by
  unfold Obligations.SpecWordsDecode
  refine ⟨?_, ?_, ?_, ?_, ?_, ?_, ?_, ?_, ?_, ?_, ?_, ?_⟩ <;> exact decode_eq_ok_of_encode_eq rfl rfl

end Sys2Proof
end

section
/-! PROOFS. The word-level realisations (40_wordvector.md R138 to R140, 42_modular_add.md R195, R196): what a chain over
the words below k, the scan of them and the masked select give, then that they are the values of WADD, WSUB, WCMP, FADD
and FSUB; the integer laws of WADD and WSUB (R137), and what the WordVector commands depend on (R141). -/

namespace Sys2Proof.Machine

/-! ## The carry chain (40_wordvector.md R138) -/

theorem two_pow_words_succ (k : Nat) : 2 ^ (64 * (k + 1)) = 2 ^ 64 * 2 ^ (64 * k) := by
  rw [← pow_add]
  congr 1
  omega

/-- A word above a value of k words stays below the next power. -/
theorem add_word_lt {r d k : Nat} (hr : r < 2 ^ (64 * k)) (hd : d < 2 ^ 64) :
    r + d * 2 ^ (64 * k) < 2 ^ (64 * (k + 1)) := by
  have h := Nat.mul_le_mul_right (2 ^ (64 * k)) (Nat.succ_le_of_lt hd)
  rw [Nat.succ_mul] at h
  rw [two_pow_words_succ]
  omega

theorem addChain_lt (a b k : Nat) : (addChain a b k).1 < 2 ^ (64 * k) := by
  induction k with
  | zero => simp [addChain]
  | succ k ih => exact add_word_lt ih (Nat.mod_lt _ (by decide))

/-- The chain's words with its carry above them are the sum of the words below k. -/
theorem addChain_sum (a b k : Nat) :
    (addChain a b k).1 + 2 ^ (64 * k) * (addChain a b k).2 = a % 2 ^ (64 * k) + b % 2 ^ (64 * k) := by
  induction k with
  | zero => simp [addChain, Nat.mod_one]
  | succ k ih =>
    have ht := Nat.mod_add_div (wordOf a k + wordOf b k + (addChain a b k).2) (2 ^ 64)
    rw [mod_pow_succ_words, mod_pow_succ_words, two_pow_words_succ]
    simp only [addChain]
    linear_combination ih + 2 ^ (64 * k) * ht

/-- Over all N words the carry is the bit of weight 2^W of the sum. -/
theorem addChain_eq {n a b : Nat} (ha : a < 2 ^ (64 * n)) (hb : b < 2 ^ (64 * n)) :
    addChain a b n = ((a + b) % 2 ^ (64 * n), (a + b) >>> (64 * n)) := by
  have hsum := addChain_sum a b n
  rw [Nat.mod_eq_of_lt ha, Nat.mod_eq_of_lt hb] at hsum
  obtain ⟨hdiv, hmod⟩ := (Nat.div_mod_unique (by positivity)).2 ⟨hsum, addChain_lt a b n⟩
  rw [Nat.shiftRight_eq_div_pow, hdiv, hmod]

/-! ## The borrow chain (40_wordvector.md R139) -/

theorem subChain_lt (a b k : Nat) : (subChain a b k).1 < 2 ^ (64 * k) := by
  induction k with
  | zero => simp [subChain]
  | succ k ih => exact add_word_lt ih (by omega)

theorem subChain_borrow_le (a b k : Nat) : (subChain a b k).2 ≤ 1 := by
  cases k with
  | zero => simp [subChain]
  | succ k =>
    simp only [subChain]
    split <;> decide

/-- A difference of words with a borrow from below, taken up to a word by a borrow from above. -/
theorem emod_sub_borrow {x y c : Nat} (hx : x < 2 ^ 64) (hy : y < 2 ^ 64) (hc : c ≤ 1) :
    ((((x : Int) - y - c) % 2 ^ 64).toNat : Int) - ((if (x : Int) - y - c < 0 then 1 else 0 : Nat) : Int) * 2 ^ 64 =
      (x : Int) - y - c := by
  split <;> omega

/-- The chain's words less its borrow above them are the difference of the words below k. -/
theorem subChain_diff (a b k : Nat) :
    ((subChain a b k).1 : Int) - (subChain a b k).2 * 2 ^ (64 * k) =
      ((a % 2 ^ (64 * k) : Nat) : Int) - ((b % 2 ^ (64 * k) : Nat) : Int) := by
  induction k with
  | zero => simp [subChain, Nat.mod_one]
  | succ k ih =>
    have ht := emod_sub_borrow (wordOf_lt a k) (wordOf_lt b k) (subChain_borrow_le a b k)
    have hpow : (2 : Int) ^ (64 * (k + 1)) = 2 ^ 64 * 2 ^ (64 * k) := by exact_mod_cast two_pow_words_succ k
    rw [mod_pow_succ_words, mod_pow_succ_words, hpow]
    simp only [subChain, Nat.cast_add, Nat.cast_mul, Nat.cast_pow, Nat.cast_ofNat]
    linear_combination ih + 2 ^ (64 * k) * ht

/-- The wrapped difference, by cases on the borrow. -/
theorem wrappedSub_eq_ite {w a b : Nat} (ha : a < 2 ^ w) (hb : b < 2 ^ w) :
    wrappedSub w a b = if a < b then a + 2 ^ w - b else a - b := by
  rw [wrappedSub, Nat.mod_eq_of_lt hb]
  split
  · rw [Nat.mod_eq_of_lt (by omega)]
    omega
  · rw [Nat.mod_eq_sub_mod (by omega), Nat.mod_eq_of_lt (by omega)]
    omega

/-- A difference below P in size is one value below P less one borrow. -/
theorem borrow_unique {P a b d c : Nat} (hd : d < P) (hc : c ≤ 1)
    (h : (d : Int) - c * P = (a : Int) - b) :
    d = (if a < b then a + P - b else a - b) ∧ c = if a < b then 1 else 0 := by
  obtain rfl | rfl := Nat.le_one_iff_eq_zero_or_eq_one.1 hc <;> split <;> omega

theorem subChain_eq {n a b : Nat} (ha : a < 2 ^ (64 * n)) (hb : b < 2 ^ (64 * n)) :
    subChain a b n = (wrappedSub (64 * n) a b, if a < b then 1 else 0) := by
  have hdiff := subChain_diff a b n
  rw [Nat.mod_eq_of_lt ha, Nat.mod_eq_of_lt hb] at hdiff
  obtain ⟨hd, hc⟩ := borrow_unique (subChain_lt a b n) (subChain_borrow_le a b n) (by exact_mod_cast hdiff)
  rw [wrappedSub_eq_ite ha hb]
  exact Prod.ext hd hc

/-- Settles O34: the chains' words are the sum and the difference modulo 2^W, and what is left above them is C. -/
theorem carryAndBorrowChains : Obligations.CarryAndBorrowChains := by
  unfold Obligations.CarryAndBorrowChains
  intro s rd rs1 rs2 hwf
  obtain ⟨hreg, -⟩ := hwf
  rw [addChain_eq (hreg rs1) (hreg rs2), subChain_eq (hreg rs1) (hreg rs2), exec_wadd, exec_wsub,
    Flags.afterAdd_eq_carry (hreg rs1) (hreg rs2)]
  refine ⟨rfl, ?_⟩
  have hborrow : decide ((if s.reg rs1 < s.reg rs2 then 1 else 0) = 1) = decide (s.reg rs1 < s.reg rs2) := by simp
  rw [hborrow]
  rfl

/-! ## The compare scan (40_wordvector.md R140) -/

/-- A smaller top word makes the smaller value. -/
theorem add_word_lt_add_word {r r' x y k : Nat} (hr : r < 2 ^ (64 * k)) (hxy : x < y) :
    r + x * 2 ^ (64 * k) < r' + y * 2 ^ (64 * k) := by
  have h := Nat.mul_le_mul_right (2 ^ (64 * k)) (Nat.succ_le_of_lt hxy)
  rw [Nat.succ_mul] at h
  omega

/-- The scan from word k − 1 down compares the values of the words below k. -/
theorem compareScan_eq (a b k : Nat) : compareScan a b k = compare (a % 2 ^ (64 * k)) (b % 2 ^ (64 * k)) := by
  induction k with
  | zero => simp [compareScan, Nat.mod_one]
  | succ k ih =>
    have hlow (x : Nat) : x % 2 ^ (64 * k) < 2 ^ (64 * k) := Nat.mod_lt _ (by positivity)
    rw [compareScan, mod_pow_succ_words, mod_pow_succ_words, ih]
    split
    · next hlt => exact (Nat.compare_eq_lt.2 (add_word_lt_add_word (hlow a) hlt)).symm
    · split
      · next hgt => exact (Nat.compare_eq_gt.2 (add_word_lt_add_word (hlow b) hgt)).symm
      · next hlt hgt =>
        have heq : wordOf a k = wordOf b k := by omega
        simp only [heq, LinearOrder.compare_eq_compareOfLessAndEq, compareOfLessAndEq, Nat.add_lt_add_iff_right,
          Nat.add_right_cancel_iff]

theorem Flags.afterCompare_eq_compare (f : Flags) (a b : Nat) : f.afterCompare a b =
    { f with z := compare a b == .eq, lt := compare a b == .lt, gt := compare a b == .gt } := by
  rcases lt_trichotomy a b with h | rfl | h
  · simp [Flags.afterCompare, Nat.compare_eq_lt.2 h, h, h.ne, h.le]
  · simp [Flags.afterCompare]
  · simp [Flags.afterCompare, Nat.compare_eq_gt.2 h, h, h.ne', h.le]

/-- Settles O35: over all N words the scan compares the two registers, and its answer is the three flags. -/
theorem compareFromTheTopWord : Obligations.CompareFromTheTopWord := by
  unfold Obligations.CompareFromTheTopWord
  intro s rs1 rs2 hwf
  obtain ⟨hreg, -⟩ := hwf
  have hscan : compareScan (s.reg rs1) (s.reg rs2) s.cfg.n = compare (s.reg rs1) (s.reg rs2) := by
    rw [compareScan_eq, ← w_eq, Nat.mod_eq_of_lt (hreg rs1), Nat.mod_eq_of_lt (hreg rs2)]
  rw [exec_wcmp, Flags.afterCompare_eq_compare, hscan]

/-! ## The integer laws of WADD and WSUB (40_wordvector.md R137) -/

section Laws

variable {w a b : Nat} (ha : a < 2 ^ w) (hb : b < 2 ^ w)
include ha hb

/-- The wrapped sum, by cases on the carry. -/
theorem add_mod_two_pow_eq_ite : (a + b) % 2 ^ w = if 2 ^ w ≤ a + b then a + b - 2 ^ w else a + b :=
  (addMod_eq ha hb).symm

theorem add_eq_mod_add_carry : a + b = (a + b) % 2 ^ w + if decide (2 ^ w ≤ a + b) then 2 ^ w else 0 := by
  rw [add_mod_two_pow_eq_ite ha hb]
  by_cases h : 2 ^ w ≤ a + b
  · simp [h]
  · simp [h]

theorem sub_eq_wrappedSub_sub_borrow :
    (a : Int) - b = (wrappedSub w a b : Int) - if decide (a < b) then 2 ^ w else 0 := by
  rw [wrappedSub_eq_ite ha hb]
  have hcast : (2 : Int) ^ w = (2 ^ w : Nat) := (Nat.cast_pow 2 w).symm
  by_cases h : a < b
  · simp only [h, decide_true, if_true, hcast]
    omega
  · simp only [h, decide_false, Bool.false_eq_true, if_false]
    omega

/-- The sum is below its second operand exactly where it wrapped. -/
theorem add_mod_lt_iff_carry : (a + b) % 2 ^ w < b ↔ 2 ^ w ≤ a + b := by
  rw [add_mod_two_pow_eq_ite ha hb]
  split <;> omega

theorem wrappedSub_add_mod : wrappedSub w ((a + b) % 2 ^ w) b = a := by
  rw [wrappedSub_eq_ite (Nat.mod_lt _ (by positivity)) hb]
  simp only [add_mod_lt_iff_carry ha hb]
  rw [add_mod_two_pow_eq_ite ha hb]
  split <;> omega

end Laws

/-- What a later command reads after WADD. -/
theorem exists_exec_wadd (s : State) (rd rs1 rs2 : Reg) : ∃ t, exec (.wadd rd rs1 rs2) s = .next t ∧
    t.cfg = s.cfg ∧ t.reg rd = (s.reg rs1 + s.reg rs2) % 2 ^ s.cfg.w ∧ (∀ q, rd ≠ q → t.reg q = s.reg q) ∧
    t.flags.c = decide (2 ^ s.cfg.w ≤ s.reg rs1 + s.reg rs2) :=
  ⟨_, exec_wadd s rd rs1 rs2, by simp, by simp, fun q hq => by simp [hq], by simp [Flags.afterAdd]⟩

theorem exists_exec_wsub (s : State) (rd rs1 rs2 : Reg) : ∃ t, exec (.wsub rd rs1 rs2) s = .next t ∧
    t.reg rd = wrappedSub s.cfg.w (s.reg rs1) (s.reg rs2) ∧ t.flags.c = decide (s.reg rs1 < s.reg rs2) :=
  ⟨_, exec_wsub s rd rs1 rs2, by simp, by simp [Flags.afterSub]⟩

/-- Settles O36: with rd ≠ rs2 WSUB reads the sum and the operand that WADD added. -/
theorem wsubUndoesWadd : Obligations.WsubUndoesWadd := by
  unfold Obligations.WsubUndoesWadd
  intro s rd rq rs1 rs2 hwf hne
  obtain ⟨hreg, -⟩ := hwf
  have ha := hreg rs1
  have hb := hreg rs2
  obtain ⟨t, ht, hcfg, hsum, hkeep, hcarry⟩ := exists_exec_wadd s rd rs1 rs2
  obtain ⟨u, hu, hdiff, hborrow⟩ := exists_exec_wsub t rq rd rs2
  rw [hcfg, hsum, hkeep rs2 hne] at hdiff
  rw [hsum, hkeep rs2 hne] at hborrow
  refine ⟨t, u, ht, hu, ?_, ?_, ?_, ?_⟩
  · rw [hsum, hcarry]
    exact add_eq_mod_add_carry ha hb
  · rw [hsum, hdiff, hborrow]
    exact sub_eq_wrappedSub_sub_borrow (Nat.mod_lt _ (by positivity)) hb
  · rw [hdiff, wrappedSub_add_mod ha hb]
  · rw [hborrow, hcarry]
    exact decide_eq_decide.2 (add_mod_lt_iff_carry ha hb)

/-! ## What a WordVector command depends on (40_wordvector.md R141) -/

/-- Settles O37: the values and the flags written are functions of N and the source registers. -/
theorem wordVectorReadsItsSourcesOnly : Obligations.WordVectorReadsItsSourcesOnly := by
  unfold Obligations.WordVectorReadsItsSourcesOnly
  intro s s' rd rs1 rs2 hcfg h1 h2
  refine ⟨⟨_, _, exec_wadd s rd rs1 rs2, exec_wadd s' rd rs1 rs2, ?_, ?_⟩,
    ⟨_, _, exec_wsub s rd rs1 rs2, exec_wsub s' rd rs1 rs2, ?_, ?_⟩,
    ⟨_, _, exec_wshr1 s rd rs1, exec_wshr1 s' rd rs1, ?_⟩,
    ⟨_, _, exec_wbitlen s rd rs1, exec_wbitlen s' rd rs1, ?_⟩,
    ⟨_, _, exec_wcmp s rs1 rs2, exec_wcmp s' rs1 rs2, ?_, ?_, ?_⟩,
    ⟨_, _, exec_wisz s rs1, exec_wisz s' rs1, ?_⟩⟩ <;>
    simp [Flags.afterAdd, Flags.afterSub, Flags.afterCompare, Flags.afterIsZero, hcfg, h1, h2]

/-! ## The adder and the subtractor modulo m (42_modular_add.md R195, R196) -/

/-- Of two W-bit values the mask keeps every bit of the one and none of the other. -/
theorem maskSelect_eq_ite {w x y : Nat} (c : Bool) (hx : x < 2 ^ w) (hy : y < 2 ^ w) :
    maskSelect w c x y = if c then x else y := by
  cases c <;> simp [maskSelect, Nat.and_two_pow_sub_one_eq_mod, Nat.mod_eq_of_lt hx, Nat.mod_eq_of_lt hy]

section Realised

variable {n m a b : Nat} (hm : m < 2 ^ (64 * n)) (ha : a < m) (hb : b < m)
include hm ha hb

/-- The subtraction of m from the (W+1)-bit sum does not borrow exactly where the sum is m or more. -/
theorem borrow_le_carry_iff :
    (if (a + b) % 2 ^ (64 * n) < m then 1 else 0) ≤ (a + b) >>> (64 * n) ↔ m ≤ a + b := by
  have hcarry := shiftRight_add_eq_one_iff (ha.trans hm) (hb.trans hm)
  have hle := shiftRight_add_le_one (ha.trans hm) (hb.trans hm)
  rw [add_mod_two_pow_eq_ite (ha.trans hm) (hb.trans hm)]
  generalize (a + b) >>> (64 * n) = c at hcarry hle ⊢
  split_ifs <;> omega

theorem addModChain_eq : addModChain n m a b = addMod m a b := by
  have ha' := ha.trans hm
  have hb' := hb.trans hm
  have hsum : (a + b) % 2 ^ (64 * n) < 2 ^ (64 * n) := Nat.mod_lt _ (by positivity)
  unfold addModChain
  simp only [addChain_eq ha' hb', subChain_eq hsum hm, borrow_le_carry_iff hm ha hb]
  rw [maskSelect_eq_ite _ (wrappedSub_lt _ _ _) hsum, wrappedSub_eq_ite hsum hm, add_mod_two_pow_eq_ite ha' hb', addMod]
  simp only [decide_eq_true_eq]
  clear hsum
  split_ifs <;> omega

theorem subModChain_eq : subModChain n m a b = subMod m a b := by
  have ha' := ha.trans hm
  have hb' := hb.trans hm
  unfold subModChain
  simp only [subChain_eq ha' hb']
  rw [maskSelect_eq_ite _ (Nat.mod_lt _ (by positivity)) (wrappedSub_lt _ _ _),
    add_mod_two_pow_eq_ite (wrappedSub_lt _ _ _) hm, wrappedSub_eq_ite ha' hb', subMod]
  by_cases h : a < b
  · simp only [h, if_true, decide_true]
    split <;> omega
  · simp only [h, if_false, Nat.zero_ne_one, decide_false, Bool.false_eq_true]

end Realised

/-- Settles O40: the modulus has the width of a register, and the chains with the select are the conditional
subtraction and addition of m. -/
theorem modularAddRealised : Obligations.ModularAddRealised := by
  unfold Obligations.ModularAddRealised
  intro s rd rs1 rs2 hwf hpv h1 h2
  obtain ⟨hm, -⟩ := hwf.params_lt
  rw [addModChain_eq hm h1 h2, subModChain_eq hm h1 h2, addMod_eq h1 h2]
  exact ⟨exec_fadd rd hpv h1 h2, exec_fsub rd hpv h1 h2⟩

end Sys2Proof.Machine
end

section
/-! PROOFS. The laws of the modular adder and of the Montgomery multiplier as laws of commands (42_modular_add.md R198,
43_montgomery.md R217, R218), and the parameters of a valid file as Montgomery forms (10_state.md R39). -/

namespace Sys2Proof.Machine

/-! ## FADD (42_modular_add.md R198) -/

section Fadd

variable {s : State} {rs1 rs2 : Reg} (hpv : s.status.pv = true) (h1 : s.reg rs1 < s.params.modulus)
  (h2 : s.reg rs2 < s.params.modulus)
include hpv h1 h2

/-- What a later FADD reads after FADD: a reduced sum, and the same modulus with PV = 1. -/
theorem exists_exec_fadd (rd : Reg) : ∃ t, exec (.fadd rd rs1 rs2) s = .next t ∧ t.status.pv = true ∧
    t.params = s.params ∧ t.reg rd = (s.reg rs1 + s.reg rs2) % s.params.modulus ∧
    t.reg rd < s.params.modulus ∧ ∀ q, rd ≠ q → t.reg q = s.reg q :=
  ⟨_, exec_fadd rd hpv h1 h2, by simp [hpv], by simp, by simp, by simpa using Nat.mod_lt _ (by omega),
    fun q hq => by simp [hq]⟩

end Fadd

/-- Settles O39: the laws of addition modulo m, on operands that the first FADD leaves for the second. -/
theorem faddLaws : Obligations.FaddLaws := by
  unfold Obligations.FaddLaws
  intro s d ra rb rc hpv ha hb hc
  refine ⟨?_, fun h0 => ?_, fun hda hdc => ?_⟩
  · rw [exec_fadd d hpv ha hb, exec_fadd d hpv hb ha, Nat.add_comm]
  · rw [exec_fadd d hpv ha hb, h0, Nat.add_zero, Nat.mod_eq_of_lt ha]
  · obtain ⟨t1, ht1, htpv, htpar, htd, htlt, htkeep⟩ := exists_exec_fadd hpv ha hb d
    obtain ⟨u1, hu1, hupv, hupar, hud, hult, hukeep⟩ := exists_exec_fadd hpv hb hc d
    rw [← htpar] at htlt hc
    rw [← hupar] at hult ha
    rw [← htkeep rc hdc] at hc
    rw [← hukeep ra hda] at ha
    obtain ⟨t2, ht2, -, -, htsum, -⟩ := exists_exec_fadd htpv htlt hc d
    obtain ⟨u2, hu2, -, -, husum, -⟩ := exists_exec_fadd hupv ha hult d
    refine ⟨t1, t2, u1, u2, ht1, ht2, hu1, hu2, ?_⟩
    rw [htsum, husum, htpar, hupar, htkeep rc hdc, hukeep ra hda, htd, hud, Nat.mod_add_mod, Nat.add_mod_mod,
      Nat.add_assoc]

/-! ## FMUL (43_montgomery.md R217, R218) -/

theorem State.mont_comm (s : State) (a b : Nat) : s.mont a b = s.mont b a := by
  simp only [State.mont, montMul, Nat.mul_comm a b]

/-- The product depends on N and the parameter file, which a command that writes one register leaves. -/
@[simp] theorem State.mont_setE (s : State) (r : Reg) (v : Nat) : (s.setE r v).mont = s.mont := rfl
@[simp] theorem State.mont_succeed (s : State) : s.succeed.mont = s.mont := rfl

namespace State.Derived

variable {s : State} {g x : Nat} (h : s.Derived g) (hx : x < s.params.modulus)
include h hx

/-- R is the Montgomery form of 1, so the identity of the product. -/
theorem mont_r : s.mont x s.params.r = x := by
  apply h.eq_of_unmont (h.mont_lt hx h.r_lt) hx
  rw [h.unmont_mont hx h.r_lt, h.unmont_r, mul_one]

theorem mont_zero : s.mont x 0 = 0 := by
  apply h.eq_of_unmont (h.mont_lt hx h.pos) h.pos
  rw [h.unmont_mont hx h.pos, unmont_zero h.goodInv, mul_zero]

/-- TOMONT then FROMMONT gives the value back (43_montgomery.md R217). -/
theorem mont_mont_r2_one : s.mont (s.mont x s.params.r2) 1 = x := by
  rw [h.mont_r2 hx, h.mont_one hx]

end State.Derived

/-- Settles O43: the laws of the product on a derived parameter file, which TOMONT leaves for FROMMONT. -/
theorem montgomeryLaws : Obligations.MontgomeryLaws := by
  unfold Obligations.MontgomeryLaws
  intro s rd rq rs1 rs2 hinv hpv h1 h2
  obtain ⟨-, hpar⟩ := hinv
  obtain ⟨g, hd⟩ := hpar.derived hpv
  have hmul := exec_fmul rd hpv h1 h2
  refine ⟨?_, fun x y hx hy => ?_, ?_, fun hr => ?_, fun h0 => ?_⟩
  · have hlt : ((s.setE rd (s.mont (s.reg rs1) s.params.r2)).succeed).reg rd < s.params.modulus := by
      simpa using hd.mont_lt h1 hd.r2_lt
    refine ⟨_, _, exec_tomont rd hpv h1, exec_frommont rq hpv hlt, ?_⟩
    simpa using hd.mont_mont_r2_one h1
  · rw [hmul, hx, hy, hd.mont_montForm]
  · rw [hmul, exec_fmul rd hpv h2 h1, s.mont_comm]
  · rw [hmul, hr, hd.mont_r h1]
  · rw [hmul, h0, hd.mont_zero h1]

/-! ## The parameters of a valid file (10_state.md R39) -/

theorem State.Derived.wide_lt {s : State} {g : Nat} (h : s.Derived g) {k : Fin 8} (hk : k ≠ 0) :
    s.params.wide k < s.params.modulus := by
  obtain ⟨-, h3, -⟩ := h.checks
  have hlt := deriveParams_wide_lt (w := s.cfg.w) (g := g) h3 hk
  rwa [← h.eq] at hlt

/-- Settles O56: every field of a derived set but the modulus is a remainder or a quotient below m. -/
theorem derivedParametersAreReduced : Obligations.DerivedParametersAreReduced := by
  unfold Obligations.DerivedParametersAreReduced
  intro s hinv hpv
  obtain ⟨-, hpar⟩ := hinv
  obtain ⟨g, hd⟩ := hpar.derived hpv
  obtain ⟨-, -, hg, -⟩ := hd.checks
  refine ⟨fun k => hd.wide_lt, ?_, g, hg, hd.generator_eq, ?_⟩
  · rw [hd.r_eq, montForm, Nat.one_mul]
  · rw [hd.oddFactor_eq, hd.twoAdicRoot_eq]

end Sys2Proof.Machine
end

section
/-! PROOFS. What the powers of a prime modulus mean (41_parameters.md R169, 44_exp_inv_sqrt.md R247, R249, R253): Fermat
and Euler on the canonical element that a reduced value stands for, and then FINV, FLEG, FSQRT and the order of the
two-adic root as commands. -/

namespace Sys2Proof.Machine

namespace State.Derived

variable {s : State} {g x : Nat} (h : s.Derived g)
include h

/-! ## −1 and squares in Montgomery form -/

/-- m − R is the Montgomery form of −1. -/
theorem unmont_modulus_sub_r : unmont s.params.modulus s.cfg.w (s.params.modulus - s.params.r) = -1 := by
  rw [unmont_eq_iff h.goodInv, Nat.cast_sub h.r_lt.le, ZMod.natCast_self, h.r_eq, ZMod.natCast_mod, Nat.cast_pow,
    Nat.cast_ofNat, zero_sub, neg_one_mul]

theorem r_pos : 0 < s.params.r := by
  have := Fact.mk h.one_lt
  have hr : s.params.r ≠ 0 := fun h0 => by
    have hone := h.unmont_r
    rw [h0, unmont_zero h.goodInv] at hone
    exact zero_ne_one hone
  omega

/-- The odd modulus leaves 1 and −1 apart. -/
theorem neg_one_ne_one : (-1 : ZMod s.params.modulus) ≠ 1 := by
  obtain ⟨-, h3, -⟩ := h.checks
  have : Fact (2 < s.params.modulus) := ⟨h3⟩
  exact ZMod.neg_one_ne_one

theorem unmont_ne_zero (hx : x < s.params.modulus) (h0 : x ≠ 0) : unmont s.params.modulus s.cfg.w x ≠ 0 :=
  mt (unmont_eq_zero_iff h.goodInv _ hx).1 h0

/-- A reduced value is the FSQR of a reduced value exactly where the element it stands for is a square. -/
theorem exists_mont_self_iff (hx : x < s.params.modulus) :
    (∃ y, y < s.params.modulus ∧ s.mont y y = x) ↔ IsSquare (unmont s.params.modulus s.cfg.w x) := by
  constructor
  · rintro ⟨y, hy, rfl⟩
    exact ⟨_, h.unmont_mont hy hy⟩
  · rintro ⟨c, hc⟩
    have := NeZero.mk h.pos.ne'
    have hy := h.montForm_lt c.val
    refine ⟨_, hy, h.eq_of_unmont (h.mont_lt hy hy) hx ?_⟩
    rw [h.unmont_mont hy hy, unmont_montForm h.goodInv, ZMod.natCast_zmod_val, hc]

/-! ## The Legendre value (44_exp_inv_sqrt.md R248) -/

theorem unmont_legendre (hx : x < s.params.modulus) :
    unmont s.params.modulus s.cfg.w (s.montPow x s.params.modulusMinusOneHalf) =
      unmont s.params.modulus s.cfg.w x ^ (s.params.modulus / 2) := by
  obtain ⟨hodd, -⟩ := h.checks
  have hhalf : (s.params.modulus - 1) / 2 = s.params.modulus / 2 := by omega
  rw [h.unmont_montPow hx h.modulusMinusOneHalf_lt, h.modulusMinusOneHalf_eq, hhalf]

theorem legendre_zero : s.montPow 0 s.params.modulusMinusOneHalf = 0 := by
  obtain ⟨-, h3, -⟩ := h.checks
  rw [← unmont_eq_zero_iff h.goodInv s.cfg.w (h.montPow_lt h.pos _), h.unmont_legendre h.pos, unmont_zero h.goodInv,
    zero_pow (by omega)]

/-! ## Powers modulo a prime (44_exp_inv_sqrt.md R247, R249, R253) -/

section Prime

variable [Fact s.params.modulus.Prime] (hx : x < s.params.modulus)
include hx

/-- Fermat: x times its power m − 2 is 1 (44_exp_inv_sqrt.md R247). -/
theorem mont_montPow_sub_two (h0 : x ≠ 0) : s.mont x (s.montPow x (s.params.modulus - 2)) = s.params.r := by
  obtain ⟨-, h3, -⟩ := h.checks
  have hinv := h.montPow_lt hx (s.params.modulus - 2)
  have hexp : s.params.modulus - 2 + 1 = s.params.modulus - 1 := by omega
  rw [h.unmont_eq_one_iff (h.mont_lt hx hinv), h.unmont_mont hx hinv,
    h.unmont_montPow hx ((Nat.sub_le _ 2).trans_lt h.lt), ← pow_succ', hexp,
    ZMod.pow_card_sub_one_eq_one (h.unmont_ne_zero hx h0)]

/-- Euler: the Legendre value of a nonzero x is `one` exactly where x is a square (44_exp_inv_sqrt.md R249). -/
theorem legendre_eq_r_iff (h0 : x ≠ 0) : s.montPow x s.params.modulusMinusOneHalf = s.params.r ↔
    ∃ y, y < s.params.modulus ∧ s.mont y y = x := by
  rw [h.unmont_eq_one_iff (h.montPow_lt hx _), h.unmont_legendre hx,
    ← ZMod.euler_criterion _ (h.unmont_ne_zero hx h0), h.exists_mont_self_iff hx]

/-- The Legendre value of a nonzero x is `one` or the Montgomery form of −1. -/
theorem legendre_cases (h0 : x ≠ 0) : s.montPow x s.params.modulusMinusOneHalf = s.params.r ∨
    s.montPow x s.params.modulusMinusOneHalf = s.params.modulus - s.params.r := by
  have hlt := h.montPow_lt hx s.params.modulusMinusOneHalf
  have hr := h.r_pos
  refine (ZMod.pow_div_two_eq_neg_one_or_one _ (h.unmont_ne_zero hx h0)).imp (fun hone => ?_) fun hneg => ?_
  · rwa [h.unmont_eq_one_iff hlt, h.unmont_legendre hx]
  · apply h.eq_of_unmont hlt (by omega)
    rw [h.unmont_legendre hx, hneg, h.unmont_modulus_sub_r]

/-- Tonelli-Shanks on a nonzero square finds a root (44_exp_inv_sqrt.md R253). -/
theorem exists_tonelli_root (hleg : s.montPow x s.params.modulusMinusOneHalf = s.params.r) :
    ∃ y, s.tonelli x = some y ∧ y < s.params.modulus ∧ s.mont y y = x := by
  have hone := (h.unmont_eq_one_iff (h.montPow_lt hx _)).1 hleg
  rw [h.unmont_montPow hx h.modulusMinusOneHalf_lt, h.modulusMinusOneHalf_eq] at hone
  obtain ⟨y, hroot, hy, hsq⟩ := h.tonelli_spec hx hone
  refine ⟨y, hroot, hy, h.eq_of_unmont (h.mont_lt hy hy) hx ?_⟩
  rw [h.unmont_mont hy hy, ← sq, hsq]

end Prime

/-! ## The order of the two-adic root (41_parameters.md R169) -/

/-- The power 2^(S−1) of the root is −1, not 1. -/
theorem montPow_root_half_ne_r [Fact s.params.modulus.Prime]
    (he : 2 ^ (s.params.twoAdicity.toNat - 1) < 2 ^ s.cfg.w) :
    s.montPow s.params.twoAdicRoot (2 ^ (s.params.twoAdicity.toNat - 1)) ≠ s.params.r := by
  rw [Ne, h.unmont_eq_one_iff (h.montPow_lt h.twoAdicRoot_lt _), h.unmont_montPow h.twoAdicRoot_lt he, h.unmont_root]
  exact h.neg_one_ne_one

/-- The power 2^S is the square of that −1. -/
theorem montPow_root_eq_r [Fact s.params.modulus.Prime] (he : 2 ^ s.params.twoAdicity.toNat < 2 ^ s.cfg.w) :
    s.montPow s.params.twoAdicRoot (2 ^ s.params.twoAdicity.toNat) = s.params.r := by
  have hS : 2 ^ s.params.twoAdicity.toNat = 2 ^ (s.params.twoAdicity.toNat - 1) * 2 :=
    (pow_sub_one_mul h.twoAdicity_pos.ne' 2).symm
  rw [h.unmont_eq_one_iff (h.montPow_lt h.twoAdicRoot_lt _), h.unmont_montPow h.twoAdicRoot_lt he, hS, pow_mul,
    h.unmont_root, neg_one_sq]

end State.Derived

/-! ## The commands -/

/-- Settles O46: FMUL reads the operand, which rd ≠ rs1 leaves, and the power m − 2; Fermat makes the product 1. -/
theorem finvIsTheInverse : Obligations.FinvIsTheInverse := by
  unfold Obligations.FinvIsTheInverse
  intro s rd rq rs1 hinv hpv hp h1 h0 hne
  obtain ⟨-, hpar⟩ := hinv
  obtain ⟨g, hd⟩ := hpar.derived hpv
  have := Fact.mk hp
  have hlt := hd.montPow_lt h1 (s.params.modulus - 2)
  refine ⟨_, _, exec_finv_of_ne_zero rd hpv h1 h0, exec_fmul rq ?_ ?_ ?_, ?_⟩
  · simpa using hpv
  · simpa [hne] using h1
  · simpa using hlt
  · simpa [hne] using hd.mont_montPow_sub_two h1 h0

/-- Settles O48: zero, and the two Legendre values of a nonzero element by Euler's criterion. -/
theorem flegTellsSquares : Obligations.FlegTellsSquares := by
  unfold Obligations.FlegTellsSquares
  intro s rd rs1 hinv hpv hp h1
  obtain ⟨-, hpar⟩ := hinv
  obtain ⟨g, hd⟩ := hpar.derived hpv
  have := Fact.mk hp
  rw [exec_fleg rd hpv h1]
  by_cases h0 : s.reg rs1 = 0
  · rw [h0, hd.legendre_zero]
    exact .inl ⟨rfl, rfl⟩
  have hsq := hd.legendre_eq_r_iff h1 h0
  by_cases hleg : s.montPow (s.reg rs1) s.params.modulusMinusOneHalf = s.params.r
  · exact .inr (.inl ⟨by rw [hleg], h0, hsq.1 hleg⟩)
  · have hneg := (hd.legendre_cases h1 h0).resolve_left hleg
    exact .inr (.inr ⟨by rw [hneg], h0, fun y hy hyx => hleg (hsq.2 ⟨y, hy, hyx⟩)⟩)

/-- Settles O50: FSQRT's own Legendre test tells squares from non-squares, and on a square its loop ends with a root. -/
theorem fsqrtSquaresBack : Obligations.FsqrtSquaresBack := by
  unfold Obligations.FsqrtSquaresBack
  intro s rd rs1 hinv hpv hp h1 h0
  obtain ⟨-, hpar⟩ := hinv
  obtain ⟨g, hd⟩ := hpar.derived hpv
  have := Fact.mk hp
  have hsq := hd.legendre_eq_r_iff h1 h0
  refine ⟨fun hex => ?_, fun hno => ?_⟩
  · have hleg := hsq.2 hex
    obtain ⟨y, hroot, hy, hyx⟩ := hd.exists_tonelli_root h1 hleg
    exact ⟨y, hy, hyx, exec_fsqrt_of_tonelli_some rd hpv h1 h0 hleg hroot⟩
  · refine exec_fsqrt_of_legendre_ne_one rd hpv h1 h0 fun hleg => ?_
    obtain ⟨y, hy, hyx⟩ := hsq.1 hleg
    exact hno y hy hyx

/-- Settles O57: FPOW reads the whole exponent, a W-bit register, and the root's power 2^(S−1) is −1. -/
theorem twoAdicRootHasFullOrder : Obligations.TwoAdicRootHasFullOrder := by
  unfold Obligations.TwoAdicRootHasFullOrder
  intro s rd rs1 rs2 hinv hpv hp hroot
  obtain ⟨⟨hreg, -⟩, hpar⟩ := hinv
  obtain ⟨g, hd⟩ := hpar.derived hpv
  have := Fact.mk hp
  have hexp := hreg rs2
  have hpow := exec_fpow rd hpv (hroot ▸ hd.twoAdicRoot_lt) rs2
  rw [hroot] at hpow
  refine ⟨hd.twoAdicity_pos, fun he => ?_, fun he => ?_⟩ <;> rw [he] at hexp hpow
  · rw [hpow, hd.montPow_root_eq_r hexp]
  · exact ⟨_, hd.montPow_root_half_ne_r hexp, hpow⟩

end Sys2Proof.Machine
end
